-- ==== Sys2Proof/Word.lean ====
section
/-! DEFINITION. The word types of AVFFT: a register or buffer word (00_scope R4, XLEN = 32), a byte of the byte view
(20_memory R56), a byte offset of the host's address space (20_memory R50, AW = 23). -/

namespace Sys2Proof

/-- A register or buffer word, 32 bits; read as a float where a rule says so (00_scope R4, R6). -/
abbrev Word := BitVec 32

/-- One byte of the little-endian byte view of a buffer word (20_memory R56). -/
abbrev Byte := BitVec 8

/-- A byte offset from `BASE`, as a host transaction carries it (20_memory R50, R51). -/
abbrev Offset := BitVec 23

end Sys2Proof
end

