-- ==== Sys2Proof/Config.lean ====
section
/-! DEFINITION. What the implementation fixes (00_scope R4, 10_state R27, R28) and the one free value of the spec,
`draw32()` (00_scope R12). The reference instantiation of `NUM` (00_scope R8) is computed in Machine/Num.lean. -/

namespace Sys2Proof.Config

/-- `LOG2_NMAX`, log2 of the largest transform length (00_scope R4; log 9). -/
def log2NMax : Nat := 18

/-- `NMAX`, the words in each of `RE`, `IM`, `WIN` (00_scope R4). -/
def nMax : Nat := 2 ^ log2NMax

/-- `HMAX`, the words in each of `MAG`, `OUT`, `FRQ` (00_scope R4). -/
def hMax : Nat := nMax / 2

/-- `S`, the bytes of one full buffer, the unit of the address map (20_memory R52). -/
def fullBufferBytes : Nat := 2 ^ (log2NMax + 2)

/-- What the `ID` register reads (10_state R27). -/
def idWord : Word := 0x41560007#32

/-- What the `CAP` register reads: `LOG2_NMAX` in bits 4:0, the rest 0 (10_state R28). -/
def capWord : Word := BitVec.ofNat 32 (log2NMax % 32)

/-- `draw32()`: an unspecified 32-bit value, chosen afresh at each use, under no law (00_scope R12). It has no body, so
nothing can be proved of its value. The first argument is the machine's count of drawing steps (`State.draws`), the
second the place of the use inside the step, so that two uses never share their arguments (log 4). -/
opaque draw32 : (stamp : Nat) → (path : List Nat) → Word

end Sys2Proof.Config
end

