-- ==== Sys2Proof/Syntax.lean ====
section
/-! DEFINITION. The commands of AVFFT: one constructor per row of spec/opcode_table.json (30_encoding R73), with the
operands of 30_encoding R72. -/

namespace Sys2Proof

/-- The fifteen commands (30_encoding R73). -/
inductive Instr where
  | nop
  | pad
  | bitrev
  /-- `STAGE s`: the stage number, unsigned, 0 .. 31 (30_encoding R72). -/
  | stage (s : Nat)
  | bfly
  | fft
  | wgen
  | wapply
  | mag
  | maxu
  /-- `DB K`: `keep` is K, 0 restarts the running maximum, 1 keeps it (30_encoding R72). -/
  | db (keep : Bool)
  | dbn
  | logc
  | faxis
  /-- `ACLR m`: bit 0 of the mask selects `GMAX`, bit 1 `DBMAX` (30_encoding R72). -/
  | aclr (m : BitVec 2)
  deriving DecidableEq, Repr

/-- The mnemonic of a command, as 30_encoding R73 spells it. -/
def Instr.mnemonic : Instr → String
  | .nop => "NOP"
  | .pad => "PAD"
  | .bitrev => "BITREV"
  | .stage _ => "STAGE"
  | .bfly => "BFLY"
  | .fft => "FFT"
  | .wgen => "WGEN"
  | .wapply => "WAPPLY"
  | .mag => "MAG"
  | .maxu => "MAXU"
  | .db _ => "DB"
  | .dbn => "DBN"
  | .logc => "LOGC"
  | .faxis => "FAXIS"
  | .aclr _ => "ACLR"

end Sys2Proof
end

