-- ==== Sys2Proof/WellFormed.lean ====
section
/-! DEFINITION. Which terms of `Instr` stand for a command word: the stage number must fit its five bits (30_encoding
R71, R72). Every other operand fits its field by its type. -/

namespace Sys2Proof

/-- The command has an encoding: `s` of `STAGE s` is `word[12:8]`, an unsigned number 0 .. 31 (30_encoding R72). -/
def Instr.wellFormed : Instr → Bool
  | .stage s => decide (s < 32)
  | .nop | .pad | .bitrev | .bfly | .fft | .wgen | .wapply | .mag | .maxu | .db _ | .dbn | .logc | .faxis
  | .aclr _ => true

end Sys2Proof
end

