-- ==== Sys2Proof/Decode.lean ====
section
/-! DEFINITION. Decoding and encoding of command words (30_encoding R70 to R76, R79). Decoding is total on 32-bit words
and names why a word is illegal; the encoder is written from the same table. -/

namespace Sys2Proof

/-- Why a word is illegal (30_encoding R74). All three are rejected alike, with code 3 (60_exceptions R164). -/
inductive DecodeError where
  /-- `rsv` (bits 31:16) is not zero. -/
  | reservedBits
  /-- The opcode (bits 7:0) is none of the fifteen. -/
  | reservedOpcode
  /-- A bit of `arg` (bits 15:8) that the format shows as zero is one. -/
  | argumentBits
  deriving DecidableEq, Repr

/-- The field `opcode`, bits 7:0 (30_encoding R70). -/
def opcodeOf (w : Word) : BitVec 8 := w.extractLsb' 0 8

/-- The field `arg`, bits 15:8 (30_encoding R70). -/
def argOf (w : Word) : BitVec 8 := w.extractLsb' 8 8

/-- The field `rsv`, bits 31:16 (30_encoding R70). -/
def rsvOf (w : Word) : BitVec 16 := w.extractLsb' 16 16

/-- Format Z: `arg` must be zero (30_encoding R71). -/
def decodeZ (i : Instr) (arg : BitVec 8) : Except DecodeError Instr :=
  if arg = 0#8 then .ok i else .error .argumentBits

/-- Format S: `arg[7:5]` must be zero, `s = arg[4:0]` (30_encoding R71, R72). -/
def decodeS (arg : BitVec 8) : Except DecodeError Instr :=
  if arg.extractLsb' 5 3 = 0#3 then .ok (.stage (arg.extractLsb' 0 5).toNat) else .error .argumentBits

/-- Format K: `arg[7:1]` must be zero, `K = arg[0]` (30_encoding R71, R72). -/
def decodeK (arg : BitVec 8) : Except DecodeError Instr :=
  if arg.extractLsb' 1 7 = 0#7 then .ok (.db (arg.getLsbD 0)) else .error .argumentBits

/-- Format M: `arg[7:2]` must be zero, `m = arg[1:0]` (30_encoding R71, R72). -/
def decodeM (arg : BitVec 8) : Except DecodeError Instr :=
  if arg.extractLsb' 2 6 = 0#6 then .ok (.aclr (arg.extractLsb' 0 2)) else .error .argumentBits

/-- `decode`, total on command words (30_encoding R79). -/
def decode (w : Word) : Except DecodeError Instr :=
  if rsvOf w ≠ 0#16 then .error .reservedBits
  else
    match (opcodeOf w).toNat with
    | 0x00 => decodeZ .nop (argOf w)
    | 0x01 => decodeZ .pad (argOf w)
    | 0x02 => decodeZ .bitrev (argOf w)
    | 0x03 => decodeS (argOf w)
    | 0x04 => decodeZ .bfly (argOf w)
    | 0x05 => decodeZ .fft (argOf w)
    | 0x08 => decodeZ .wgen (argOf w)
    | 0x09 => decodeZ .wapply (argOf w)
    | 0x10 => decodeZ .mag (argOf w)
    | 0x11 => decodeZ .maxu (argOf w)
    | 0x12 => decodeK (argOf w)
    | 0x13 => decodeZ .dbn (argOf w)
    | 0x14 => decodeZ .logc (argOf w)
    | 0x15 => decodeZ .faxis (argOf w)
    | 0x18 => decodeM (argOf w)
    | _ => .error .reservedOpcode

/-- The word with the given opcode and operand field (30_encoding R70, R79). -/
def commandWord (opcode arg : Nat) : Word := BitVec.ofNat 32 (opcode + arg * 2 ^ 8)

/-- `encode` (30_encoding R79): `STAGE s` is `0x03 + (s << 8)`, `DB K` is `0x12 + (K << 8)`, `ACLR m` is
`0x18 + (m << 8)`, and format Z is the opcode alone. -/
def encode : Instr → Word
  | .nop => commandWord 0x00 0
  | .pad => commandWord 0x01 0
  | .bitrev => commandWord 0x02 0
  | .stage s => commandWord 0x03 (s % 32)
  | .bfly => commandWord 0x04 0
  | .fft => commandWord 0x05 0
  | .wgen => commandWord 0x08 0
  | .wapply => commandWord 0x09 0
  | .mag => commandWord 0x10 0
  | .maxu => commandWord 0x11 0
  | .db keep => commandWord 0x12 (if keep then 1 else 0)
  | .dbn => commandWord 0x13 0
  | .logc => commandWord 0x14 0
  | .faxis => commandWord 0x15 0
  | .aclr m => commandWord 0x18 m.toNat

/-- The mask of a command's row: a word encodes the command iff `w AND mask = match` (30_encoding R73). -/
def encodingMask : Instr → Word
  | .stage _ => 0xFFFFE0FF#32
  | .db _ => 0xFFFFFEFF#32
  | .aclr _ => 0xFFFFFCFF#32
  | .nop | .pad | .bitrev | .bfly | .fft | .wgen | .wapply | .mag | .maxu | .dbn | .logc | .faxis => 0xFFFFFFFF#32

/-- The match of a command's row (30_encoding R73). -/
def encodingMatch : Instr → Word
  | .nop => 0x00000000#32
  | .pad => 0x00000001#32
  | .bitrev => 0x00000002#32
  | .stage _ => 0x00000003#32
  | .bfly => 0x00000004#32
  | .fft => 0x00000005#32
  | .wgen => 0x00000008#32
  | .wapply => 0x00000009#32
  | .mag => 0x00000010#32
  | .maxu => 0x00000011#32
  | .db _ => 0x00000012#32
  | .dbn => 0x00000013#32
  | .logc => 0x00000014#32
  | .faxis => 0x00000015#32
  | .aclr _ => 0x00000018#32

/-- The command the decoder reads from a table row's bits, numbered as spec/opcode_table.json numbers them. A command is
one 32-bit word (30_encoding R76), so a longer row is none. -/
def decodeTableWord (nbits w : Nat) : Option Instr :=
  if nbits ≤ 32 then
    match decode (BitVec.ofNat 32 (w % 2 ^ nbits)) with
    | .ok i => some i
    | .error _ => none
  else none

end Sys2Proof
end

