-- ==== Sys2Proof/Machine/State.lean ====
section
/-! DEFINITION. The whole state of AVFFT as plain data (10_state R20), the moves of its two agents (00_scope R13,
70_reset R196), and the state right after reset (10_state R44). -/

namespace Sys2Proof.Machine

/-- `CTRL`: its two bits; bits 31:2 read 0 and ignore writes (10_state R29; log 17). -/
structure Ctrl where
  /-- Bit 0, `IE_DONE`. -/
  ieDone : Bool
  /-- Bit 1, `IE_ERR`. -/
  ieErr : Bool
  deriving DecidableEq, Repr

/-- `STATUS`: its five bits, the block's only flags; bits 31:5 read 0 (10_state R30; log 17). -/
structure Status where
  /-- Bit 0: a command is in flight. -/
  busy : Bool
  /-- Bit 1: a command has completed. -/
  done : Bool
  /-- Bit 2: a command was rejected. -/
  err : Bool
  /-- Bit 3: a fallback of `LOGC` or `DBN` was used. -/
  degen : Bool
  /-- Bit 4: a host write was ignored because `BUSY` was 1. -/
  busyErr : Bool
  deriving DecidableEq, Repr

/-- The values of `ERRCODE[3:0]`; codes 4 to 15 are never produced (60_exceptions R161). -/
inductive ErrCode where
  | none
  | inputTooShort
  | invalidParameter
  | illegalCommand
  deriving DecidableEq, Repr

/-- The width of a bus access; only `word` is accepted (20_memory R55 (b), 93 U11; log 13). -/
inductive Width where
  | byte
  | half
  | word
  /-- Wider than 32 bits. -/
  | wide
  /-- 32 bits with a partial byte enable. -/
  | partialWord
  deriving DecidableEq, Repr

/-- One move of an agent (00_scope R13, 70_reset R196). -/
inductive Move where
  /-- The host's `HostRead(off)` (20_memory R51). -/
  | read (width : Width) (off : Offset)
  /-- The host's `HostWrite(off, data)` (20_memory R51). -/
  | write (width : Width) (off : Offset) (data : Word)
  /-- The engine's turn: `Complete`, where it is enabled (60_exceptions R170). -/
  | complete
  /-- The host drives `rst_n` low (70_reset R190). -/
  | resetLow
  /-- The host drives `rst_n` high; the step taken when it rises is the reset (70_reset R190). -/
  | resetHigh
  deriving DecidableEq, Repr

/-- The bus response to the last host transaction (20_memory R51). -/
inductive Response where
  /-- No transaction has been answered since reset. -/
  | none
  /-- A write's `ok`. -/
  | ok
  /-- A read's data, with `ok`. -/
  | data (w : Word)
  /-- `BusError`; a read that returns it returns no data (20_memory R55). -/
  | busError
  deriving DecidableEq, Repr

/-- The state of the block (10_state R20) with its reset pin, and three fields of the model's own: what the two agents do
next, the last bus response, and the count of draws. -/
structure State where
  /-- `CTRL` (10_state R29). -/
  ctrl : Ctrl
  /-- `STATUS` (10_state R30). -/
  status : Status
  /-- `ERRCODE` (10_state R39). -/
  errCode : ErrCode
  /-- `ERRCMD`, the rejected command word (10_state R40). -/
  errCmd : Word
  /-- `CMDCNT`, the completed commands mod 2^32 (10_state R25). -/
  cmdCnt : Word
  /-- `CUR`, the last accepted command word (10_state R24). -/
  cur : Word
  /-- `LEN`, the requested length n (10_state R32). -/
  len : Word
  /-- `NFFT`, the transform length N, 0 where none is established (10_state R33). -/
  nfft : Word
  /-- `LOG2N`, bits 4:0; bits 31:5 read 0 (10_state R34). -/
  log2n : BitVec 5
  /-- `WLEN`, the length of the window in `WIN` (10_state R35). -/
  wlen : Word
  /-- `SRATE`, the sample rate in Hz (10_state R36). -/
  srate : Word
  /-- `GMAX`, a float (10_state R37). -/
  gmax : Word
  /-- `DBMAX`, a float (10_state R38). -/
  dbmax : Word
  /-- The six buffers (10_state R22), in the byte view of 20_memory R52 and R56: the bytes of every word written since
  reset, addresses strictly rising. A byte that is not listed has no value: a read of its word is a draw (R23). -/
  mem : List Host.Cell
  /-- The level of the input `rst_n` (70_reset R190). -/
  rstN : Bool
  /-- The model's own: the moves to come of the host and the engine, in their order (log 1). -/
  agenda : List Move
  /-- The model's own: the bus response of the last host transaction since reset (log 22). -/
  resp : Response
  /-- The model's own: how many steps have drawn, the first argument of `Config.draw32` (log 4). -/
  draws : Nat
  deriving DecidableEq, Repr

/-- The one fault of the model. -/
inductive Fault where
  /-- Raised by the engine's turn (Machine/Engine.lean) when `BUSY = 1` and `CUR` is no command. The spec's block never is in
  such a state (10_state R43 (d)); SAFE: the model stops where the spec gives no step (log 14). -/
  | curNotACommand
  deriving DecidableEq, Repr

/-- The refusals of the model. -/
inductive Refusal where
  /-- Raised by `exec`'s arm of an instruction that has no meaning yet; SAFE. No arm does: all fifteen have their meaning. -/
  | notModelled (mnemonic : String)
  deriving DecidableEq, Repr

/-- The machine right after reset (10_state R44, 70_reset R191): every register at its reset value, no buffer word
written, `rst_n` just risen. `agenda`, `resp` and `draws` are the model's own (DESIGN CHOICE, log 11). -/
def State.reset : State where
  ctrl := { ieDone := false, ieErr := false }
  status := { busy := false, done := false, err := false, degen := false, busyErr := false }
  errCode := .none
  errCmd := 0#32
  cmdCnt := 0#32
  cur := 0#32
  len := 0#32
  nfft := 0#32
  log2n := 0#5
  wlen := 0#32
  srate := 0#32
  gmax := 0x00000000#32
  dbmax := 0xFF800000#32
  mem := []
  rstN := true
  agenda := []
  resp := .none
  draws := 0

end Sys2Proof.Machine
end

