-- ==== Sys2Proof/Machine/Memory.lean ====
section
/-! DEFINITION. The buffers' storage: a list of (address, byte) pairs with strictly rising addresses, words little-endian
over it (20_memory R56). A byte that is not listed has no value (10_state R23; log 6). -/

namespace Sys2Proof.Machine

/-- The buffers' bytes, keyed by byte offset (20_memory R52). -/
abbrev Mem := List Host.Cell

/-- The byte at an offset; none where nothing has been written since reset. -/
def Mem.get : Mem → Nat → Option Byte
  | [], _ => none
  | (a, b) :: m, x => if x = a then some b else if x < a then none else Mem.get m x

/-- Store one byte, keeping the addresses strictly rising. -/
def Mem.set : Mem → Nat → Byte → Mem
  | [], x, v => [(x, v)]
  | (a, b) :: m, x, v =>
    if x = a then (a, v) :: m else if x < a then (x, v) :: (a, b) :: m else (a, b) :: Mem.set m x v

/-- Every listed address lies above `lo`, and the addresses rise strictly. -/
def Mem.risesFrom : Nat → Mem → Bool
  | _, [] => true
  | lo, (a, _) :: m => decide (lo < a) && Mem.risesFrom a m

/-- The canonical form: addresses strictly rising. No listed byte equals what an unlisted one reads as, since an unlisted
byte has no value. -/
def Mem.wf : Mem → Bool
  | [] => true
  | (a, _) :: m => Mem.risesFrom a m

/-- Byte `k` of a word: bits `8k+7 : 8k` (20_memory R56). -/
def byteOf (w : Word) (k : Nat) : Byte := w.extractLsb' (8 * k) 8

/-- The word of four bytes, `b0` at the lowest offset (20_memory R56). -/
def wordOfBytes (b0 b1 b2 b3 : Byte) : Word := b3 ++ b2 ++ b1 ++ b0

/-- The word at an aligned offset; none unless all four of its bytes have been written. -/
def Mem.getWord (m : Mem) (a : Nat) : Option Word :=
  match Mem.get m a, Mem.get m (a + 1), Mem.get m (a + 2), Mem.get m (a + 3) with
  | some b0, some b1, some b2, some b3 => some (wordOfBytes b0 b1 b2 b3)
  | _, _, _, _ => none

/-- Store a word at an aligned offset, its byte `k` at offset `a + k` (20_memory R56). -/
def Mem.setWord (m : Mem) (a : Nat) (w : Word) : Mem :=
  Mem.set (Mem.set (Mem.set (Mem.set m a (byteOf w 0)) (a + 1) (byteOf w 1)) (a + 2) (byteOf w 2)) (a + 3) (byteOf w 3)

end Sys2Proof.Machine
end

