-- ==== Sys2Proof/Machine/Num.lean ====
section
/-! DEFINITION. The numerics record `NUM` (00_scope R7) in its reference instantiation (00_scope R8), which this hardware
takes: IEEE 754 binary32, correctly rounded, ties to even, subnormals kept; the constants of 00_scope R10. A finite float
is a whole multiple of 2^-149, its count of *units*, so sums and products are exact integers before the one rounding. -/

namespace Sys2Proof.Machine

/-- The place of one use of `draw32()`: the step's stamp and the path to the use inside the step (log 4). -/
structure Draw where
  stamp : Nat
  path : List Nat
  deriving DecidableEq, Repr

/-- The place one level further in. -/
def Draw.site (d : Draw) (k : Nat) : Draw := { d with path := k :: d.path }

/-- The value `draw32()` gives at this place (00_scope R12). -/
def Draw.word (d : Draw) : Word := Config.draw32 d.stamp d.path

namespace Num

/-! ### The format (00_scope R6) -/

/-- `+0.0`. -/
def zero : Word := 0x00000000#32
/-- `0.5`. -/
def half : Word := 0x3F000000#32
/-- `1.0`. -/
def one : Word := 0x3F800000#32
/-- `20.0`. -/
def twenty : Word := 0x41A00000#32
/-- `-120.0`. -/
def minus120 : Word := 0xC2F00000#32
/-- `+Inf`. -/
def posInf : Word := 0x7F800000#32
/-- `-Inf`. -/
def negInf : Word := 0xFF800000#32

/-- Bits 30:0 of `+Inf`. -/
def infBits : Nat := 0x7F800000

/-- Bit 31, the sign. -/
def sign (w : Word) : Bool := w.msb

/-- Bits 30:0, exponent and fraction together. -/
def magBits (w : Word) : Nat := w.toNat % 2 ^ 31

/-- Exponent 255 and a non-zero fraction. -/
def isNaN (w : Word) : Bool := decide (infBits < magBits w)

/-- `+Inf` or `-Inf`. -/
def isInf (w : Word) : Bool := decide (magBits w = infBits)

/-- `fisfinite(a)`: the exponent is not 255 (00_scope R6, R7). -/
def fisfinite (w : Word) : Bool := decide (magBits w < infBits)

/-- `feq0(a)`: a is +0.0 or -0.0 (00_scope R7). -/
def feq0 (w : Word) : Bool := decide (magBits w = 0)

/-- The units of 2^-149 in the float with the bits `m` in 30:0, for `m` below 2^31. -/
def unitsOf (m : Nat) : Nat :=
  if m / 2 ^ 23 = 0 then m else (2 ^ 23 + m % 2 ^ 23) * 2 ^ (m / 2 ^ 23 - 1)

/-- The magnitude of a finite float, in units of 2^-149. -/
def units (w : Word) : Nat := unitsOf (magBits w)

/-- A finite float as a signed count of units of 2^-149. -/
def intUnits (w : Word) : Int := if sign w then -(units w : Int) else (units w : Int)

/-- The float with this sign and these bits 30:0. -/
def pack (s : Bool) (m : Nat) : Word := BitVec.ofNat 32 (if s then 2 ^ 31 + m else m)

/-- Change the sign. -/
def fneg (w : Word) : Word := w ^^^ 0x80000000#32

/-- Some NaN: its sign and payload are a draw (00_scope R8 (d), 93 U6; log 5). A draw with fraction 0 becomes the pattern
of fraction 1, so that every NaN pattern can come out and nothing else can. -/
def nan (d : Draw) : Word :=
  let m := magBits d.word % 2 ^ 23
  pack (sign d.word) (infBits + if m = 0 then 1 else m)

/-! ### The one rounding (00_scope R8 (a)) -/

/-- `n / d` rounded to a whole number, ties to even. -/
def divRoundEven (n d : Nat) : Nat :=
  if d < 2 * (n % d) ∨ (2 * (n % d) = d ∧ n / d % 2 = 1) then n / d + 1 else n / d

/-- Bits 30:0 of the binary32 value nearest to `n / d` units of 2^-149, ties to even, overflow to infinity. `e` is how many
binades the quotient lies above the first one, whose spacing is one unit; the sum carries into the exponent. -/
def roundMag (n d : Nat) : Nat :=
  let e := Nat.log2 (n / d) - 23
  min (e * 2 ^ 23 + divRoundEven n (d * 2 ^ e)) infBits

/-- The float nearest to `v / d` units; an exact zero takes the sign `zs`. -/
def roundInt (v : Int) (d : Nat) (zs : Bool) : Word :=
  if v = 0 then pack zs 0 else pack (decide (v < 0)) (roundMag v.natAbs d)

/-! ### Arithmetic (00_scope R7, R8 (a)) -/

/-- `fadd(a,b)`; `Inf - Inf` is NaN, an exact zero sum is `+0.0` unless both terms are `-0.0`. -/
def fadd (d : Draw) (a b : Word) : Word :=
  if isNaN a || isNaN b then nan d
  else if isInf a then (if isInf b && (sign a != sign b) then nan d else a)
  else if isInf b then b
  else roundInt (intUnits a + intUnits b) 1 (sign a && sign b)

/-- `fsub(a,b)`. -/
def fsub (d : Draw) (a b : Word) : Word := fadd d a (fneg b)

/-- `fmul(a,b)`; `0 × Inf` is NaN. -/
def fmul (d : Draw) (a b : Word) : Word :=
  if isNaN a || isNaN b then nan d
  else if isInf a || isInf b then
    (if feq0 a || feq0 b then nan d else pack (sign a != sign b) infBits)
  else pack (sign a != sign b) (roundMag (units a * units b) (2 ^ 149))

/-- `fdiv(a,b)`; `0 / 0` and `Inf / Inf` are NaN, a finite non-zero value over zero is an infinity. -/
def fdiv (d : Draw) (a b : Word) : Word :=
  if isNaN a || isNaN b then nan d
  else if isInf a then (if isInf b then nan d else pack (sign a != sign b) infBits)
  else if isInf b then pack (sign a != sign b) 0
  else if feq0 b then (if feq0 a then nan d else pack (sign a != sign b) infBits)
  else pack (sign a != sign b) (roundMag (units a * 2 ^ 149) (units b))

/-- The whole square root of `n` found bit by bit, from `acc` and the bits below `2^k`. -/
def isqrtFrom (n : Nat) : (k acc : Nat) → Nat
  | 0, acc => acc
  | k + 1, acc => isqrtFrom n k (if (acc + 2 ^ k) * (acc + 2 ^ k) ≤ n then acc + 2 ^ k else acc)

/-- The largest whole number whose square is at most `n`, for `n` below 2^512. -/
def isqrt (n : Nat) : Nat := isqrtFrom n 256 0

/-- `fsqrt(a)`; `fsqrt(-0.0) = -0.0`, of a negative non-zero value NaN. The root of `units · 2^149` is the result's units;
where it is not whole, half a unit more stands for the part cut off, which no rounding boundary lies within. -/
def fsqrt (d : Draw) (a : Word) : Word :=
  if isNaN a then nan d
  else if feq0 a then a
  else if sign a then nan d
  else if isInf a then a
  else
    let n := units a * 2 ^ 149
    let r := isqrt n
    pack false (roundMag (2 * r + if r * r = n then 0 else 1) 2)

/-- `of_int(i)` for i below 2^32. -/
def ofInt (i : Nat) : Word := pack false (roundMag (i * 2 ^ 149) 1)

/-! ### Comparisons (00_scope R8 (c)) -/

/-- A whole number that orders the non-NaN floats as the reals, infinities outermost and `-0.0` equal to `+0.0`. -/
def orderKey (w : Word) : Int := if sign w then -(magBits w : Int) else (magBits w : Int)

/-- `fgt(a,b)`, false where either is a NaN. -/
def fgt (a b : Word) : Bool := !isNaN a && !isNaN b && decide (orderKey b < orderKey a)

/-- `flt(a,b)`, false where either is a NaN. -/
def flt (a b : Word) : Bool := !isNaN a && !isNaN b && decide (orderKey a < orderKey b)

/-! ### Cosine and logarithm (00_scope R8 (b); log 7)

Both are computed in fixed point, as whole multiples of 2^-256, by series whose truncation and rounding errors stay far below
2^-240. The result is the float both ends of the interval of ± 2^-200 around the computed value round to; were they to
round apart, the result would be a free value. -/

/-- The fixed-point scale, log2. -/
def fixBits : Nat := 256

/-- The fixed-point value of the error bound 2^-200. -/
def fixSlack : Int := (2 ^ 56 : Nat)

/-- The float nearest to the fixed-point value `v`. -/
def ofFix (v : Int) : Word := roundInt (v * (2 ^ 149 : Nat)) (2 ^ fixBits) false

/-- The float nearest to the real within the error bound of `v`, if the bound settles it; else a draw. -/
def ofFixChecked (d : Draw) (v : Int) : Word :=
  if ofFix (v - fixSlack) = ofFix (v + fixSlack) then ofFix (v - fixSlack) else d.word

/-- `n` terms of `t + g·t·z²/3 + g²·t·z⁴/5 + …` at scale `2^p`, from index `i`, with `z2` for `z²`: with `g = -1` the
arc tangent series, with `g = 1` the inverse hyperbolic tangent. -/
def atanSeries (g z2 : Int) (p : Nat) : (n i : Nat) → (t acc : Int) → Int
  | 0, _, _, acc => acc
  | n + 1, i, t, acc => atanSeries g z2 p n (i + 1) (g * (t * z2 / (2 ^ p : Nat))) (acc + t / (2 * i + 1 : Nat))

/-- `2π` at scale `2^p`, by Machin's formula `π/4 = 4·atan(1/5) - atan(1/239)`. -/
def twoPiFix (p : Nat) : Int :=
  let atanInv (k : Nat) : Int := atanSeries (-1) (2 ^ p / (k * k) : Nat) p 110 0 (2 ^ p / k : Nat) 0
  2 * (16 * atanInv 5 - 4 * atanInv 239)

/-- `n` terms of the cosine series at scale `2^fixBits`, from index `i`, with `x2` for `x²`. -/
def cosSeries (x2 : Int) : (n i : Nat) → (t acc : Int) → Int
  | 0, _, _, acc => acc
  | n + 1, i, t, acc =>
    cosSeries x2 n (i + 1) (-(t * x2 / (2 ^ fixBits : Nat)) / ((2 * i + 1) * (2 * i + 2) : Nat)) (acc + t)

/-- The cosine, in fixed point, of `k` units of 2^-149: the argument is brought into one turn with 2π to 416 bits, since it
may be as large as 2^128. -/
def cosFix (k : Nat) : Int :=
  let x : Int := (k * 2 ^ (fixBits - 149 + 160) : Nat)
  let r := x % twoPiFix (fixBits + 160) / (2 ^ 160 : Nat)
  cosSeries (r * r / (2 ^ fixBits : Nat)) 70 0 (2 ^ fixBits : Nat) 0

/-- `fcos(a)`: the float nearest to the exact cosine; NaN of a NaN or an infinity. `fcos(±0.0)` is 1.0 (`P_cos0`). -/
def fcos (d : Draw) (a : Word) : Word :=
  if fisfinite a then ofFixChecked d (cosFix (units a)) else nan d

/-- `2·atanh(n/m)` in fixed point. -/
def twoAtanhFix (n : Int) (m : Nat) : Int :=
  let z := n * (2 ^ fixBits : Nat) / (m : Int)
  2 * atanSeries 1 (z * z / (2 ^ fixBits : Nat)) fixBits 110 0 z 0

/-- `ln 2 = 2·atanh(1/3)`, in fixed point. -/
def ln2Fix : Int := twoAtanhFix 1 3

/-- `ln 10 = 3·ln 2 + ln(5/4) = 3·ln 2 + 2·atanh(1/9)`, in fixed point. -/
def ln10Fix : Int := 3 * ln2Fix + twoAtanhFix 1 9

/-- The base-10 logarithm, in fixed point, of `k > 0` units of 2^-149: `k = 2^e·m` with m in [3/4, 3/2), and
`ln m = 2·atanh((m-1)/(m+1))`. -/
def log10Fix (k : Nat) : Int :=
  let e0 := Nat.log2 k
  let e := if 3 * 2 ^ e0 ≤ 2 * k then e0 + 1 else e0
  let lnM := twoAtanhFix ((k : Int) - (2 ^ e : Nat)) (k + 2 ^ e)
  (((e : Int) - 149) * ln2Fix + lnM) * (2 ^ fixBits : Nat) / ln10Fix

/-- `flog10(a)`: the float nearest to the exact base-10 logarithm; `-Inf` of a zero, NaN below zero, `+Inf` of `+Inf`;
`flog10(1.0) = +0.0` (`P_log1`). -/
def flog10 (d : Draw) (a : Word) : Word :=
  if isNaN a then nan d
  else if feq0 a then negInf
  else if sign a then nan d
  else if isInf a then a
  else if a = one then zero
  else ofFixChecked d (log10Fix (units a))

/-! ### The block's constants (00_scope R10) -/

/-- The binary32 nearest 2π. -/
def twoPi : Word := 0x40C90FDB#32

/-- The binary32 nearest `ε = 1e-12`. -/
def eps : Word := 0x2B8CBCCC#32

/-- `(ROOT_RE[s], ROOT_IM[s])` for s = 1 .. 24, in order (00_scope R10). -/
def rootTable : List (Word × Word) :=
  [(0xBF800000#32, 0x00000000#32), (0x00000000#32, 0xBF800000#32), (0x3F3504F3#32, 0xBF3504F3#32),
   (0x3F6C835E#32, 0xBEC3EF15#32), (0x3F7B14BE#32, 0xBE47C5C2#32), (0x3F7EC46D#32, 0xBDC8BD36#32),
   (0x3F7FB10F#32, 0xBD48FB30#32), (0x3F7FEC43#32, 0xBCC90AB0#32), (0x3F7FFB11#32, 0xBC490E90#32),
   (0x3F7FFEC4#32, 0xBBC90F88#32), (0x3F7FFFB1#32, 0xBB490FC6#32), (0x3F7FFFEC#32, 0xBAC90FD5#32)] ++
  [(0x3F7FFFFB#32, 0xBA490FD9#32), (0x3F7FFFFF#32, 0xB9C90FDA#32), (0x3F800000#32, 0xB9490FDB#32),
   (0x3F800000#32, 0xB8C90FDB#32), (0x3F800000#32, 0xB8490FDB#32), (0x3F800000#32, 0xB7C90FDB#32),
   (0x3F800000#32, 0xB7490FDB#32), (0x3F800000#32, 0xB6C90FDB#32), (0x3F800000#32, 0xB6490FDB#32),
   (0x3F800000#32, 0xB5C90FDB#32), (0x3F800000#32, 0xB5490FDB#32), (0x3F800000#32, 0xB4C90FDB#32)]

/-- The stage root `ROOT[s]`. The table has entries 1 .. 24 only; no reachable state asks for another, and there the pair is
a free value (log 15). -/
def root (d : Draw) (s : Nat) : Word × Word :=
  if s = 0 then ((d.site 0).word, (d.site 1).word) else rootTable.getD (s - 1) ((d.site 0).word, (d.site 1).word)

end Num

end Sys2Proof.Machine
end

