-- ==== Sys2Proof/Machine/Operands.lean ====
section
/-! DEFINITION. What commands and host transactions operate on: the six buffers by index (10_state R22, 20_memory R60), the
registers and the address map (10_state R26, 20_memory R52), the integer helpers (00_scope R11), the loops of the
pseudocode (00_scope R5), and the issue checks (60_exceptions R162). -/

namespace Sys2Proof.Machine

/-! ### Integer helpers (00_scope R11) -/

/-- `clog2(n)`: the least L with `2^L ≥ n`; 0 for n = 0, which no rule asks for. -/
def clog2 (n : Nat) : Nat := if n ≤ 1 then 0 else Nat.log2 (n - 1) + 1

/-- `np2(n)`, the next power of two at or above n. -/
def np2 (n : Nat) : Nat := 2 ^ clog2 n

/-- `rev(L, i)`, the reversal of the low L bits of i. -/
def rev : (L : Nat) → (i : Nat) → Nat
  | 0, _ => 0
  | L + 1, i => i % 2 * 2 ^ L + rev L (i / 2)

/-- `HALF(N)`, the number of bins: `N div 2`, and 1 for N = 1 (90_conflicts C1). -/
def halfBins (n : Nat) : Nat := if 2 ≤ n then n / 2 else 1

/-! ### Loops (00_scope R5) -/

/-- `for i in 0 .. n-1`, ascending, each iteration complete before the next. -/
def forUpTo {α : Type} (n : Nat) (body : Nat → α → α) (a : α) : α := Nat.fold n (fun i _ acc => body i acc) a

/-- `for i in lo .. hi-1`, ascending. -/
def forRange {α : Type} (lo hi : Nat) (body : Nat → α → α) (a : α) : α :=
  forUpTo (hi - lo) (fun k acc => body (lo + k) acc) a

/-! ### The buffers -/

/-- The six buffers (10_state R22). -/
inductive Buf where
  | re
  | im
  | win
  | mag
  | out
  | frq
  deriving DecidableEq, Repr

/-- The buffers in the order of the address map. -/
def Buf.all : List Buf := [.re, .im, .win, .mag, .out, .frq]

/-- The words of a buffer: NMAX for `RE`, `IM`, `WIN`, HMAX for `MAG`, `OUT`, `FRQ` (10_state R22). -/
def Buf.words : Buf → Nat
  | .re | .im | .win => Config.nMax
  | .mag | .out | .frq => Config.hMax

/-- The first byte offset of a buffer (20_memory R52). -/
def Buf.base : Buf → Nat
  | .re => 1 * Config.fullBufferBytes
  | .im => 2 * Config.fullBufferBytes
  | .win => 3 * Config.fullBufferBytes
  | .mag => 4 * Config.fullBufferBytes
  | .out => 4 * Config.fullBufferBytes + Config.fullBufferBytes / 2
  | .frq => 5 * Config.fullBufferBytes

/-- The byte offset of word `i` of a buffer (20_memory R52). -/
def Buf.addr (b : Buf) (i : Nat) : Nat := b.base + 4 * i

/-- The word `i` of a buffer as it stands; none where it was not written since reset, or where the buffer has no such
word. -/
def Buf.peek (b : Buf) (m : Mem) (i : Nat) : Option Word :=
  if i < b.words then Mem.getWord m (b.addr i) else none

/-- Read `B[i]` once: the word, or, where it has not been written since reset, `draw32()` at the place `d` (10_state R23). -/
def Buf.load (b : Buf) (d : Draw) (m : Mem) (i : Nat) : Word := (b.peek m i).getD d.word

/-- `B[i] <- v`. Every rule keeps its index inside the buffer (00_scope R12); past the end there is no word to write and
nothing happens (log 12). -/
def Buf.store (b : Buf) (m : Mem) (i : Nat) (v : Word) : Mem :=
  if i < b.words then Mem.setWord m (b.addr i) v else m

/-! ### The registers and the address map -/

/-- The fifteen registers of the map (10_state R26). -/
inductive Reg where
  | id
  | cap
  | ctrl
  | status
  | cmd
  | errCode
  | errCmd
  | cmdCnt
  | len
  | nfft
  | log2n
  | wlen
  | srate
  | gmax
  | dbmax
  deriving DecidableEq, Repr

/-- The registers in the order of their offsets. -/
def Reg.all : List Reg :=
  [.id, .cap, .ctrl, .status, .cmd, .errCode, .errCmd, .cmdCnt, .len, .nfft, .log2n, .wlen, .srate, .gmax, .dbmax]

/-- The byte offset of a register (10_state R26). -/
def Reg.offset : Reg → Nat
  | .id => 0x00
  | .cap => 0x04
  | .ctrl => 0x08
  | .status => 0x0C
  | .cmd => 0x10
  | .errCode => 0x14
  | .errCmd => 0x18
  | .cmdCnt => 0x1C
  | .len => 0x20
  | .nfft => 0x24
  | .log2n => 0x28
  | .wlen => 0x2C
  | .srate => 0x30
  | .gmax => 0x34
  | .dbmax => 0x38

/-- What a host transaction reaches (20_memory R52). -/
inductive Target where
  | reg (r : Reg)
  | word (b : Buf) (i : Nat)
  deriving DecidableEq, Repr

/-- The target of an access, or none where it is misaligned, not 32 bits wide or unmapped (20_memory R52, R55, R57). -/
def target (width : Width) (off : Offset) : Option Target :=
  if width ≠ .word ∨ off.toNat % 4 ≠ 0 then none
  else
    match Reg.all.find? (fun r => r.offset = off.toNat) with
    | some r => some (.reg r)
    | none =>
      match Buf.all.find? (fun b => b.base ≤ off.toNat ∧ off.toNat < b.base + 4 * b.words) with
      | some b => some (.word b ((off.toNat - b.base) / 4))
      | none => none

/-! ### Issue checks (60_exceptions R162) -/

/-- The checks on the requested length: `LEN = 0` is too short, `LEN > NMAX` an invalid parameter. -/
def lengthCheck (s : State) : Option ErrCode :=
  if s.len = 0#32 then some .inputTooShort
  else if Config.nMax < s.len.toNat then some .invalidParameter
  else none

/-- The check that a transform length is established. -/
def transformCheck (s : State) : Option ErrCode := if s.nfft = 0#32 then some .inputTooShort else none

/-- The issue checks of a command in the order they are tested: the code of the first that fails (60_exceptions R162). -/
def issueCheck : Instr → State → Option ErrCode
  | .nop, _ => none
  | .aclr _, _ => none
  | .pad, s => lengthCheck s
  | .fft, s => lengthCheck s
  | .wgen, s => lengthCheck s
  | .wapply, s => (lengthCheck s).or (if s.wlen ≠ s.len then some .invalidParameter else none)
  | .bitrev, s => transformCheck s
  | .bfly, s => transformCheck s
  | .stage n, s => (transformCheck s).or (if n = 0 ∨ s.log2n.toNat < n then some .invalidParameter else none)
  | .mag, s => transformCheck s
  | .maxu, s => transformCheck s
  | .db _, s => transformCheck s
  | .dbn, s => transformCheck s
  | .logc, s => transformCheck s
  | .faxis, s => (transformCheck s).or (if s.srate = 0#32 then some .invalidParameter else none)

end Sys2Proof.Machine
end

