-- ==== Sys2Proof/Machine/Flags.lean ====
section
/-! DEFINITION. The flags and the words they read as: `CTRL`, `STATUS`, `ERRCODE` (10_state R29, R30, R39), the
write-one-to-clear of `STATUS` with the return from a rejection (60_exceptions R166), the interrupt line (R173). -/

namespace Sys2Proof.Machine

/-- One bit as a number. -/
def bit (b : Bool) : Nat := if b then 1 else 0

/-- What `CTRL` reads (10_state R29). -/
def ctrlWord (c : Ctrl) : Word := BitVec.ofNat 32 (bit c.ieDone + 2 * bit c.ieErr)

/-- What a write leaves in `CTRL`: bits 31:2 are ignored (10_state R29). -/
def ctrlOfWord (v : Word) : Ctrl := { ieDone := v.getLsbD 0, ieErr := v.getLsbD 1 }

/-- What `STATUS` reads (10_state R30). -/
def statusWord (f : Status) : Word :=
  BitVec.ofNat 32 (bit f.busy + 2 * bit f.done + 4 * bit f.err + 8 * bit f.degen + 16 * bit f.busyErr)

/-- The number of an error code (60_exceptions R161). -/
def codeNumber : ErrCode → Nat
  | .none => 0
  | .inputTooShort => 1
  | .invalidParameter => 2
  | .illegalCommand => 3

/-- What `ERRCODE` reads: the code in bits 3:0 (10_state R39). -/
def errCodeWord (c : ErrCode) : Word := BitVec.ofNat 32 (codeNumber c)

/-- The flags after a write of `v` to `STATUS`: each W1C bit that is 1 in `v` is cleared (10_state R30). -/
def clearFlags (f : Status) (v : Word) : Status :=
  { busy := f.busy
    done := f.done && !v.getLsbD 1
    err := f.err && !v.getLsbD 2
    degen := f.degen && !v.getLsbD 3
    busyErr := f.busyErr && !v.getLsbD 4 }

/-- A host write of `v` to `STATUS` (10_state R30). The block's trap return is in it: where it clears `ERR`, `ERRCODE` and
`ERRCMD` become 0, and nothing else is restored (60_exceptions R166). -/
def writeStatus (v : Word) (s : State) : State :=
  if s.status.err ∧ v.getLsbD 2 then { s with status := clearFlags s.status v, errCode := .none, errCmd := 0#32 }
  else { s with status := clearFlags s.status v }

/-- A host write was ignored (60_exceptions R168, R172; 20_memory R59 (c)). -/
def markBusyError (s : State) : State := { s with status := { s.status with busyErr := true } }

/-- `DEGEN`, set by `Complete` of `LOGC` or `DBN` when it took its fallback (60_exceptions R171). -/
def setDegen (s : State) : State := { s with status := { s.status with degen := true } }

/-- The interrupt line (60_exceptions R173); low while `rst_n` is low (70_reset R190). -/
def irq (s : State) : Bool :=
  s.rstN && ((s.ctrl.ieDone && s.status.done) || (s.ctrl.ieErr && s.status.err))

end Sys2Proof.Machine
end

