-- ==== Sys2Proof/Machine/Ops.lean ====
section
/-! DEFINITION. What happens to a command word between the `CMD` write and `Complete`: rejection, the block's trap entry
(60_exceptions R165), acceptance (R169), issue (R163), completion (R170). Every meaning is `runCommand` of its effect. -/

namespace Sys2Proof.Machine

/-- Taking the exception: reject the word `w` with code `c` (60_exceptions R165). It writes exactly `ERR`, `ERRCODE` and
`ERRCMD`; there is no handler address and nothing to save. -/
def reject (c : ErrCode) (w : Word) (s : State) : State :=
  { s with status := { s.status with err := true }, errCode := c, errCmd := w }

/-- Accept the word `w` (60_exceptions R169). -/
def accept (w : Word) (s : State) : State :=
  { s with status := { s.status with busy := true, done := false }, cur := w }

/-- Outcomes 2, 4 and 5 of 60_exceptions R163 for a legal command, issued while `BUSY = 0`: discarded while `ERR = 1`
(R167), rejected with the code of the first failing check, else accepted. -/
def issue (i : Instr) (s : State) : State :=
  if s.status.err then s
  else
    match issueCheck i s with
    | some c => reject c (encode i) s
    | none => accept (encode i) s

/-- Outcomes 2 and 3 of 60_exceptions R163: an illegal word, issued while `BUSY = 0`, is discarded while `ERR = 1` and else
rejected with code 3 (R164). -/
def issueIllegal (w : Word) (s : State) : State := if s.status.err then s else reject .illegalCommand w s

/-- The place of the draws of the step that starts in `s`. -/
def drawOf (s : State) : Draw := { stamp := s.draws, path := [] }

/-- The end of `Complete`: `BUSY <- 0`, `DONE <- 1`, `CMDCNT` counts mod 2^32 (60_exceptions R170); the model's count of
draws moves on. -/
def finish (s : State) : State :=
  { s with
    status := { s.status with busy := false, done := true }
    cmdCnt := s.cmdCnt + 1#32
    draws := s.draws + 1 }

/-- The life of the command `i` in two steps, told apart by `STATUS.BUSY` (10_state R24: `BUSY` says whether `CUR` is still
to be executed). Idle: the issue of `i` (60_exceptions R163). Busy: `Complete` of `i`, its whole effect as one atomic step
(R170), whose checks are not repeated (log 3). -/
def runCommand (i : Instr) (effect : Draw → State → State) (s : State) : Host.Outcome State Fault Refusal :=
  if s.status.busy then .next (finish (effect (drawOf s) s)) else .next (issue i s)

end Sys2Proof.Machine
end

