-- ==== Sys2Proof/Machine/Convert.lean ====
section
/-! DEFINITION. The conversion commands MAG, MAXU, DB, DBN, LOGC, FAXIS (42_magnitude_log R130 to R136). Every loop runs
over the bins `k = 0 .. HALF(N)-1`, ascending (R130). -/

namespace Sys2Proof.Machine

/-- `H = HALF(N)` (42_magnitude_log R130). -/
def bins (s : State) : Nat := halfBins s.nfft.toNat

/-! ### MAG -/

/-- `sqrt(re² + im²)` of bin k (42_magnitude_log R131). -/
def magnitudeOf (d : Draw) (m : Mem) (k : Nat) : Word :=
  let pw := Num.fadd (d.site 0)
    (Num.fmul (d.site 1) (Buf.load .re (d.site 2) m k) (Buf.load .re (d.site 3) m k))
    (Num.fmul (d.site 4) (Buf.load .im (d.site 5) m k) (Buf.load .im (d.site 6) m k))
  Num.fsqrt (d.site 7) pw

/-- The effect of MAG (42_magnitude_log R131). -/
def magEffect (d : Draw) (s : State) : State :=
  { s with mem := forUpTo (bins s) (fun k m => Buf.store .mag m k (magnitudeOf (d.site k) m k)) s.mem }

/-- MAG (42_magnitude_log R131). -/
def execMag (s : State) : Host.Outcome State Fault Refusal := runCommand .mag magEffect s

/-! ### MAXU -/

/-- `if fgt(MAG[k], g) then g <- MAG[k]` (42_magnitude_log R132): the word taken is the word compared, one read, so that a NaN
is never taken (10_state R43 (e); log 23). -/
def maxuStep (d : Draw) (m : Mem) (k : Nat) (g : Word) : Word :=
  let x := Buf.load .mag d m k
  if Num.fgt x g then x else g

/-- The effect of MAXU (42_magnitude_log R132). -/
def maxuEffect (d : Draw) (s : State) : State :=
  { s with gmax := forUpTo (bins s) (fun k g => maxuStep (d.site k) s.mem k g) s.gmax }

/-- MAXU (42_magnitude_log R132). -/
def execMaxu (s : State) : Host.Outcome State Fault Refusal := runCommand .maxu maxuEffect s

/-! ### DB -/

/-- `20·log10(mag + ε)` of bin k (42_magnitude_log R133). -/
def decibelOf (d : Draw) (m : Mem) (k : Nat) : Word :=
  Num.fmul (d.site 0) Num.twenty
    (Num.flog10 (d.site 1) (Num.fadd (d.site 2) (Buf.load .mag (d.site 3) m k) Num.eps))

/-- One bin of DB: the value to `OUT[k]`, and the maximum so far (42_magnitude_log R133). -/
def dbStep (d : Draw) (k : Nat) (acc : Mem × Word) : Mem × Word :=
  let v := decibelOf d acc.1 k
  (Buf.store .out acc.1 k v, if Num.fgt v acc.2 then v else acc.2)

/-- The effect of DB K: K = 0 restarts the maximum from -Inf, K = 1 goes on from `DBMAX` (42_magnitude_log R133). -/
def dbEffect (keep : Bool) (d : Draw) (s : State) : State :=
  let r := forUpTo (bins s) (fun k acc => dbStep (d.site k) k acc) (s.mem, if keep then s.dbmax else Num.negInf)
  { s with mem := r.1, dbmax := r.2 }

/-- DB K (42_magnitude_log R133). -/
def execDb (keep : Bool) (s : State) : Host.Outcome State Fault Refusal := runCommand (.db keep) (dbEffect keep) s

/-! ### DBN -/

/-- `OUT[k]` relative to the maximum, with the floor of -120 dB (42_magnitude_log R134). -/
def relativeDecibel (d : Draw) (dbmax : Word) (m : Mem) (k : Nat) : Word :=
  let r := Num.fsub (d.site 0) (Buf.load .out (d.site 1) m k) dbmax
  if Num.flt r Num.minus120 then Num.minus120 else r

/-- `OUT[0 .. h-1] <- v`, the fallback of DBN and LOGC (42_magnitude_log R134, R135). -/
def fillOut (h : Nat) (v : Word) (m : Mem) : Mem := forUpTo h (fun k m => Buf.store .out m k v) m

/-- The effect of DBN (42_magnitude_log R134). -/
def dbnEffect (d : Draw) (s : State) : State :=
  if Num.fisfinite s.dbmax then
    { s with mem := forUpTo (bins s) (fun k m => Buf.store .out m k (relativeDecibel (d.site k) s.dbmax m k)) s.mem }
  else setDegen { s with mem := fillOut (bins s) Num.minus120 s.mem }

/-- DBN (42_magnitude_log R134). -/
def execDbn (s : State) : Host.Outcome State Fault Refusal := runCommand .dbn dbnEffect s

/-! ### LOGC -/

/-- `d = log10(1 + globalMax)`, with ε for a maximum of zero (42_magnitude_log R135). -/
def logcDivisor (d : Draw) (gmax : Word) : Word :=
  Num.flog10 (d.site 0) (Num.fadd (d.site 1) Num.one (if Num.feq0 gmax then Num.eps else gmax))

/-- `log10(1 + MAG[k]) / d` (42_magnitude_log R135). -/
def logcValue (d : Draw) (divisor : Word) (m : Mem) (k : Nat) : Word :=
  Num.fdiv (d.site 0)
    (Num.flog10 (d.site 1) (Num.fadd (d.site 2) Num.one (Buf.load .mag (d.site 3) m k))) divisor

/-- The effect of LOGC: the fallback where the divisor is zero or not finite (42_magnitude_log R135, 90_conflicts C7). -/
def logcEffect (d : Draw) (s : State) : State :=
  let v := logcDivisor (d.site 0) s.gmax
  if Num.fisfinite v && !Num.feq0 v then
    { s with mem := forUpTo (bins s) (fun k m => Buf.store .out m k (logcValue ((d.site 1).site k) v m k)) s.mem }
  else setDegen { s with mem := fillOut (bins s) Num.zero s.mem }

/-- LOGC (42_magnitude_log R135). -/
def execLogc (s : State) : Host.Outcome State Fault Refusal := runCommand .logc logcEffect s

/-! ### FAXIS -/

/-- `k · sampleRate / N`, left to right (42_magnitude_log R136). -/
def frequencyOf (d : Draw) (srate n k : Nat) : Word :=
  Num.fdiv (d.site 0) (Num.fmul (d.site 1) (Num.ofInt k) (Num.ofInt srate)) (Num.ofInt n)

/-- The effect of FAXIS (42_magnitude_log R136). -/
def faxisEffect (d : Draw) (s : State) : State :=
  { s with
    mem := forUpTo (bins s) (fun k m => Buf.store .frq m k (frequencyOf (d.site k) s.srate.toNat s.nfft.toNat k)) s.mem }

/-- FAXIS (42_magnitude_log R136). -/
def execFaxis (s : State) : Host.Outcome State Fault Refusal := runCommand .faxis faxisEffect s

end Sys2Proof.Machine
end

