-- ==== Sys2Proof/Machine/System.lean ====
section
/-! DEFINITION. The system commands NOP and ACLR (43_system R150, R151). -/

namespace Sys2Proof.Machine

/-- NOP: no effect but that of every command (43_system R150). -/
def execNop (s : State) : Host.Outcome State Fault Refusal := runCommand .nop (fun _ s => s) s

/-- The effect of ACLR m: `m[0]` clears `GMAX` to +0.0, `m[1]` clears `DBMAX` to -Inf (43_system R151). -/
def aclrEffect (m : BitVec 2) (s : State) : State :=
  { s with
    gmax := if m.getLsbD 0 then Num.zero else s.gmax
    dbmax := if m.getLsbD 1 then Num.negInf else s.dbmax }

/-- ACLR m (43_system R151). -/
def execAclr (m : BitVec 2) (s : State) : Host.Outcome State Fault Refusal :=
  runCommand (.aclr m) (fun _ => aclrEffect m) s

end Sys2Proof.Machine
end

