-- ==== Sys2Proof/Machine/Transform.lean ====
section
/-! DEFINITION. The transform commands PAD, BITREV, STAGE, BFLY, FFT (41_fft R110 to R116). -/

namespace Sys2Proof.Machine

/-! ### PAD -/

/-- `RE[n .. N-1] <- +0.0`, then `IM[0 .. N-1] <- +0.0` (41_fft R111). -/
def padMem (n len : Nat) (m : Mem) : Mem :=
  forUpTo len (fun i m => Buf.store .im m i Num.zero) (forRange n len (fun i m => Buf.store .re m i Num.zero) m)

/-- The effect of PAD (41_fft R111). -/
def padEffect (s : State) : State :=
  { s with
    mem := padMem s.len.toNat (np2 s.len.toNat) s.mem
    nfft := BitVec.ofNat 32 (np2 s.len.toNat)
    log2n := BitVec.ofNat 5 (clog2 s.len.toNat) }

/-- PAD (41_fft R111). -/
def execPad (s : State) : Host.Outcome State Fault Refusal := runCommand .pad (fun _ => padEffect) s

/-! ### BITREV -/

/-- `t <- B[i] ; B[i] <- B[j] ; B[j] <- t` (41_fft R112). -/
def swapWords (b : Buf) (d : Draw) (i j : Nat) (m : Mem) : Mem :=
  let t := Buf.load b (d.site 0) m i
  Buf.store b (Buf.store b m i (Buf.load b (d.site 1) m j)) j t

/-- The bit-reversal permutation of `RE` and `IM` (41_fft R112). -/
def bitrevMem (d : Draw) (len bits : Nat) (m : Mem) : Mem :=
  forUpTo len (fun i m =>
    let j := rev bits i
    if i < j then swapWords .im ((d.site i).site 1) i j (swapWords .re ((d.site i).site 0) i j m) else m) m

/-- The effect of BITREV (41_fft R112). -/
def bitrevEffect (d : Draw) (s : State) : State :=
  { s with mem := bitrevMem d s.nfft.toNat s.log2n.toNat s.mem }

/-- BITREV (41_fft R112). -/
def execBitrev (s : State) : Host.Outcome State Fault Refusal := runCommand .bitrev bitrevEffect s

/-! ### STAGE -/

/-- The twiddle sequence `TW(s, j)` (41_fft R113), both components of a pair from the old pair. -/
def twiddle (d : Draw) (s : Nat) : (j : Nat) → Word × Word
  | 0 => (Num.one, Num.zero)
  | j + 1 =>
    let w := twiddle d s j
    let r := Num.root (d.site 0) s
    let e := (d.site 1).site j
    (Num.fsub (e.site 0) (Num.fmul (e.site 1) w.1 r.1) (Num.fmul (e.site 2) w.2 r.2),
     Num.fadd (e.site 3) (Num.fmul (e.site 4) w.1 r.2) (Num.fmul (e.site 5) w.2 r.1))

/-- One butterfly on the elements `a` and `b` with the twiddle `w`: all six reads before the four writes (41_fft R114). -/
def butterfly (d : Draw) (w : Word × Word) (a b : Nat) (m : Mem) : Mem :=
  let ur := Buf.load .re (d.site 0) m a
  let ui := Buf.load .im (d.site 1) m a
  let vr := Num.fsub (d.site 2) (Num.fmul (d.site 3) (Buf.load .re (d.site 4) m b) w.1)
    (Num.fmul (d.site 5) (Buf.load .im (d.site 6) m b) w.2)
  let vi := Num.fadd (d.site 7) (Num.fmul (d.site 8) (Buf.load .re (d.site 9) m b) w.2)
    (Num.fmul (d.site 10) (Buf.load .im (d.site 11) m b) w.1)
  let m1 := Buf.store .re m a (Num.fadd (d.site 12) ur vr)
  let m2 := Buf.store .im m1 a (Num.fadd (d.site 13) ui vi)
  let m3 := Buf.store .re m2 b (Num.fsub (d.site 14) ur vr)
  Buf.store .im m3 b (Num.fsub (d.site 15) ui vi)

/-- One block of stage `s`, starting at element `i` (41_fft R114). -/
def stageBlock (d : Draw) (s i : Nat) (m : Mem) : Mem :=
  forUpTo (2 ^ s / 2) (fun j m => butterfly (d.site j) (twiddle (d.site (2 ^ s)) s j) (i + j) (i + j + 2 ^ s / 2) m) m

/-- Stage `s` over `len` elements: the blocks at 0, 2^s, 2·2^s, … while below `len` (41_fft R114). -/
def stageMem (d : Draw) (s len : Nat) (m : Mem) : Mem :=
  forUpTo ((len + 2 ^ s - 1) / 2 ^ s) (fun k m => stageBlock (d.site k) s (k * 2 ^ s) m) m

/-- The effect of STAGE s (41_fft R114). -/
def stageEffect (n : Nat) (d : Draw) (s : State) : State := { s with mem := stageMem d n s.nfft.toNat s.mem }

/-- STAGE s (41_fft R114). -/
def execStage (n : Nat) (s : State) : Host.Outcome State Fault Refusal := runCommand (.stage n) (stageEffect n) s

/-! ### BFLY -/

/-- Stages 1 .. `bits`, in order (41_fft R115). -/
def bflyMem (d : Draw) (len bits : Nat) (m : Mem) : Mem :=
  forUpTo bits (fun k m => stageMem (d.site k) (k + 1) len m) m

/-- The effect of BFLY (41_fft R115). -/
def bflyEffect (d : Draw) (s : State) : State := { s with mem := bflyMem d s.nfft.toNat s.log2n.toNat s.mem }

/-- BFLY (41_fft R115). -/
def execBfly (s : State) : Host.Outcome State Fault Refusal := runCommand .bfly bflyEffect s

/-! ### FFT -/

/-- The effect of FFT: PAD, BITREV, BFLY, with the N and L that PAD has just written (41_fft R116). -/
def fftEffect (d : Draw) (s : State) : State := bflyEffect (d.site 1) (bitrevEffect (d.site 0) (padEffect s))

/-- FFT (41_fft R116). -/
def execFft (s : State) : Host.Outcome State Fault Refusal := runCommand .fft fftEffect s

end Sys2Proof.Machine
end

