-- ==== Sys2Proof/Machine/Window.lean ====
section
/-! DEFINITION. The window commands WGEN and WAPPLY (40_window R100 to R102). -/

namespace Sys2Proof.Machine

/-- The coefficient `i` of `hann(n)` for n ≥ 2, evaluated left to right (40_window R101). -/
def hannCoefficient (d : Draw) (n i : Nat) : Word :=
  let x := Num.fdiv (d.site 0) (Num.fmul (d.site 1) Num.twoPi (Num.ofInt i)) (Num.ofInt (n - 1))
  Num.fmul (d.site 2) Num.half (Num.fsub (d.site 3) Num.one (Num.fcos (d.site 4) x))

/-- `WIN[0 .. n-1] <- hann(n)`; `hann(1)` is 1.0 (40_window R101, 90_conflicts C3). -/
def wgenMem (d : Draw) (n : Nat) (m : Mem) : Mem :=
  if n = 1 then Buf.store .win m 0 Num.one
  else forUpTo n (fun i m => Buf.store .win m i (hannCoefficient (d.site i) n i)) m

/-- The effect of WGEN (40_window R101). -/
def wgenEffect (d : Draw) (s : State) : State :=
  { s with mem := wgenMem d s.len.toNat s.mem, wlen := s.len }

/-- WGEN (40_window R101). -/
def execWgen (s : State) : Host.Outcome State Fault Refusal := runCommand .wgen wgenEffect s

/-- `RE[i] <- fmul(RE[i], WIN[i])` for i in 0 .. n-1 (40_window R102). -/
def wapplyMem (d : Draw) (n : Nat) (m : Mem) : Mem :=
  forUpTo n (fun i m =>
    let e := d.site i
    Buf.store .re m i (Num.fmul (e.site 0) (Buf.load .re (e.site 1) m i) (Buf.load .win (e.site 2) m i))) m

/-- The effect of WAPPLY (40_window R102). -/
def wapplyEffect (d : Draw) (s : State) : State := { s with mem := wapplyMem d s.len.toNat s.mem }

/-- WAPPLY (40_window R102). -/
def execWapply (s : State) : Host.Outcome State Fault Refusal := runCommand .wapply wapplyEffect s

end Sys2Proof.Machine
end

