-- ==== Sys2Proof/Machine/Dispatch.lean ====
section
/-! DEFINITION. The meaning of each command, one arm per constructor: its issue while `BUSY = 0`, its `Complete` while
`BUSY = 1` (Machine/Ops.lean, runCommand). -/

namespace Sys2Proof.Machine

def exec (i : Instr) (s : State) : Host.Outcome State Fault Refusal :=
  match i with
  | .nop => Sys2Proof.Machine.execNop s
  | .pad => Sys2Proof.Machine.execPad s
  | .bitrev => Sys2Proof.Machine.execBitrev s
  | .stage n => Sys2Proof.Machine.execStage n s
  | .bfly => Sys2Proof.Machine.execBfly s
  | .fft => Sys2Proof.Machine.execFft s
  | .wgen => Sys2Proof.Machine.execWgen s
  | .wapply => Sys2Proof.Machine.execWapply s
  | .mag => Sys2Proof.Machine.execMag s
  | .maxu => Sys2Proof.Machine.execMaxu s
  | .db keep => Sys2Proof.Machine.execDb keep s
  | .dbn => Sys2Proof.Machine.execDbn s
  | .logc => Sys2Proof.Machine.execLogc s
  | .faxis => Sys2Proof.Machine.execFaxis s
  | .aclr m => Sys2Proof.Machine.execAclr m s

end Sys2Proof.Machine
end

