-- ==== Sys2Proof/Machine/Bus.lean ====
section
/-! DEFINITION. The bus port: the host's reads and writes (20_memory R50 to R59), each one atomic step whose response stands
in `State.resp`. A `BusError` changes nothing but that response (R55). -/

namespace Sys2Proof.Machine

/-- What a register reads (10_state R27 to R40); it does not depend on `BUSY` (20_memory R53, R59 (a)). -/
def readReg (r : Reg) (s : State) : Word :=
  match r with
  | .id => Config.idWord
  | .cap => Config.capWord
  | .ctrl => ctrlWord s.ctrl
  | .status => statusWord s.status
  | .cmd => s.cur
  | .errCode => errCodeWord s.errCode
  | .errCmd => s.errCmd
  | .cmdCnt => s.cmdCnt
  | .len => s.len
  | .nfft => s.nfft
  | .log2n => s.log2n.setWidth 32
  | .wlen => s.wlen
  | .srate => s.srate
  | .gmax => s.gmax
  | .dbmax => s.dbmax

/-- Answer the transaction. -/
def respond (r : Response) (s : State) : State := { s with resp := r }

/-- A read of the word `i` of a buffer: the word when idle, `draw32()` while `BUSY = 1` (20_memory R53, R59 (d)) and for a
word never written (10_state R23). A draw moves the model's count of draws on and changes nothing of the block. -/
def readWord (b : Buf) (i : Nat) (s : State) : State :=
  match if s.status.busy then none else b.peek s.mem i with
  | some w => respond (.data w) s
  | none => { respond (.data (drawOf s).word) s with draws := s.draws + 1 }

/-- `HostRead(off)` (20_memory R53, R55). -/
def hostRead (width : Width) (off : Offset) (s : State) : State :=
  match target width off with
  | none => respond .busError s
  | some (.reg r) => respond (.data (readReg r s)) s
  | some (.word b i) => readWord b i s

/-- A write of `v` to a register other than `CTRL`, `STATUS` and `CMD`, while `BUSY = 0`: a RW register takes all 32 bits, a
RO register ignores the write (10_state R41, 20_memory R54). -/
def writeReg (r : Reg) (v : Word) (s : State) : State :=
  match r with
  | .len => { s with len := v }
  | .wlen => { s with wlen := v }
  | .srate => { s with srate := v }
  | .gmax => { s with gmax := v }
  | .dbmax => { s with dbmax := v }
  | .id | .cap | .ctrl | .status | .cmd | .errCode | .errCmd | .cmdCnt | .nfft | .log2n => s

/-- The issue of the command word `w` (60_exceptions R163): ignored while `BUSY = 1` (R168); else the word is decoded, and a
legal command's meaning discards, rejects or accepts it. -/
def hostCommand (w : Word) (s : State) : Host.Outcome State Fault Refusal :=
  if s.status.busy then .next (markBusyError s)
  else
    match decode w with
    | .ok i => exec i s
    | .error _ => .next (issueIllegal w s)

/-- `HostWrite(off, v)` (20_memory R54, R55, R59): `CTRL` and `STATUS` at any time, `CMD` issues `v`, and every other write
is ignored with `BUSYERR` while `BUSY = 1`. The response is `ok` unless the access has no target. -/
def hostWrite (width : Width) (off : Offset) (v : Word) (s : State) : Host.Outcome State Fault Refusal :=
  match target width off with
  | none => .next (respond .busError s)
  | some (.reg .ctrl) => .next { respond .ok s with ctrl := ctrlOfWord v }
  | some (.reg .status) => .next (writeStatus v (respond .ok s))
  | some (.reg .cmd) => hostCommand v (respond .ok s)
  | some (.reg r) => .next (if s.status.busy then markBusyError (respond .ok s) else writeReg r v (respond .ok s))
  | some (.word b i) =>
    .next (if s.status.busy then markBusyError (respond .ok s)
      else { respond .ok s with mem := b.store s.mem i v })

end Sys2Proof.Machine
end

