-- ==== Sys2Proof/Machine/Engine.lean ====
section
/-! DEFINITION. The engine's turn (60_exceptions R170), the reset input (70_reset R190 to R192), and one move of an agent
(00_scope R13, 70_reset R196). -/

namespace Sys2Proof.Machine

/-- The engine's turn: `Complete`, enabled iff `BUSY = 1`, runs the command in `CUR` (60_exceptions R170). A `CUR` that is no
command is a fault (log 14). -/
def engineTurn (s : State) : Host.Outcome State Fault Refusal :=
  if s.status.busy then
    match decode s.cur with
    | .ok i => exec i s
    | .error _ => .fault .curNotACommand
  else .next s

/-- The reset, the step taken when `rst_n` rises (70_reset R190 to R192): every register at its reset value, every buffer
word unspecified, a command in flight abandoned. The moves to come and the count of draws are not the block's. -/
def resetBlock (s : State) : State := { State.reset with agenda := s.agenda, draws := s.draws }

/-- `rst_n` driven high: the reset, if it was low (70_reset R190). -/
def raiseReset (s : State) : State := if s.rstN then s else resetBlock s

/-- One move of an agent. -/
def perform (m : Move) (s : State) : Host.Outcome State Fault Refusal :=
  match m with
  | .read width off => .next (hostRead width off s)
  | .write width off v => hostWrite width off v s
  | .complete => engineTurn s
  | .resetLow => .next { s with rstN := false }
  | .resetHigh => .next (raiseReset s)

/-- The move drives the reset pin. -/
def Move.isPin : Move → Bool
  | .resetLow | .resetHigh => true
  | .read _ _ | .write _ _ _ | .complete => false

/-- The first move of the pin in an agenda, with the other moves in their order; none where the pin does not move. -/
def takePin : List Move → Option (Move × List Move)
  | [] => none
  | m :: rest =>
    if m.isPin then some (m, rest)
    else
      match takePin rest with
      | some (p, others) => some (p, m :: others)
      | none => none

/-- The next move while `rst_n` is high: the head of the agenda. Once the agenda is empty it is the engine's turn, so that
every accepted command completes (60_exceptions R170, weak fairness); an idle block stays as it is (70_reset R195; log 1). -/
def activeMove (s : State) : Host.Outcome State Fault Refusal :=
  match s.agenda with
  | [] => engineTurn s
  | m :: rest => perform m { s with agenda := rest }

/-- The next move while `rst_n` is low: only the pin moves. The host has no step on the block: its transactions wait, with no
response (70_reset R190, 93 U10), and so does the engine (log 10). Where the pin never moves again, the block is stuck. -/
def heldMove (s : State) : Host.Outcome State Fault Refusal :=
  match takePin s.agenda with
  | some (m, rest) => perform m { s with agenda := rest }
  | none => .next s

/-- The next move. -/
def nextMove (s : State) : Host.Outcome State Fault Refusal := if s.rstN then activeMove s else heldMove s

/-- The offset of `CMD` (10_state R31). -/
def cmdOffset : Offset := 0x10#23

/-- `s` made ready to issue the word `w` in its next step: the host's write of `w` to `CMD` is its next move, `rst_n` is
high, no command is in flight, and no error is pending (60_exceptions R163; log 2). -/
def withCommand (s : State) (w : Word) : State :=
  { s with
    rstN := true
    status := { s.status with busy := false, err := false }
    errCode := .none
    errCmd := 0#32
    agenda := .write .word cmdOffset w :: s.agenda }

end Sys2Proof.Machine
end

