-- ==== Sys2Proof/Machine/Step.lean ====
section
/-! DEFINITION. The step of the machine, and the state whose next step issues a given command word. -/

namespace Sys2Proof.Machine

/-- One step: the next move of one of the two agents (00_scope R13; Machine/Engine.lean). -/
def step (s : State) : Host.Outcome State Fault Refusal := nextMove s

/-- `s` with the table word `w` of `nbits` bits as the command its next step issues (log 2). -/
def State.withFetchWord (s : State) (nbits w : Nat) : State := withCommand s (BitVec.ofNat 32 (w % 2 ^ nbits))

end Sys2Proof.Machine
end

