-- ==== Sys2Proof/Machine/Script.lean ====
section
/-! DEFINITION. The block's notion of a program: command syntax (30_encoding R77) and host scripts (30_encoding R78), turned
into the moves of the two agents. -/

namespace Sys2Proof.Machine

/-! ### Command syntax (30_encoding R77) -/

/-- The operand of a command as the syntax writes it. -/
def operandOf : Instr → Option Nat
  | .stage s => some s
  | .db keep => some (bit keep)
  | .aclr m => some m.toNat
  | .nop | .pad | .bitrev | .bfly | .fft | .wgen | .wapply | .mag | .maxu | .dbn | .logc | .faxis => none

/-- A command as text: the mnemonic in capitals, followed by the operand in decimal (30_encoding R77). -/
def commandText (i : Instr) : String :=
  match operandOf i with
  | none => i.mnemonic
  | some n => i.mnemonic ++ " " ++ toString n

/-- The commands without an operand. -/
def plainCommands : List Instr :=
  [.nop, .pad, .bitrev, .bfly, .fft, .wgen, .wapply, .mag, .maxu, .dbn, .logc, .faxis]

/-- Read a mnemonic and its operand; `DB` alone is `DB 0`, `ACLR` alone is `ACLR 3` (30_encoding R77). -/
def parseCommand (mnemonic : String) (operand : Option Nat) : Option Instr :=
  match mnemonic, operand with
  | "STAGE", some s => if s < 32 then some (.stage s) else none
  | "DB", none => some (.db false)
  | "DB", some k => if k < 2 then some (.db (k == 1)) else none
  | "ACLR", none => some (.aclr 3#2)
  | "ACLR", some m => if m < 4 then some (.aclr (BitVec.ofNat 2 m)) else none
  | name, none => plainCommands.find? (fun i => i.mnemonic == name)
  | _, some _ => none

/-! ### Host scripts (30_encoding R78) -/

/-- One line of a host script. -/
inductive HostStep where
  /-- `WR reg, value`. -/
  | wr (r : Reg) (v : Word)
  /-- `WRF buf[i], float`. -/
  | wrf (b : Buf) (i : Nat) (v : Word)
  /-- `RD reg`. -/
  | rd (r : Reg)
  /-- `RDF buf[i]`. -/
  | rdf (b : Buf) (i : Nat)
  /-- `<mnemonic> [operand]`. -/
  | command (i : Instr)
  /-- `WAIT`, the poll loop on `BUSY`: `polls` reads of `STATUS` before the engine's `Complete`, and the one after it that
  ends the loop. -/
  | wait (polls : Nat)
  deriving DecidableEq, Repr

/-- The offset of a register as a transaction carries it. -/
def regOffset (r : Reg) : Offset := BitVec.ofNat 23 r.offset

/-- The offset of a buffer word as a transaction carries it. -/
def wordOffset (b : Buf) (i : Nat) : Offset := BitVec.ofNat 23 (b.addr i)

/-- The moves of one line (30_encoding R78). Only `WAIT` places a `Complete`; that none falls at another line is the model's
choice (log 24, DESIGN CHOICE). -/
def movesOf : HostStep → List Move
  | .wr r v => [.write .word (regOffset r) v]
  | .wrf b i v => [.write .word (wordOffset b i) v]
  | .rd r => [.read .word (regOffset r)]
  | .rdf b i => [.read .word (wordOffset b i)]
  | .command i => [.write .word cmdOffset (encode i)]
  | .wait polls =>
    List.replicate polls (.read .word (regOffset .status)) ++ [.complete, .read .word (regOffset .status)]

/-- The moves of a script. -/
def scriptMoves (script : List HostStep) : List Move := script.flatMap movesOf

/-- The host is to run a script after what it has to do already. A `Complete` that no `WAIT` places falls after the last
line (log 24, DESIGN CHOICE). -/
def giveScript (script : List HostStep) (s : State) : State := { s with agenda := s.agenda ++ scriptMoves script }

/-- `RUN c` = `c` then `WAIT`. -/
def runScript (i : Instr) : List HostStep := [.command i, .wait 0]

/-- `CLRERR` = `WR STATUS, 0x00000004`. -/
def clrErrScript : List HostStep := [.wr .status 0x00000004#32]

/-- `CLRALL` = `WR STATUS, 0x0000001E`. -/
def clrAllScript : List HostStep := [.wr .status 0x0000001E#32]

/-- The writes of `LOAD` from index `i` on. -/
def loadFrom (b : Buf) : (i : Nat) → List Word → List HostStep
  | _, [] => []
  | i, v :: vs => .wrf b i v :: loadFrom b (i + 1) vs

/-- `LOAD buf, [v0, v1, ...]`. -/
def loadScript (b : Buf) (vs : List Word) : List HostStep := loadFrom b 0 vs

/-- `TRANSFORM n` = `WR LEN, n` then `RUN FFT`. -/
def transformScript (n : Word) : List HostStep := .wr .len n :: runScript .fft

/-- `SPECTRUM n` = `WR LEN, n`, `RUN WGEN`, `RUN WAPPLY`, `RUN FFT`, `RUN MAG`. -/
def spectrumScript (n : Word) : List HostStep :=
  .wr .len n :: (runScript .wgen ++ runScript .wapply ++ runScript .fft ++ runScript .mag)

end Sys2Proof.Machine
end

