-- ==== Sys2Proof/Safety.lean ====
section
/-! DEFINITION. The words claims use: the launch premises and the end of a run (70_reset R195, R197), the invariants of
10_state R43, what a whole run of one command is, and what the buffers may hold after a command, in the terms of the rules. -/

namespace Sys2Proof.Machine

/-! ### Launch premises (70_reset R197) and the end of a run (R195) -/

/-- `Idle`: `STATUS.BUSY = 0`. -/
abbrev Idle (s : State) : Prop := s.status.busy = false

/-- A command written to `CMD` will be checked: `Idle` and `STATUS.ERR = 0`. -/
abbrev Ready (s : State) : Prop := s.status.busy = false ∧ s.status.err = false

/-- `Clean`: idle, no error recorded, `DEGEN` and `BUSYERR` clear; `DONE` may be either. -/
abbrev Clean (s : State) : Prop :=
  Idle s ∧ s.status.err = false ∧ s.errCode = .none ∧ s.errCmd = 0#32 ∧ s.status.degen = false ∧
    s.status.busyErr = false

/-- `AfterReset`: every register as in 10_state R44, every buffer word unwritten. -/
abbrev AfterReset (s : State) : Prop :=
  s = { State.reset with rstN := s.rstN, agenda := s.agenda, resp := s.resp, draws := s.draws }

/-- The words `0 .. n-1` of a buffer have been written. -/
abbrev Written (b : Buf) (n : Nat) (s : State) : Prop := ∀ i, i < n → (b.peek s.mem i).isSome = true

/-- `HasInput(n, x)`. -/
abbrev HasInput (n : Nat) (x : Nat → Word) (s : State) : Prop :=
  s.len.toNat = n ∧ 1 ≤ n ∧ n ≤ Config.nMax ∧ ∀ i, i < n → Buf.re.peek s.mem i = some (x i)

/-- `HasWindow(n)`. -/
abbrev HasWindow (n : Nat) (s : State) : Prop := s.wlen.toNat = n ∧ Written .win n s

/-- `HasTransform(N)`. -/
abbrev HasTransform (n : Nat) (s : State) : Prop :=
  s.nfft.toNat = n ∧ n ≠ 0 ∧ n = 2 ^ s.log2n.toNat ∧ Written .re n s ∧ Written .im n s

/-- `HasMagnitudes`. -/
abbrev HasMagnitudes (n : Nat) (s : State) : Prop := HasTransform n s ∧ Written .mag (halfBins n) s

/-- The end of a run (70_reset R195): every host step has been taken, the last transaction has returned its bus response,
and `BUSY = 0`. While `rst_n` is low no transaction is taken, so a run that still owes one has not ended (log 24). -/
abbrev RunEnded (s : State) : Prop := s.agenda = [] ∧ s.resp ≠ .none ∧ Idle s

/-- The run of a script from `s`, whose agenda is empty, ends in `t`: the first state that is an end (70_reset R195). This is
the one run in which `Complete` falls where a `WAIT` of the script places it, and else after the last line. The spec lets it
fall between any two host steps (00_scope R13, 93 U8); that `RunOf` admits no other order is the model's choice (log 24,
DESIGN CHOICE). Any other order is an agenda with the move `complete` at its place (log 1). -/
def RunOf (script : List HostStep) (s t : State) : Prop :=
  ∃ k, Sys2Proof.core.run k (giveScript script s) = .next t ∧ RunEnded t ∧
    ∀ j u, j < k → Sys2Proof.core.run j (giveScript script s) = .next u → ¬RunEnded u

/-- What is observed at the end of a run (70_reset R195). -/
structure Observation where
  /-- What the fifteen registers read, in the order of their offsets. -/
  registers : List Word
  /-- The bytes of the buffer words that the host or a command has written. -/
  written : List Host.Cell
  deriving DecidableEq, Repr

/-- The observation of a state: every register and every written buffer word; not the moves to come, the response, the count
of draws or the pin (log 24). -/
def observe (s : State) : Observation := { registers := Reg.all.map fun r => readReg r s, written := s.mem }

/-! ### Invariants (10_state R43) -/

/-- R43 (a): `BUSY = 1` implies `ERR = 0` and `DONE = 0`. -/
abbrev FlagsOk (s : State) : Prop := s.status.busy = true → s.status.err = false ∧ s.status.done = false

/-- R43 (b): `ERR = 1` iff `ERRCODE ≠ 0`; and `ERRCMD` is 0 while no error is recorded (10_state R40). -/
abbrev ErrorOk (s : State) : Prop :=
  (s.status.err = true ↔ s.errCode ≠ .none) ∧ (s.status.err = false → s.errCmd = 0#32)

/-- R43 (c): `NFFT = 0` and `LOG2N = 0`, or `NFFT = 2^LOG2N` and `LOG2N ≤ LOG2_NMAX`. -/
abbrev LengthOk (s : State) : Prop :=
  (s.nfft = 0#32 ∧ s.log2n = 0#5) ∨ (s.nfft.toNat = 2 ^ s.log2n.toNat ∧ s.log2n.toNat ≤ Config.log2NMax)

/-- R43 (d): `CUR` is a legal encoding of a command. -/
def CurOk (s : State) : Prop := ∃ i, decode s.cur = .ok i

/-- The issue checks of the command in flight still hold (60_exceptions R170). -/
def InFlightOk (s : State) : Prop := s.status.busy = true → ∀ i, decode s.cur = .ok i → issueCheck i s = none

/-- The offset lies in a buffer (20_memory R52). -/
def InBuffer (a : Nat) : Prop := ∃ b : Buf, b.base ≤ a ∧ a < b.base + 4 * b.words

/-- The buffers' storage: canonical form; only bytes of buffers are listed; a word is listed whole or not at all. -/
def MemOk (m : Mem) : Prop :=
  Mem.wf m = true ∧ ∀ a, (Mem.get m a).isSome = true →
    InBuffer a ∧ ∀ c, c / 4 = a / 4 → (Mem.get m c).isSome = true

/-- The invariants that hold in every reachable state. -/
def Invariants (s : State) : Prop :=
  FlagsOk s ∧ ErrorOk s ∧ LengthOk s ∧ CurOk s ∧ InFlightOk s ∧ MemOk s.mem

/-! ### Correct rounding (00_scope R8 (a)) -/

/-- `m` (bits 30:0) is the magnitude that `n / d` units of 2^-149 round to: infinity exactly from half a last place above the
largest finite value; else nearest of all finite magnitudes, and even where another is as near. -/
def Nearest (n d m : Nat) : Prop :=
  (m = Num.infBits ↔ d * (2 ^ 25 - 1) * 2 ^ 253 ≤ 2 * n) ∧ m ≤ Num.infBits ∧
    (m < Num.infBits → ∀ x, x < Num.infBits →
      let err (y : Nat) : Nat := ((n : Int) - d * Num.unitsOf y).natAbs
      err m ≤ err x ∧ (err x = err m → x ≠ m → m % 2 = 0))

/-- `m` is the finite magnitude that the square root of `n` square units rounds to: for every other magnitude the root lies on
`m`'s side of the midpoint, and where it is the midpoint `m` is even. -/
def NearestRoot (n m : Nat) : Prop :=
  m < Num.infBits ∧ ∀ x, x < Num.infBits →
    let twiceMid := Num.unitsOf x + Num.unitsOf m
    (x < m → twiceMid ^ 2 ≤ 4 * n) ∧ (m < x → 4 * n ≤ twiceMid ^ 2) ∧ (x ≠ m → 4 * n = twiceMid ^ 2 → m % 2 = 0)

/-! ### Runs of one command -/

/-- What issue and `Complete` of a command leave behind besides its effect: `CUR`, `BUSY = 0`, `DONE = 1`, one more in
`CMDCNT` (60_exceptions R169, R170), and the model's count of draws. -/
def completed (i : Instr) (s : State) : State :=
  { s with
    cur := encode i
    status := { s.status with busy := false, done := true }
    cmdCnt := s.cmdCnt + 1#32
    draws := s.draws + 1 }

/-- The run of the command `i` from `s` to `t` with nothing in between: the issue accepts it (60_exceptions R169), and
`Complete` leads to `t` (R170). -/
def Runs (i : Instr) (s t : State) : Prop :=
  exec i s = .next (accept (encode i) s) ∧ exec i (accept (encode i) s) = .next t

/-- The command `i` issued in `s` is rejected with the code `c` (60_exceptions R165): exactly `ERR`, `ERRCODE` and `ERRCMD`
are written. -/
def Rejects (i : Instr) (c : ErrCode) (s : State) : Prop :=
  exec i s = .next { s with status := { s.status with err := true }, errCode := c, errCmd := encode i }

/-- In one step, the move `m`, next on the agenda, leads from `s` to `t`. -/
def Takes (m : Move) (s t : State) : Prop := step { s with agenda := m :: s.agenda } = .next t

/-! ### What the buffers may hold

A read of a word that was never written sees any word (10_state R23), and a NaN result may be any NaN (93 U6); so the
relations below let such a value be any. -/

/-- `x` is what one read of `B[i]` in `m` may see. -/
def Sees (b : Buf) (m : Mem) (i : Nat) (x : Word) : Prop := ∀ w, b.peek m i = some w → x = w

/-- The byte offset `a` belongs to none of the words `lo .. hi-1` of a buffer. -/
def Outside (b : Buf) (lo hi a : Nat) : Prop := ∀ i, lo ≤ i → i < hi → a < b.addr i ∨ b.addr i + 4 ≤ a

/-- From `m` to `m'` only the words `0 .. n-1` of the buffer `b` may have changed. -/
def OnlyWords (b : Buf) (n : Nat) (m m' : Mem) : Prop := ∀ a, Outside b 0 n a → Mem.get m' a = Mem.get m a

/-- What PAD leaves in the buffers, n samples padded to `len` (41_fft R111). -/
def PadRel (n len : Nat) (m m' : Mem) : Prop :=
  (∀ i, n ≤ i → i < len → Buf.re.peek m' i = some Num.zero) ∧
  (∀ i, i < len → Buf.im.peek m' i = some Num.zero) ∧
  (∀ a, Outside .re n len a → Outside .im 0 len a → Mem.get m' a = Mem.get m a)

/-- What BITREV leaves in one buffer: the new word `i` is the old word `rev(L, i)` where it was written (41_fft R112). -/
def BitrevRel (b : Buf) (bits : Nat) (m m' : Mem) : Prop :=
  ∀ i, i < 2 ^ bits → ∀ w, b.peek m (rev bits i) = some w → b.peek m' i = some w

/-- One butterfly of 41_fft R114 on the elements `a` and `b`, from the words of `m` to those of `m'`, with the twiddle `w`. -/
def ButterflyRel (w : Word × Word) (a b : Nat) (m m' : Mem) : Prop :=
  ∃ (e : Nat → Draw) (ur ui br bi br' bi' : Word),
    Sees .re m a ur ∧ Sees .im m a ui ∧ Sees .re m b br ∧ Sees .im m b bi ∧ Sees .re m b br' ∧ Sees .im m b bi' ∧
    let vr := Num.fsub (e 0) (Num.fmul (e 1) br w.1) (Num.fmul (e 2) bi w.2)
    let vi := Num.fadd (e 3) (Num.fmul (e 4) br' w.2) (Num.fmul (e 5) bi' w.1)
    Buf.re.peek m' a = some (Num.fadd (e 6) ur vr) ∧ Buf.im.peek m' a = some (Num.fadd (e 7) ui vi) ∧
    Buf.re.peek m' b = some (Num.fsub (e 8) ur vr) ∧ Buf.im.peek m' b = some (Num.fsub (e 9) ui vi)

/-- From `m` to `m'` only the words `0 .. n-1` of `RE` and of `IM` may have changed. -/
def OnlyComplex (n : Nat) (m m' : Mem) : Prop :=
  ∀ a, Outside .re 0 n a → Outside .im 0 n a → Mem.get m' a = Mem.get m a

/-- What STAGE s leaves in the buffers, over `len` elements: every butterfly of every block, and nothing else changed
(41_fft R113, R114). -/
def StageRel (s len : Nat) (m m' : Mem) : Prop :=
  (∀ k j, k * 2 ^ s < len → j < 2 ^ s / 2 →
    ∃ d, ButterflyRel (twiddle d s j) (k * 2 ^ s + j) (k * 2 ^ s + j + 2 ^ s / 2) m m') ∧
  OnlyComplex len m m'

/-- A chain of the stages 1 .. `bits`, in order (41_fft R115). -/
def StagesRel (bits len : Nat) (m m' : Mem) : Prop :=
  ∃ c : Nat → Mem, c 0 = m ∧ c bits = m' ∧ ∀ k, k < bits → StageRel (k + 1) len (c k) (c (k + 1))

end Sys2Proof.Machine
end

