-- ==== Sys2Proof/Certificates/Slice0/Obligations.lean ====
section
/-! DEFINITION. The statements about the model, from the numbered rules of spec/. Where a rule leaves a value open (a word
never written, a NaN's bits, a busy read), the statement says that some value stands there. -/

open Sys2Proof Sys2Proof.Machine

/-! ### Encoding -/

/-- 30_encoding R79: `decode(encode(c)) = c` for every command c. -/
def Obligations.DecodeOfEncode : Prop := ∀ i : Instr, i.wellFormed = true → decode (encode i) = .ok i

/-- 30_encoding R79: `encode(decode(w)) = w` for every legal word w. -/
def Obligations.EncodeOfDecode : Prop := ∀ w i, decode w = .ok i → i.wellFormed = true ∧ encode i = w

/-- 30_encoding R73: a word w encodes a command iff `(w AND mask) = match` for the command's row. -/
def Obligations.DecodeAgreesWithOpcodeMap : Prop :=
  ∀ (w : Word) (i : Instr),
    (w &&& encodingMask i = encodingMatch i ↔ ∃ j, decode w = .ok j ∧ j.mnemonic = i.mnemonic)

/-- 30_encoding R74: a word is illegal exactly when its opcode is reserved, or a bit its format shows as zero is one, or
`rsv` is not zero. -/
def Obligations.IllegalWordsAreTheReservedOnes : Prop :=
  ∀ w : Word, (∃ e, decode w = .error e) ↔
    (w.extractLsb' 16 16 ≠ 0#16 ∨
      (let op := (w.extractLsb' 0 8).toNat
       op = 0x06 ∨ op = 0x07 ∨ (0x0A ≤ op ∧ op ≤ 0x0F) ∨ op = 0x16 ∨ op = 0x17 ∨ 0x19 ≤ op ∨
        (if op = 0x03 then w.extractLsb' 13 3 ≠ 0#3
         else if op = 0x12 then w.extractLsb' 9 7 ≠ 0#7
         else if op = 0x18 then w.extractLsb' 10 6 ≠ 0#6
         else w.extractLsb' 8 8 ≠ 0#8)))

/-- Words written out from the encodings of 30_encoding R73 and R77 decode to their commands (95_test_vectors V72). -/
def Obligations.SampleWordsDecode : Prop :=
  decode 0x00000000#32 = .ok .nop ∧ decode 0x00000005#32 = .ok .fft ∧ decode 0x00000303#32 = .ok (.stage 3) ∧
  decode 0x00001F03#32 = .ok (.stage 31) ∧ decode 0x00000008#32 = .ok .wgen ∧ decode 0x00000010#32 = .ok .mag ∧
  decode 0x00000112#32 = .ok (.db true) ∧ decode 0x00000318#32 = .ok (.aclr 3#2) ∧
  decode 0x00002003#32 = .error .argumentBits ∧ decode 0x00010005#32 = .error .reservedBits ∧
  decode 0x00000019#32 = .error .reservedOpcode

/-! ### Steps, issue, completion -/

/-- A step runs the decoded command. The host's write of `w` to `CMD` (30_encoding R70), with no command in flight, is the
issue of the command `w` decodes to: `exec` of it, after the move is off the agenda and the bus has answered `ok`. The
engine's turn, with a command in flight, is `exec` of the command in `CUR` (60_exceptions R170): at the move `complete`, and
at the end of the agenda. That the moves to come stand in an agenda is the model's choice (log 1, DESIGN CHOICE). -/
def Obligations.StepRunsDecodedCommand : Prop :=
  (∀ (s : State) (w : Word) (i : Instr), s.rstN = true → s.status.busy = false → decode w = .ok i →
    step { s with agenda := .write .word 0x10#23 w :: s.agenda } = exec i { s with resp := .ok }) ∧
  (∀ (s : State) (i : Instr), s.rstN = true → s.status.busy = true → decode s.cur = .ok i →
    step { s with agenda := .complete :: s.agenda } = exec i s ∧ (s.agenda = [] → step s = exec i s))

/-- 60_exceptions R163: the five cases of a write of `w` to `CMD`, in their order: ignored with `BUSYERR` (R168), discarded
(R167), rejected with code 3 (R164, R165), rejected with the code of the first failing check (R165), accepted (R169). -/
def Obligations.IssueOutcomes : Prop :=
  ∀ (s : State) (w : Word), s.rstN = true →
    let m : Move := .write .word 0x10#23 w
    (s.status.busy = true →
      Takes m s { s with resp := .ok, status := { s.status with busyErr := true } }) ∧
    (s.status.busy = false → s.status.err = true → Takes m s { s with resp := .ok }) ∧
    (Ready s → (∃ e, decode w = .error e) →
      Takes m s { s with
        resp := .ok, status := { s.status with err := true }, errCode := .illegalCommand, errCmd := w }) ∧
    (∀ i, Ready s → decode w = .ok i →
      (∀ c, issueCheck i s = some c →
        Takes m s { s with resp := .ok, status := { s.status with err := true }, errCode := c, errCmd := w }) ∧
      (issueCheck i s = none →
        Takes m s { s with resp := .ok, status := { s.status with busy := true, done := false }, cur := w }))

/-- 60_exceptions R166 with 10_state R30: a write of `v` to `STATUS`, at any time, clears each W1C bit that is 1 in `v` and
leaves the rest; where it clears `ERR`, `ERRCODE` and `ERRCMD` become 0, and otherwise they keep their values. -/
def Obligations.StatusWriteClearsAndReturns : Prop :=
  ∀ (s : State) (v : Word), s.rstN = true →
    let clears := s.status.err && v.getLsbD 2
    Takes (.write .word 0x0C#23 v) s { s with
      resp := .ok
      status := {
        busy := s.status.busy
        done := s.status.done && !v.getLsbD 1
        err := s.status.err && !v.getLsbD 2
        degen := s.status.degen && !v.getLsbD 3
        busyErr := s.status.busyErr && !v.getLsbD 4 }
      errCode := if clears then .none else s.errCode
      errCmd := if clears then 0#32 else s.errCmd }

/-- 60_exceptions R173, 70_reset R190: `irq` is high iff `rst_n` is high and an enabled one of `DONE` and `ERR` is 1. -/
def Obligations.IrqLine : Prop :=
  ∀ s : State, irq s = true ↔
    s.rstN = true ∧ ((s.ctrl.ieDone = true ∧ s.status.done = true) ∨ (s.ctrl.ieErr = true ∧ s.status.err = true))

/-! ### The commands: checks, completion, result and frame -/

/-- 43_system R150: `NOP` completes; nothing but `DONE`, `CMDCNT` and `CUR` changes. -/
def Obligations.NopRule : Prop :=
  encode .nop = 0x00000000#32 ∧ ∀ s : State, Ready s → Runs .nop s (completed .nop s)

/-- 43_system R151: `ACLR m` clears `GMAX` to +0.0 when `m[0] = 1` and `DBMAX` to -Inf when `m[1] = 1`, and nothing else. -/
def Obligations.AclrRule : Prop :=
  ∀ (m : BitVec 2) (s : State), encode (.aclr m) = 0x00000018#32 + (m.setWidth 32 <<< 8) ∧
    (Ready s → Runs (.aclr m) s { completed (.aclr m) s with
      gmax := if m.getLsbD 0 then 0x00000000#32 else s.gmax
      dbmax := if m.getLsbD 1 then 0xFF800000#32 else s.dbmax })

/-- 41_fft R111: `PAD`. -/
def Obligations.PadRule : Prop :=
  encode .pad = 0x00000001#32 ∧ ∀ s : State, Ready s →
    (s.len = 0#32 → Rejects .pad .inputTooShort s) ∧
    (Config.nMax < s.len.toNat → Rejects .pad .invalidParameter s) ∧
    (1 ≤ s.len.toNat → s.len.toNat ≤ Config.nMax →
      ∃ t, Runs .pad s t ∧ t = { completed .pad s with mem := t.mem, nfft := t.nfft, log2n := t.log2n } ∧
        t.log2n.toNat = clog2 s.len.toNat ∧ t.nfft.toNat = 2 ^ clog2 s.len.toNat ∧
        PadRel s.len.toNat (2 ^ clog2 s.len.toNat) s.mem t.mem)

/-- 41_fft R112: `BITREV`, in every state whose transform length is one (10_state R43 (c)). -/
def Obligations.BitrevRule : Prop :=
  encode .bitrev = 0x00000002#32 ∧ ∀ s : State, Ready s →
    (s.nfft = 0#32 → Rejects .bitrev .inputTooShort s) ∧
    (s.nfft ≠ 0#32 → LengthOk s →
      ∃ t, Runs .bitrev s t ∧ t = { completed .bitrev s with mem := t.mem } ∧
        BitrevRel .re s.log2n.toNat s.mem t.mem ∧ BitrevRel .im s.log2n.toNat s.mem t.mem ∧
        OnlyComplex s.nfft.toNat s.mem t.mem)

/-- 41_fft R112, derived there: `BITREV` issued twice restores every word that was written. -/
def Obligations.BitrevTwiceRestores : Prop :=
  ∀ s t u : State, Ready s → s.nfft ≠ 0#32 → LengthOk s → Runs .bitrev s t → Runs .bitrev t u →
    ∀ i w, i < s.nfft.toNat →
      (Buf.re.peek s.mem i = some w → Buf.re.peek u.mem i = some w) ∧
      (Buf.im.peek s.mem i = some w → Buf.im.peek u.mem i = some w)

/-- 41_fft R113: the twiddle sequence starts at (1.0, +0.0) and follows the recurrence with the stage root, whose words are
those of the table of 00_scope R10; the values the rule lists for s = 1, 2, 3. -/
def Obligations.TwiddleSequence : Prop :=
  (∀ d s, twiddle d s 0 = (0x3F800000#32, 0x00000000#32)) ∧
  (let roots : List (Word × Word) :=
      [(0xBF800000#32, 0x00000000#32), (0x00000000#32, 0xBF800000#32), (0x3F3504F3#32, 0xBF3504F3#32),
        (0x3F6C835E#32, 0xBEC3EF15#32), (0x3F7B14BE#32, 0xBE47C5C2#32), (0x3F7EC46D#32, 0xBDC8BD36#32),
        (0x3F7FB10F#32, 0xBD48FB30#32), (0x3F7FEC43#32, 0xBCC90AB0#32), (0x3F7FFB11#32, 0xBC490E90#32),
        (0x3F7FFEC4#32, 0xBBC90F88#32), (0x3F7FFFB1#32, 0xBB490FC6#32), (0x3F7FFFEC#32, 0xBAC90FD5#32)] ++
      [(0x3F7FFFFB#32, 0xBA490FD9#32), (0x3F7FFFFF#32, 0xB9C90FDA#32), (0x3F800000#32, 0xB9490FDB#32),
        (0x3F800000#32, 0xB8C90FDB#32), (0x3F800000#32, 0xB8490FDB#32), (0x3F800000#32, 0xB7C90FDB#32),
        (0x3F800000#32, 0xB7490FDB#32), (0x3F800000#32, 0xB6C90FDB#32), (0x3F800000#32, 0xB6490FDB#32),
        (0x3F800000#32, 0xB5C90FDB#32), (0x3F800000#32, 0xB5490FDB#32), (0x3F800000#32, 0xB4C90FDB#32)]
   ∀ d s r, roots[s]? = some r → ∀ j, ∃ e : Nat → Draw,
    let w := twiddle d (s + 1) j
    twiddle d (s + 1) (j + 1) =
      (Num.fsub (e 0) (Num.fmul (e 1) w.1 r.1) (Num.fmul (e 2) w.2 r.2),
       Num.fadd (e 3) (Num.fmul (e 4) w.1 r.2) (Num.fmul (e 5) w.2 r.1))) ∧
  (∀ d, twiddle d 2 1 = (0x00000000#32, 0xBF800000#32) ∧ twiddle d 3 1 = (0x3F3504F3#32, 0xBF3504F3#32) ∧
    twiddle d 3 2 = (0x00000000#32, 0xBF7FFFFF#32) ∧ twiddle d 3 3 = (0xBF3504F2#32, 0xBF3504F2#32))

/-- 41_fft R114: `STAGE s`. -/
def Obligations.StageRule : Prop :=
  ∀ n : Nat, (n < 32 → encode (.stage n) = 0x00000003#32 + (BitVec.ofNat 32 n <<< 8)) ∧ ∀ s : State, Ready s →
    (s.nfft = 0#32 → Rejects (.stage n) .inputTooShort s) ∧
    (s.nfft ≠ 0#32 → n = 0 ∨ s.log2n.toNat < n → Rejects (.stage n) .invalidParameter s) ∧
    (s.nfft ≠ 0#32 → LengthOk s → 1 ≤ n → n ≤ s.log2n.toNat →
      ∃ t, Runs (.stage n) s t ∧ t = { completed (.stage n) s with mem := t.mem } ∧
        StageRel n s.nfft.toNat s.mem t.mem)

/-- 41_fft R115: `BFLY` is the stages 1 .. LOG2N in order, as one command. -/
def Obligations.BflyRule : Prop :=
  encode .bfly = 0x00000004#32 ∧ ∀ s : State, Ready s →
    (s.nfft = 0#32 → Rejects .bfly .inputTooShort s) ∧
    (s.nfft ≠ 0#32 → LengthOk s →
      ∃ t, Runs .bfly s t ∧ t = { completed .bfly s with mem := t.mem } ∧
        StagesRel s.log2n.toNat s.nfft.toNat s.mem t.mem)

/-- 41_fft R116: `FFT` is PAD, then BITREV, then BFLY, with the N and L that PAD writes, as one command. -/
def Obligations.FftRule : Prop :=
  encode .fft = 0x00000005#32 ∧ ∀ s : State, Ready s →
    (s.len = 0#32 → Rejects .fft .inputTooShort s) ∧
    (Config.nMax < s.len.toNat → Rejects .fft .invalidParameter s) ∧
    (1 ≤ s.len.toNat → s.len.toNat ≤ Config.nMax →
      ∃ t m1 m2, Runs .fft s t ∧ t = { completed .fft s with mem := t.mem, nfft := t.nfft, log2n := t.log2n } ∧
        t.log2n.toNat = clog2 s.len.toNat ∧ t.nfft.toNat = 2 ^ clog2 s.len.toNat ∧
        PadRel s.len.toNat t.nfft.toNat s.mem m1 ∧
        BitrevRel .re t.log2n.toNat m1 m2 ∧ BitrevRel .im t.log2n.toNat m1 m2 ∧ OnlyComplex t.nfft.toNat m1 m2 ∧
        StagesRel t.log2n.toNat t.nfft.toNat m2 t.mem)

/-- 40_window R101: `WGEN` writes `hann(n)`, 1.0 for n = 1, and `WLEN`. -/
def Obligations.WgenRule : Prop :=
  encode .wgen = 0x00000008#32 ∧ ∀ s : State, Ready s →
    (s.len = 0#32 → Rejects .wgen .inputTooShort s) ∧
    (Config.nMax < s.len.toNat → Rejects .wgen .invalidParameter s) ∧
    (1 ≤ s.len.toNat → s.len.toNat ≤ Config.nMax →
      ∃ t, Runs .wgen s t ∧ t = { completed .wgen s with mem := t.mem, wlen := s.len } ∧
        (s.len.toNat = 1 → Buf.win.peek t.mem 0 = some 0x3F800000#32) ∧
        (∀ i, 2 ≤ s.len.toNat → i < s.len.toNat → ∃ e : Nat → Draw,
          let x := Num.fdiv (e 0) (Num.fmul (e 1) 0x40C90FDB#32 (Num.ofInt i)) (Num.ofInt (s.len.toNat - 1))
          Buf.win.peek t.mem i =
            some (Num.fmul (e 2) 0x3F000000#32 (Num.fsub (e 3) 0x3F800000#32 (Num.fcos (e 4) x)))) ∧
        OnlyWords .win s.len.toNat s.mem t.mem)

/-- 40_window R101, corner case: the window starts at +0.0 for every n ≥ 2. -/
def Obligations.WindowStartsAtZero : Prop :=
  ∀ s t : State, Ready s → 2 ≤ s.len.toNat → s.len.toNat ≤ Config.nMax → Runs .wgen s t →
    Buf.win.peek t.mem 0 = some 0x00000000#32

/-- 40_window R102: `WAPPLY` multiplies the working copy by the window. -/
def Obligations.WapplyRule : Prop :=
  encode .wapply = 0x00000009#32 ∧ ∀ s : State, Ready s →
    (s.len = 0#32 → Rejects .wapply .inputTooShort s) ∧
    (Config.nMax < s.len.toNat → Rejects .wapply .invalidParameter s) ∧
    (1 ≤ s.len.toNat → s.len.toNat ≤ Config.nMax → s.wlen ≠ s.len → Rejects .wapply .invalidParameter s) ∧
    (1 ≤ s.len.toNat → s.len.toNat ≤ Config.nMax → s.wlen = s.len →
      ∃ t, Runs .wapply s t ∧ t = { completed .wapply s with mem := t.mem } ∧
        (∀ i, i < s.len.toNat → ∃ e x y, Sees .re s.mem i x ∧ Sees .win s.mem i y ∧
          Buf.re.peek t.mem i = some (Num.fmul e x y)) ∧
        OnlyWords .re s.len.toNat s.mem t.mem)

/-- 42_magnitude_log R131: `MAG`. -/
def Obligations.MagRule : Prop :=
  encode .mag = 0x00000010#32 ∧ ∀ s : State, Ready s →
    (s.nfft = 0#32 → Rejects .mag .inputTooShort s) ∧
    (s.nfft ≠ 0#32 → LengthOk s →
      ∃ t, Runs .mag s t ∧ t = { completed .mag s with mem := t.mem } ∧
        (∀ k, k < halfBins s.nfft.toNat → ∃ (e : Nat → Draw) (x x' y y' : Word),
          Sees .re s.mem k x ∧ Sees .re s.mem k x' ∧ Sees .im s.mem k y ∧ Sees .im s.mem k y' ∧
          Buf.mag.peek t.mem k =
            some (Num.fsqrt (e 0) (Num.fadd (e 1) (Num.fmul (e 2) x x') (Num.fmul (e 3) y y')))) ∧
        OnlyWords .mag (halfBins s.nfft.toNat) s.mem t.mem)

/-- 42_magnitude_log R132: `MAXU` folds the magnitudes into `GMAX`, in ascending bin order. The word taken is the word
compared (log 23). -/
def Obligations.MaxuRule : Prop :=
  encode .maxu = 0x00000011#32 ∧ ∀ s : State, Ready s →
    (s.nfft = 0#32 → Rejects .maxu .inputTooShort s) ∧
    (s.nfft ≠ 0#32 →
      ∃ t, Runs .maxu s t ∧ t = { completed .maxu s with gmax := t.gmax } ∧
        ∃ g : Nat → Word, g 0 = s.gmax ∧ t.gmax = g (halfBins s.nfft.toNat) ∧
          ∀ k, k < halfBins s.nfft.toNat → ∃ x, Sees .mag s.mem k x ∧
            g (k + 1) = if Num.fgt x (g k) then x else g k)

/-- 42_magnitude_log R132, consequence: where the magnitudes are written and no NaN is among them and `GMAX`, `MAXU` leaves
in `GMAX` a value no magnitude and not the old `GMAX` exceeds, and it is one of them. -/
def Obligations.MaxuTakesTheMaximum : Prop :=
  ∀ (s t : State) (x : Nat → Word), Ready s → s.nfft ≠ 0#32 →
    (∀ k, k < halfBins s.nfft.toNat → Buf.mag.peek s.mem k = some (x k) ∧ Num.isNaN (x k) = false) →
    Num.isNaN s.gmax = false → Runs .maxu s t →
    (∀ k, k < halfBins s.nfft.toNat → Num.fgt (x k) t.gmax = false) ∧ Num.fgt s.gmax t.gmax = false ∧
      (t.gmax = s.gmax ∨ ∃ k, k < halfBins s.nfft.toNat ∧ t.gmax = x k)

/-- 42_magnitude_log R133: `DB K` writes the decibels to `OUT` and the running maximum, restarted from -Inf for K = 0. -/
def Obligations.DbRule : Prop :=
  ∀ keep : Bool, encode (.db keep) = (if keep then 0x00000112#32 else 0x00000012#32) ∧ ∀ s : State, Ready s →
    (s.nfft = 0#32 → Rejects (.db keep) .inputTooShort s) ∧
    (s.nfft ≠ 0#32 → LengthOk s →
      ∃ t, Runs (.db keep) s t ∧ t = { completed (.db keep) s with mem := t.mem, dbmax := t.dbmax } ∧
        OnlyWords .out (halfBins s.nfft.toNat) s.mem t.mem ∧
        ∃ v g : Nat → Word, g 0 = (if keep then s.dbmax else 0xFF800000#32) ∧ t.dbmax = g (halfBins s.nfft.toNat) ∧
          ∀ k, k < halfBins s.nfft.toNat →
            Buf.out.peek t.mem k = some (v k) ∧ g (k + 1) = (if Num.fgt (v k) (g k) then v k else g k) ∧
            ∃ (e : Nat → Draw) (x : Word), Sees .mag s.mem k x ∧
              v k = Num.fmul (e 0) 0x41A00000#32 (Num.flog10 (e 1) (Num.fadd (e 2) x 0x2B8CBCCC#32)))

/-- 42_magnitude_log R134: `DBN`, with the floor at -120 dB; the fallback sets `DEGEN`. -/
def Obligations.DbnRule : Prop :=
  encode .dbn = 0x00000013#32 ∧ ∀ s : State, Ready s →
    (s.nfft = 0#32 → Rejects .dbn .inputTooShort s) ∧
    (s.nfft ≠ 0#32 → LengthOk s →
      ∃ t, Runs .dbn s t ∧ OnlyWords .out (halfBins s.nfft.toNat) s.mem t.mem ∧
        (if Num.fisfinite s.dbmax then
          t = { completed .dbn s with mem := t.mem } ∧
          ∀ k, k < halfBins s.nfft.toNat → ∃ e x, Sees .out s.mem k x ∧
            let r := Num.fsub e x s.dbmax
            Buf.out.peek t.mem k = some (if Num.flt r 0xC2F00000#32 then 0xC2F00000#32 else r)
         else
          t = { completed .dbn s with
            mem := t.mem, status := { s.status with busy := false, done := true, degen := true } } ∧
          ∀ k, k < halfBins s.nfft.toNat → Buf.out.peek t.mem k = some 0xC2F00000#32))

/-- 42_magnitude_log R135: `LOGC`; where the divisor is zero or not finite, the fallback writes +0.0 and sets `DEGEN`. -/
def Obligations.LogcRule : Prop :=
  encode .logc = 0x00000014#32 ∧ ∀ s : State, Ready s →
    (s.nfft = 0#32 → Rejects .logc .inputTooShort s) ∧
    (s.nfft ≠ 0#32 → LengthOk s →
      ∃ (t : State) (e0 e1 : Draw), Runs .logc s t ∧ OnlyWords .out (halfBins s.nfft.toNat) s.mem t.mem ∧
        let v := Num.flog10 e0 (Num.fadd e1 0x3F800000#32 (if Num.feq0 s.gmax then 0x2B8CBCCC#32 else s.gmax))
        (if Num.fisfinite v && !Num.feq0 v then
          t = { completed .logc s with mem := t.mem } ∧
          ∀ k, k < halfBins s.nfft.toNat → ∃ (e : Nat → Draw) (x : Word), Sees .mag s.mem k x ∧
            Buf.out.peek t.mem k = some (Num.fdiv (e 0) (Num.flog10 (e 1) (Num.fadd (e 2) 0x3F800000#32 x)) v)
         else
          t = { completed .logc s with
            mem := t.mem, status := { s.status with busy := false, done := true, degen := true } } ∧
          ∀ k, k < halfBins s.nfft.toNat → Buf.out.peek t.mem k = some 0x00000000#32))

/-- 42_magnitude_log R136: `FAXIS`. -/
def Obligations.FaxisRule : Prop :=
  encode .faxis = 0x00000015#32 ∧ ∀ s : State, Ready s →
    (s.nfft = 0#32 → Rejects .faxis .inputTooShort s) ∧
    (s.nfft ≠ 0#32 → s.srate = 0#32 → Rejects .faxis .invalidParameter s) ∧
    (s.nfft ≠ 0#32 → s.srate ≠ 0#32 → LengthOk s →
      ∃ t, Runs .faxis s t ∧ t = { completed .faxis s with mem := t.mem } ∧
        (∀ k, k < halfBins s.nfft.toNat → ∃ e e', Buf.frq.peek t.mem k =
          some (Num.fdiv e (Num.fmul e' (Num.ofInt k) (Num.ofInt s.srate.toNat)) (Num.ofInt s.nfft.toNat))) ∧
        OnlyWords .frq (halfBins s.nfft.toNat) s.mem t.mem)

/-- 42_magnitude_log R136, corner case: `FRQ[0]` is +0.0 always. -/
def Obligations.FrequencyAxisStartsAtZero : Prop :=
  ∀ s t : State, Ready s → s.nfft ≠ 0#32 → s.srate ≠ 0#32 → LengthOk s → Runs .faxis s t →
    Buf.frq.peek t.mem 0 = some 0x00000000#32

/-! ### The bus -/

/-- 20_memory R55, R57: an access that is misaligned, not 32 bits wide or unmapped is answered `BusError` and changes no
state; every other access is answered otherwise. -/
def Obligations.BusErrorsChangeNothing : Prop :=
  ∀ (s : State) (width : Width) (off : Offset) (v : Word), s.rstN = true →
    let bad := width ≠ .word ∨ off.toNat % 4 ≠ 0 ∨ (0x3C ≤ off.toNat ∧ off.toNat < 0x100000) ∨ 0x580000 ≤ off.toNat
    (bad → Takes (.read width off) s { s with resp := .busError } ∧
      Takes (.write width off v) s { s with resp := .busError }) ∧
    (¬bad → (∃ t x, Takes (.read width off) s t ∧ t.resp = .data x) ∧
      ∃ t, Takes (.write width off v) s t ∧ t.resp = .ok)

/-- 10_state R26 to R40, 20_memory R53, R59 (a): each register reads its value, whether or not a command is in flight, and the
read changes nothing. -/
def Obligations.RegistersReadBack : Prop :=
  ∀ s : State, s.rstN = true →
    let reads (off : Offset) (x : Word) : Prop := Takes (.read .word off) s { s with resp := .data x }
    let b (x : Bool) (k : Nat) : Word := if x then BitVec.ofNat 32 (2 ^ k) else 0#32
    reads 0x00#23 0x41560007#32 ∧ reads 0x04#23 0x00000012#32 ∧
    reads 0x08#23 (b s.ctrl.ieDone 0 ||| b s.ctrl.ieErr 1) ∧
    reads 0x0C#23 (b s.status.busy 0 ||| b s.status.done 1 ||| b s.status.err 2 ||| b s.status.degen 3 |||
      b s.status.busyErr 4) ∧
    reads 0x10#23 s.cur ∧
    reads 0x14#23 (match s.errCode with
      | .none => 0#32 | .inputTooShort => 1#32 | .invalidParameter => 2#32 | .illegalCommand => 3#32) ∧
    reads 0x18#23 s.errCmd ∧ reads 0x1C#23 s.cmdCnt ∧ reads 0x20#23 s.len ∧ reads 0x24#23 s.nfft ∧
    reads 0x28#23 (BitVec.ofNat 32 s.log2n.toNat) ∧ reads 0x2C#23 s.wlen ∧ reads 0x30#23 s.srate ∧
    reads 0x34#23 s.gmax ∧ reads 0x38#23 s.dbmax

/-- 20_memory R54 with 10_state R29, R32 to R41: a write to `CTRL` takes effect at any time; while no command is in flight a
RW register takes all 32 bits and a RO register ignores the write. -/
def Obligations.RegisterWrites : Prop :=
  ∀ (s : State) (v : Word), s.rstN = true →
    let writes (off : Offset) (t : State) : Prop := Takes (.write .word off v) s t
    writes 0x08#23 { s with resp := .ok, ctrl := { ieDone := v.getLsbD 0, ieErr := v.getLsbD 1 } } ∧
    (s.status.busy = false →
      writes 0x20#23 { s with resp := .ok, len := v } ∧ writes 0x2C#23 { s with resp := .ok, wlen := v } ∧
      writes 0x30#23 { s with resp := .ok, srate := v } ∧ writes 0x34#23 { s with resp := .ok, gmax := v } ∧
      writes 0x38#23 { s with resp := .ok, dbmax := v } ∧
      ∀ off ∈ [0x00#23, 0x04#23, 0x14#23, 0x18#23, 0x1C#23, 0x24#23, 0x28#23], writes off { s with resp := .ok })

/-- 20_memory R52 to R54: the word `i` of a buffer stands at the offset of the address map. Idle, a read returns it where it
was written, and a draw otherwise; a write stores its four bytes little-endian (R56) and changes no other byte. -/
def Obligations.BufferAccessWhenIdle : Prop :=
  ∀ (s : State) (b : Buf) (i : Nat) (off : Offset) (v : Word), s.rstN = true → s.status.busy = false → i < b.words →
    off.toNat = (match b with
      | .re => 0x100000 | .im => 0x200000 | .win => 0x300000 | .mag => 0x400000 | .out => 0x480000 | .frq => 0x500000) +
      4 * i →
    (∀ w, b.peek s.mem i = some w → Takes (.read .word off) s { s with resp := .data w }) ∧
    (b.peek s.mem i = none → ∃ x, Takes (.read .word off) s { s with resp := .data x, draws := s.draws + 1 }) ∧
    ∃ m, Takes (.write .word off v) s { s with resp := .ok, mem := m } ∧ b.peek m i = some v ∧
      (∀ k, k < 4 → Mem.get m (off.toNat + k) = some (v.extractLsb' (8 * k) 8)) ∧
      ∀ a, a < off.toNat ∨ off.toNat + 4 ≤ a → Mem.get m a = Mem.get s.mem a

/-- 20_memory R59 (c), (d): while a command is in flight every write but those to `CTRL` and `STATUS` only sets `BUSYERR`, and
a read of a buffer word returns a draw and changes nothing. -/
def Obligations.BusyAccess : Prop :=
  ∀ (s : State) (off : Offset) (v : Word), s.rstN = true → s.status.busy = true → off.toNat % 4 = 0 →
    (off.toNat < 0x3C → off ≠ 0x08#23 → off ≠ 0x0C#23 →
      Takes (.write .word off v) s { s with resp := .ok, status := { s.status with busyErr := true } }) ∧
    (0x100000 ≤ off.toNat → off.toNat < 0x580000 →
      Takes (.write .word off v) s { s with resp := .ok, status := { s.status with busyErr := true } } ∧
      ∃ x, Takes (.read .word off) s { s with resp := .data x, draws := s.draws + 1 })

/-! ### Reset -/

/-- 10_state R44: what every register holds after reset; no buffer word is written. -/
def Obligations.ResetValues : Prop :=
  let s := State.reset
  s.ctrl = { ieDone := false, ieErr := false } ∧
  s.status = { busy := false, done := false, err := false, degen := false, busyErr := false } ∧
  s.cur = 0#32 ∧ decode s.cur = .ok .nop ∧ s.errCode = .none ∧ s.errCmd = 0#32 ∧ s.cmdCnt = 0#32 ∧ s.len = 0#32 ∧
  s.nfft = 0#32 ∧ s.log2n = 0#5 ∧ s.wlen = 0#32 ∧ s.srate = 0#32 ∧ s.gmax = 0x00000000#32 ∧
  s.dbmax = 0xFF800000#32 ∧ irq s = false ∧ ∀ (b : Buf) (i : Nat), b.peek s.mem i = none

/-- 70_reset R190 to R192: `rst_n` low, then high, from any state, is the reset: every register and the latch at its reset
value, every buffer word unspecified, a command in flight abandoned. The moves to come, the response and the count of
draws are the model's own. -/
def Obligations.ResetFromAnyState : Prop :=
  ∀ s : State, Takes .resetLow s { s with rstN := false } ∧
    ∃ t, Takes .resetHigh { s with rstN := false } t ∧ AfterReset t ∧ t.rstN = true ∧ t.agenda = s.agenda

/-- 70_reset R190, 93 U10: while `rst_n` is low `irq` is low and the host has no step on the block: where the pin does not
move again, a step changes nothing, so every transaction to come waits without a response; where it rises, the next step is
the reset, and what stood before the rise still waits. That the engine waits too, and the pin passes what waits, is the
model's reading (log 10, DESIGN CHOICE). -/
def Obligations.HeldInReset : Prop :=
  ∀ s : State, s.rstN = false →
    irq s = false ∧ ((∀ m ∈ s.agenda, m ≠ .resetLow ∧ m ≠ .resetHigh) → step s = .next s) ∧
    ∀ waiting rest : List Move, (∀ m ∈ waiting, m ≠ .resetLow ∧ m ≠ .resetHigh) →
      s.agenda = waiting ++ .resetHigh :: rest →
        step s = .next { State.reset with agenda := waiting ++ rest, draws := s.draws }

/-! ### Invariants and rules of the whole machine -/

/-- The invariants hold after reset (10_state R43, R44). -/
def Obligations.ResetMeetsInvariants : Prop := Invariants State.reset

/-- 10_state R43 (a) to (d), 60_exceptions R170 (the checks of the command in flight still hold), and the form of the buffers'
storage: every step keeps them. -/
def Obligations.StepKeepsInvariants : Prop := ∀ s t : State, Invariants s → step s = .next t → Invariants t

/-- A machine that meets the invariants never stops: neither fault nor refusal (60_exceptions R160: no event during execution
can fail). -/
def Obligations.InvariantsExcludeStops : Prop := ∀ s : State, Invariants s → ∃ t, step s = .next t

/-- 60_exceptions R170 with R210, 00_scope R13: an accepted command completes. From a state with a command in flight, with
`rst_n` high and no reset to come, after at most one step more than the agenda is long, a step has completed it: the
block is idle with `DONE = 1` and one more in `CMDCNT`, and each step before changed neither. The agenda is the model's form
of the spec's weak fairness (log 1, DESIGN CHOICE). -/
def Obligations.AcceptedCommandCompletes : Prop :=
  ∀ s : State, CurOk s → s.status.busy = true → s.rstN = true → Move.resetLow ∉ s.agenda →
    ∃ (k : Nat) (t u : State), k ≤ s.agenda.length ∧ Sys2Proof.core.run k s = .next t ∧ t.status.busy = true ∧
      t.cmdCnt = s.cmdCnt ∧ step t = .next u ∧ u.status.busy = false ∧ u.status.done = true ∧
      u.cmdCnt = s.cmdCnt + 1#32

/-- 20_memory R59, 60_exceptions R168: no host transaction disturbs the command in flight. Whatever it is, the next state
differs from the last only in `CTRL`, in flags other than `BUSY`, in `ERRCODE` and `ERRCMD`, and in the model's own fields.
(While `rst_n` is low no transaction is taken: HeldInReset.) -/
def Obligations.HostCannotDisturbCommand : Prop :=
  ∀ (s t : State) (width : Width) (off : Offset) (v : Word), s.rstN = true → s.status.busy = true →
    (Takes (.read width off) s t ∨ Takes (.write width off v) s t) →
    t = { s with
      ctrl := t.ctrl, status := { t.status with busy := true }, errCode := t.errCode, errCmd := t.errCmd
      resp := t.resp, draws := t.draws }

/-- 10_state R33, R34: a step that changes `NFFT` or `LOG2N` is the `Complete` of `PAD` or `FFT`, or the reset. -/
def Obligations.OnlyPadAndFftSetTheLength : Prop :=
  ∀ s t : State, step s = .next t → (t.nfft ≠ s.nfft ∨ t.log2n ≠ s.log2n) →
    (s.rstN = true ∧ s.status.busy = true ∧ (decode s.cur = .ok .pad ∨ decode s.cur = .ok .fft) ∧
      t.status.busy = false ∧ t.status.done = true ∧ t.cmdCnt = s.cmdCnt + 1#32) ∨
      (s.rstN = false ∧ t.rstN = true)

/-- 10_state R25: every `Complete` adds one to `CMDCNT` mod 2^32 (it is the only step that ends `BUSY` with `rst_n` high), and
nothing else writes it but reset. -/
def Obligations.CountsCompletionsOnly : Prop :=
  ∀ s t : State, step s = .next t →
    (s.rstN = true → s.status.busy = true → t.status.busy = false →
      t.status.done = true ∧ t.cmdCnt = s.cmdCnt + 1#32) ∧
    (t.cmdCnt = s.cmdCnt ∨
      (s.rstN = true ∧ s.status.busy = true ∧ t.status.busy = false) ∨
      (s.rstN = false ∧ t.rstN = true ∧ t.cmdCnt = 0#32))

/-- 10_state R30, 60_exceptions R171, R172: `DEGEN` rises only at the `Complete` of `LOGC` or `DBN`, `BUSYERR` only at a host
write while a command is in flight; and they fall only at a host write to `STATUS` or the reset. -/
def Obligations.StickyFlags : Prop :=
  ∀ s t : State, step s = .next t →
    (s.status.degen = false → t.status.degen = true →
      s.status.busy = true ∧ (decode s.cur = .ok .logc ∨ decode s.cur = .ok .dbn)) ∧
    (s.status.busyErr = false → t.status.busyErr = true →
      s.status.busy = true ∧ ∃ off v rest, s.agenda = .write .word off v :: rest) ∧
    ((s.status.degen = true ∧ t.status.degen = false) ∨ (s.status.busyErr = true ∧ t.status.busyErr = false) →
      (∃ v rest, s.agenda = .write .word 0x0C#23 v :: rest) ∨ (s.rstN = false ∧ t.rstN = true))

/-- 10_state R43 (e): `GMAX` and `DBMAX` become a NaN only by a host write. -/
def Obligations.AccumulatorsStayNumbers : Prop :=
  ∀ s t : State, step s = .next t →
    (Num.isNaN s.gmax = false → Num.isNaN t.gmax = true → ∃ v rest, s.agenda = .write .word 0x34#23 v :: rest) ∧
    (Num.isNaN s.dbmax = false → Num.isNaN t.dbmax = true → ∃ v rest, s.agenda = .write .word 0x38#23 v :: rest)

/-! ### Numerics (00_scope R8, R9) -/

/-- 00_scope R8 (a): the rounding of every operation gives, of all finite binary32 magnitudes, one nearest to the exact
quotient of `n` by `d` units of 2^-149; where two are nearest, the one with the even last bit; and infinity exactly from
half a last place above the largest finite value. -/
def Obligations.RoundingIsToNearestEven : Prop := ∀ n d : Nat, 0 < d → Nearest n d (Num.roundMag n d)

/-- 00_scope R9 `P_exact`: `fadd`, `fsub` and `fmul` return the exact result whenever it is a binary32 value, here for a
result other than zero (`P_sub_self` and `P_mul0` say what a zero result is). -/
def Obligations.ExactResultsAreReturned : Prop :=
  ∀ (d : Draw) (a b c : Word), Num.fisfinite a = true → Num.fisfinite b = true → Num.fisfinite c = true →
    Num.feq0 c = false →
    (Num.intUnits a + Num.intUnits b = Num.intUnits c → Num.fadd d a b = c) ∧
    (Num.intUnits a - Num.intUnits b = Num.intUnits c → Num.fsub d a b = c) ∧
    (Num.intUnits a * Num.intUnits b = Num.intUnits c * 2 ^ 149 → Num.fmul d a b = c)

/-- 00_scope R9 `P_add0`, `P_mul1`, `P_mul0`, `P_sub_self`. -/
def Obligations.NeutralOperands : Prop :=
  ∀ (d : Draw) (x : Word),
    (x ≠ 0x80000000#32 → Num.isNaN x = false → Num.fadd d x 0x00000000#32 = x) ∧
    (Num.isNaN x = false → Num.fmul d x 0x3F800000#32 = x) ∧
    (Num.fisfinite x = true → Num.feq0 (Num.fmul d x 0x00000000#32) = true) ∧
    (Num.fisfinite x = true → Num.fsub d x x = 0x00000000#32)

/-- 00_scope R9 `P_cos0`, `P_log1`, `P_log10`. -/
def Obligations.NamedValues : Prop :=
  ∀ d : Draw, Num.fcos d 0x00000000#32 = 0x3F800000#32 ∧ Num.flog10 d 0x3F800000#32 = 0x00000000#32 ∧
    Num.flog10 d (Num.ofInt 10) = 0x3F800000#32 ∧ Num.flog10 d (Num.ofInt 100) = Num.ofInt 2

/-- 00_scope R9 `P_sqrt_sq`: the root of a square is its number, below 4096. -/
def Obligations.RootsOfSquares : Prop :=
  ∀ (d : Draw) (k : Nat), k < 4096 → Num.fsqrt d (Num.ofInt (k * k)) = Num.ofInt k

/-- 00_scope R8 (a), (b), (d): the special results, for every operand position. `nan` is what a NaN result is: any NaN
pattern. That an operation with a NaN operand gives a fresh NaN, and not the operand's bits, is the model's reading of (d)
(log 5, DEDUCED). -/
def Obligations.SpecialResults : Prop :=
  (∀ d, Num.isNaN (Num.nan d) = true) ∧
  (∀ (d : Draw) (a b : Word),
    let signed (m : Word) : Word := if a.msb != b.msb then m ||| 0x80000000#32 else m
    (Num.isNaN a = true ∨ Num.isNaN b = true →
      Num.fadd d a b = Num.nan d ∧ Num.fsub d a b = Num.nan d ∧ Num.fmul d a b = Num.nan d ∧ Num.fdiv d a b = Num.nan d) ∧
    (Num.isInf a = true → Num.isInf b = true →
      Num.fdiv d a b = Num.nan d ∧ Num.fmul d a b = signed 0x7F800000#32 ∧
      Num.fadd d a b = (if a.msb != b.msb then Num.nan d else a) ∧
      Num.fsub d a b = (if a.msb != b.msb then a else Num.nan d)) ∧
    (Num.isInf a = true → Num.fisfinite b = true →
      Num.fadd d a b = a ∧ Num.fadd d b a = a ∧ Num.fsub d a b = a ∧ Num.fsub d b a = a ^^^ 0x80000000#32 ∧
      Num.fdiv d a b = signed 0x7F800000#32 ∧ Num.fdiv d b a = signed 0x00000000#32 ∧
      (if Num.feq0 b then Num.fmul d a b = Num.nan d ∧ Num.fmul d b a = Num.nan d
       else Num.fmul d a b = signed 0x7F800000#32 ∧ Num.fmul d b a = signed 0x7F800000#32)) ∧
    (Num.fisfinite a = true → Num.feq0 b = true →
      Num.fdiv d a b = if Num.feq0 a then Num.nan d else signed 0x7F800000#32)) ∧
  ∀ (d : Draw) (a : Word),
    (Num.isNaN a = true → Num.fsqrt d a = Num.nan d ∧ Num.fcos d a = Num.nan d ∧ Num.flog10 d a = Num.nan d) ∧
    (a.msb = true → Num.isNaN a = false → Num.feq0 a = false →
      Num.fsqrt d a = Num.nan d ∧ Num.flog10 d a = Num.nan d) ∧
    (Num.feq0 a = true → Num.fsqrt d a = a ∧ Num.flog10 d a = 0xFF800000#32) ∧
    (Num.isInf a = true → Num.fcos d a = Num.nan d) ∧
    Num.fsqrt d 0x7F800000#32 = 0x7F800000#32 ∧ Num.flog10 d 0x7F800000#32 = 0x7F800000#32

/-- 00_scope R8 (c): `fgt` and `flt` compare finite floats as reals, so that -0.0 equals +0.0, with the infinities outermost
and each equal to itself; any comparison with a NaN is false. -/
def Obligations.OrderedComparisons : Prop :=
  (∀ a b : Word,
    (Num.isNaN a = true ∨ Num.isNaN b = true → Num.fgt a b = false ∧ Num.flt a b = false) ∧
    (Num.fisfinite a = true → Num.fisfinite b = true →
      (Num.fgt a b = true ↔ Num.intUnits b < Num.intUnits a) ∧
      (Num.flt a b = true ↔ Num.intUnits a < Num.intUnits b))) ∧
  (∀ a : Word, Num.fisfinite a = true →
    Num.fgt 0x7F800000#32 a = true ∧ Num.fgt a 0x7F800000#32 = false ∧
    Num.fgt a 0xFF800000#32 = true ∧ Num.fgt 0xFF800000#32 a = false ∧
    Num.flt a 0x7F800000#32 = true ∧ Num.flt 0x7F800000#32 a = false ∧
    Num.flt 0xFF800000#32 a = true ∧ Num.flt a 0xFF800000#32 = false) ∧
  Num.fgt 0x7F800000#32 0xFF800000#32 = true ∧ Num.fgt 0xFF800000#32 0x7F800000#32 = false ∧
  Num.fgt 0x7F800000#32 0x7F800000#32 = false ∧ Num.fgt 0xFF800000#32 0xFF800000#32 = false ∧
  Num.flt 0xFF800000#32 0x7F800000#32 = true ∧ Num.flt 0x7F800000#32 0xFF800000#32 = false ∧
  Num.flt 0x7F800000#32 0x7F800000#32 = false ∧ Num.flt 0xFF800000#32 0xFF800000#32 = false

/-! ### Integer helpers (00_scope R11) -/

/-- 00_scope R11: `clog2(n)` is the least L with `2^L ≥ n`; `np2(n)` is n exactly for the powers of two. -/
def Obligations.NextPowerOfTwo : Prop :=
  ∀ n : Nat, 1 ≤ n → n ≤ 2 ^ clog2 n ∧ (∀ l, n ≤ 2 ^ l → clog2 n ≤ l) ∧ (np2 n = n ↔ ∃ k, n = 2 ^ k)

/-- 00_scope R11: `rev(L, i)` has the bits of i below L in reverse order, and reversing twice gives i back. -/
def Obligations.BitReversal : Prop :=
  ∀ l i : Nat, i < 2 ^ l →
    rev l i < 2 ^ l ∧ rev l (rev l i) = i ∧ ∀ b, b < l → (rev l i).testBit b = i.testBit (l - 1 - b)

/-! ### The operations are the one rounding (00_scope R8 (a)) -/

/-- 00_scope R8 (a): on finite operands `fadd` and `fsub` are the exact sum and difference, rounded once; where that is zero
the result is +0.0 unless both terms (with the second's sign changed for `fsub`) are -0.0. -/
def Obligations.SumsRoundOnce : Prop :=
  ∀ (d : Draw) (a b : Word), Num.fisfinite a = true → Num.fisfinite b = true →
    (let v := Num.intUnits a + Num.intUnits b
     Nearest v.natAbs 1 (Num.magBits (Num.fadd d a b)) ∧
       (Num.fadd d a b).msb = if v = 0 then a.msb && b.msb else decide (v < 0)) ∧
    (let v := Num.intUnits a - Num.intUnits b
     Nearest v.natAbs 1 (Num.magBits (Num.fsub d a b)) ∧
       (Num.fsub d a b).msb = if v = 0 then a.msb && !b.msb else decide (v < 0))

/-- 00_scope R8 (a): on finite operands `fmul` is the exact product and `fdiv`, by a divisor other than zero, the exact
quotient, rounded once, with the product of the signs. -/
def Obligations.ProductsAndQuotientsRoundOnce : Prop :=
  ∀ (d : Draw) (a b : Word), Num.fisfinite a = true → Num.fisfinite b = true →
    (Nearest (Num.units a * Num.units b) (2 ^ 149) (Num.magBits (Num.fmul d a b)) ∧
      (Num.fmul d a b).msb = (a.msb != b.msb)) ∧
    (Num.feq0 b = false →
      Nearest (Num.units a * 2 ^ 149) (Num.units b) (Num.magBits (Num.fdiv d a b)) ∧
        (Num.fdiv d a b).msb = (a.msb != b.msb))

/-- 00_scope R8 (a): `fsqrt` of a positive finite float is its exact root, rounded once; `of_int` is the exact whole number,
rounded once. -/
def Obligations.RootsAndIntegersRoundOnce : Prop :=
  (∀ (d : Draw) (a : Word), Num.fisfinite a = true → Num.feq0 a = false → a.msb = false →
    NearestRoot (Num.units a * 2 ^ 149) (Num.magBits (Num.fsqrt d a)) ∧ (Num.fsqrt d a).msb = false) ∧
  ∀ i : Nat, Nearest (i * 2 ^ 149) 1 (Num.magBits (Num.ofInt i)) ∧ (Num.ofInt i).msb = false

/-! ### Runs (70_reset R195) -/

/-- 70_reset R195 with 30_encoding R78 and 60_exceptions R170: from a state with nothing to do that is ready for the command
`i`, the script `RUN i`, and the bare `i` with no `WAIT`, each come to an end, and at it every register and every written
word is what the command's run leaves. Where the polls and `Complete` stand is the model's choice (logs 1, 21, 24). -/
def Obligations.RunsOfOneCommandEnd : Prop :=
  ∀ (i : Instr) (s : State), s.rstN = true → s.agenda = [] → Ready s → i.wellFormed = true → issueCheck i s = none →
    ∃ t, Runs i s t ∧ (∃ u, RunOf (runScript i) s u ∧ observe u = observe t) ∧
      ∃ u, RunOf [.command i] s u ∧ observe u = observe t
end

