-- ==== Sys2Proof/Laws/Memory.lean ====
section
/-! SUPPORT. The laws of the buffers' storage: bytes, words, buffer words; read after write, what a write leaves alone, and
that every write keeps the canonical form. -/

namespace Sys2Proof.Machine

/-! ### Bytes -/

@[simp] theorem Mem.get_nil (a : Nat) : Mem.get [] a = none := rfl

@[simp] theorem Mem.get_set_self (m : Mem) (a : Nat) (v : Byte) : Mem.get (Mem.set m a v) a = some v := by
  induction m with
  | nil => simp [Mem.set, Mem.get]
  | cons p m ih =>
    obtain ⟨x, b⟩ := p
    simp only [Mem.set]
    split
    · simp_all [Mem.get]
    · split
      · simp [Mem.get]
      · simp [Mem.get, *]

theorem Mem.get_set_other {m : Mem} {a c : Nat} {v : Byte} (h : c ≠ a) :
    Mem.get (Mem.set m a v) c = Mem.get m c := by
  induction m with
  | nil => simp [Mem.set, Mem.get, h]
  | cons p m ih =>
    obtain ⟨x, b⟩ := p
    simp only [Mem.set]
    split
    · next hx => subst hx; simp [Mem.get, h]
    · split
      · next hax =>
        simp only [Mem.get, h, if_false]
        have : c ≠ x ∨ c = x := by omega
        by_cases hca : c < a
        · have h1 : c ≠ x := by omega
          have h2 : c < x := by omega
          simp [hca, h1, h2]
        · simp [hca]
      · simp [Mem.get, ih]

theorem Mem.get_set (m : Mem) (a c : Nat) (v : Byte) :
    Mem.get (Mem.set m a v) c = if c = a then some v else Mem.get m c := by
  split
  · next h => subst h; simp
  · next h => exact Mem.get_set_other h

theorem Mem.risesFrom_set {lo : Nat} {m : Mem} {a : Nat} {v : Byte} (h : Mem.risesFrom lo m = true) (ha : lo < a) :
    Mem.risesFrom lo (Mem.set m a v) = true := by
  induction m generalizing lo with
  | nil => simp [Mem.set, Mem.risesFrom, ha]
  | cons p m ih =>
    obtain ⟨x, b⟩ := p
    simp only [Mem.risesFrom, Bool.and_eq_true, decide_eq_true_eq] at h
    simp only [Mem.set]
    split
    · next hx => subst hx; simp [Mem.risesFrom, h]
    · split
      · simp [Mem.risesFrom, *]
      · have : x < a := by omega
        simp [Mem.risesFrom, h.1, ih h.2 this]

/-- Storing a byte keeps the canonical form. -/
theorem Mem.wf_set {m : Mem} {a : Nat} {v : Byte} (h : Mem.wf m = true) : Mem.wf (Mem.set m a v) = true := by
  cases m with
  | nil => simp [Mem.set, Mem.wf, Mem.risesFrom]
  | cons p m =>
    obtain ⟨x, b⟩ := p
    simp only [Mem.wf] at h
    simp only [Mem.set]
    split
    · next hx => subst hx; simpa [Mem.wf] using h
    · split
      · simp [Mem.wf, Mem.risesFrom, *]
      · have : x < a := by omega
        simp [Mem.wf, Mem.risesFrom_set h this]

/-! ### Words -/

/-- A word is put together again from its four bytes. -/
@[simp] theorem wordOfBytes_byteOf (w : Word) :
    wordOfBytes (byteOf w 0) (byteOf w 1) (byteOf w 2) (byteOf w 3) = w := by
  have e : ∀ {a b : Nat}, a = b → w.getLsbD a = w.getLsbD b := fun h => by rw [h]
  simp only [wordOfBytes, byteOf]
  refine BitVec.eq_of_getLsbD_eq fun i hi => ?_
  simp only [BitVec.getLsbD_append, BitVec.getLsbD_extractLsb']
  split
  · simp [*]
  · split
    · simp only [show i - 8 < 8 by omega, decide_true, Bool.true_and]; exact e (by omega)
    · split
      · simp only [show i - 8 - 8 < 8 by omega, decide_true, Bool.true_and]; exact e (by omega)
      · simp only [show i - 8 - 8 - 8 < 8 by omega, decide_true, Bool.true_and]; exact e (by omega)

theorem Mem.get_setWord_other {m : Mem} {a c : Nat} {w : Word} (h : c < a ∨ a + 4 ≤ c) :
    Mem.get (Mem.setWord m a w) c = Mem.get m c := by
  have : c ≠ a ∧ c ≠ a + 1 ∧ c ≠ a + 2 ∧ c ≠ a + 3 := by omega
  simp [Mem.setWord, Mem.get_set, this]

/-- The bytes a word store leaves: byte `k` of the word at offset `a + k`. -/
theorem Mem.get_setWord_byte {m : Mem} {a k : Nat} {w : Word} (h : k < 4) :
    Mem.get (Mem.setWord m a w) (a + k) = some (byteOf w k) := by
  have : k = 0 ∨ k = 1 ∨ k = 2 ∨ k = 3 := by omega
  rcases this with rfl | rfl | rfl | rfl <;> simp [Mem.setWord, Mem.get_set]

@[simp] theorem Mem.getWord_setWord_self (m : Mem) (a : Nat) (w : Word) :
    Mem.getWord (Mem.setWord m a w) a = some w := by
  have h0 := Mem.get_setWord_byte (m := m) (a := a) (w := w) (k := 0) (by omega)
  simp only [Nat.add_zero] at h0
  simp [Mem.getWord, h0, Mem.get_setWord_byte]

theorem Mem.getWord_congr {m m' : Mem} {a : Nat} (h : ∀ c, a ≤ c → c < a + 4 → Mem.get m' c = Mem.get m c) :
    Mem.getWord m' a = Mem.getWord m a := by
  simp only [Mem.getWord]
  rw [h a (by omega) (by omega), h (a + 1) (by omega) (by omega), h (a + 2) (by omega) (by omega),
    h (a + 3) (by omega) (by omega)]

theorem Mem.wf_setWord {m : Mem} {a : Nat} {w : Word} (h : Mem.wf m = true) : Mem.wf (Mem.setWord m a w) = true :=
  Mem.wf_set (Mem.wf_set (Mem.wf_set (Mem.wf_set h)))

/-! ### Buffer words -/

/-- Words of different buffers, or different words of one buffer, lie apart. -/
theorem Buf.addr_apart {b c : Buf} {i j : Nat} (hi : i < b.words) (hj : j < c.words) (h : b ≠ c ∨ i ≠ j) :
    b.addr i + 4 ≤ c.addr j ∨ c.addr j + 4 ≤ b.addr i := by
  cases b <;> cases c <;>
    simp_all [Buf.addr, Buf.base, Buf.words, Config.nMax, Config.hMax, Config.log2NMax, Config.fullBufferBytes] <;> omega

theorem Buf.get_store_outside {b : Buf} {m : Mem} {i a : Nat} {v : Word} (h : a < b.addr i ∨ b.addr i + 4 ≤ a) :
    Mem.get (b.store m i v) a = Mem.get m a := by
  simp only [Buf.store]
  split
  · exact Mem.get_setWord_other h
  · rfl

theorem Buf.peek_store_self {b : Buf} {m : Mem} {i : Nat} {v : Word} (h : i < b.words) :
    b.peek (b.store m i v) i = some v := by simp [Buf.peek, Buf.store, h]

theorem Buf.peek_congr {b : Buf} {m m' : Mem} {i : Nat}
    (h : i < b.words → ∀ a, b.addr i ≤ a → a < b.addr i + 4 → Mem.get m' a = Mem.get m a) :
    b.peek m' i = b.peek m i := by
  simp only [Buf.peek]
  split
  · next hi => exact Mem.getWord_congr (h hi)
  · rfl

theorem Buf.peek_store_other {b c : Buf} {m : Mem} {i j : Nat} {v : Word} (h : b ≠ c ∨ i ≠ j) :
    c.peek (b.store m i v) j = c.peek m j := by
  by_cases hi : i < b.words
  · refine Buf.peek_congr fun hj a h1 h2 => Buf.get_store_outside ?_
    have := Buf.addr_apart hi hj h
    omega
  · simp [Buf.store, hi]

theorem Buf.wf_store {b : Buf} {m : Mem} {i : Nat} {v : Word} (h : Mem.wf m = true) : Mem.wf (b.store m i v) = true := by
  simp only [Buf.store]
  split
  · exact Mem.wf_setWord h
  · exact h

/-- A read sees the word where there is one, and any word otherwise. -/
theorem Buf.sees_load (b : Buf) (d : Draw) (m : Mem) (i : Nat) : Sees b m i (b.load d m i) := by
  intro w h
  simp [Buf.load, h]

theorem Buf.load_congr {b : Buf} {d : Draw} {m m' : Mem} {i : Nat} (h : b.peek m' i = b.peek m i) :
    b.load d m' i = b.load d m i := by simp [Buf.load, h]

end Sys2Proof.Machine
end

