-- ==== Sys2Proof/Laws/Loops.lean ====
section
/-! SUPPORT. The loops of the pseudocode: how they unfold, their invariant rule, and what a loop leaves that stores one word
of a buffer in each round. -/

namespace Sys2Proof.Machine

@[simp] theorem forUpTo_zero {α : Type} (f : Nat → α → α) (a : α) : forUpTo 0 f a = a := rfl

/-- The last round of a loop runs after all the others. -/
theorem forUpTo_succ {α : Type} (n : Nat) (f : Nat → α → α) (a : α) :
    forUpTo (n + 1) f a = f n (forUpTo n f a) := by simp [forUpTo, Nat.fold_succ]

/-- The invariant rule: what holds at the start and is kept by each round holds at the end. -/
theorem forUpTo_induction {α : Type} {n : Nat} {f : Nat → α → α} {a : α} (P : Nat → α → Prop) (h0 : P 0 a)
    (hs : ∀ i x, i < n → P i x → P (i + 1) (f i x)) : P n (forUpTo n f a) := by
  suffices h : ∀ k, k ≤ n → P k (forUpTo k f a) from h n (Nat.le_refl n)
  intro k hk
  induction k with
  | zero => exact h0
  | succ k ih => rw [forUpTo_succ]; exact hs k _ (by omega) (ih (by omega))

/-- A property that every round keeps. -/
theorem forUpTo_keeps {α : Type} {n : Nat} {f : Nat → α → α} {a : α} (P : α → Prop) (h0 : P a)
    (hs : ∀ i x, i < n → P x → P (f i x)) : P (forUpTo n f a) :=
  forUpTo_induction (fun _ x => P x) h0 fun i x hi hx => hs i x hi hx

/-- Loops with equal rounds are equal. -/
theorem forUpTo_congr {α : Type} {n : Nat} {f g : Nat → α → α} {a : α} (h : ∀ i x, i < n → f i x = g i x) :
    forUpTo n f a = forUpTo n g a := by
  induction n with
  | zero => rfl
  | succ n ih =>
    rw [forUpTo_succ, forUpTo_succ, ih fun i x hi => h i x (by omega), h n _ (by omega)]

/-- A loop that stores `f i` into the word `lo + i` of a buffer in round `i`, where the value does not depend on what the
earlier rounds stored: afterwards each of those words holds its value, and no other byte has changed. -/
theorem storeLoop_spec {b : Buf} {n lo : Nat} {f : Nat → Mem → Word} {m : Mem} (hn : lo + n ≤ b.words)
    (hf : ∀ i m', i < n → (∀ a, Outside b lo (lo + i) a → Mem.get m' a = Mem.get m a) → f i m' = f i m) :
    (∀ i, i < n → b.peek (forUpTo n (fun i m => b.store m (lo + i) (f i m)) m) (lo + i) = some (f i m)) ∧
      ∀ a, Outside b lo (lo + n) a → Mem.get (forUpTo n (fun i m => b.store m (lo + i) (f i m)) m) a = Mem.get m a := by
  refine forUpTo_induction
    (fun k x => (∀ i, i < k → b.peek x (lo + i) = some (f i m)) ∧ ∀ a, Outside b lo (lo + k) a → Mem.get x a = Mem.get m a)
    ⟨fun i hi => by omega, fun a _ => rfl⟩ ?_
  rintro k x hk ⟨h1, h2⟩
  rw [hf k x hk h2]
  refine ⟨fun i hi => ?_, fun a ha => ?_⟩
  · by_cases h : i = k
    · subst h; exact Buf.peek_store_self (by omega)
    · rw [Buf.peek_store_other (.inr (by omega))]; exact h1 i (by omega)
  · rw [Buf.get_store_outside (ha _ (by omega) (by omega))]
    exact h2 a fun i hi hi' => ha i hi (by omega)

/-- `storeLoop_spec` from index 0. -/
theorem storeLoop_spec_zero {b : Buf} {n : Nat} {f : Nat → Mem → Word} {m : Mem} (hn : n ≤ b.words)
    (hf : ∀ i m', i < n → (∀ a, Outside b 0 i a → Mem.get m' a = Mem.get m a) → f i m' = f i m) :
    (∀ i, i < n → b.peek (forUpTo n (fun i m => b.store m i (f i m)) m) i = some (f i m)) ∧
      OnlyWords b n m (forUpTo n (fun i m => b.store m i (f i m)) m) := by
  have := storeLoop_spec (b := b) (n := n) (lo := 0) (f := f) (m := m) (by omega) (by simpa using hf)
  simpa [OnlyWords] using this

/-- A word of another buffer, or one at or past `i`, is outside the words below `i`. -/
theorem peek_of_outside {b c : Buf} {i j : Nat} {m m' : Mem} (hi : i ≤ b.words) (h : b ≠ c ∨ i ≤ j)
    (hm : ∀ a, Outside b 0 i a → Mem.get m' a = Mem.get m a) : c.peek m' j = c.peek m j := by
  refine Buf.peek_congr fun hj a h1 h2 => hm a fun k _ hk => ?_
  have := Buf.addr_apart (b := b) (c := c) (i := k) (j := j) (by omega) hj
    (h.elim .inl fun h => .inr (by omega))
  omega

end Sys2Proof.Machine
end

