-- ==== Sys2Proof/Laws/State.lean ====
section
/-! SUPPORT. One lemma per field per named update of the state, each true by unfolding once, so that no later proof unfolds a
record update. -/

namespace Sys2Proof.Machine

/-! ### reject -/

@[simp] theorem reject_ctrl (c : ErrCode) (w : Word) (s : State) : (reject c w s).ctrl = s.ctrl := rfl
@[simp] theorem reject_status (c : ErrCode) (w : Word) (s : State) : (reject c w s).status = { s.status with err := true } := rfl
@[simp] theorem reject_errCode (c : ErrCode) (w : Word) (s : State) : (reject c w s).errCode = c := rfl
@[simp] theorem reject_errCmd (c : ErrCode) (w : Word) (s : State) : (reject c w s).errCmd = w := rfl
@[simp] theorem reject_cmdCnt (c : ErrCode) (w : Word) (s : State) : (reject c w s).cmdCnt = s.cmdCnt := rfl
@[simp] theorem reject_cur (c : ErrCode) (w : Word) (s : State) : (reject c w s).cur = s.cur := rfl
@[simp] theorem reject_len (c : ErrCode) (w : Word) (s : State) : (reject c w s).len = s.len := rfl
@[simp] theorem reject_nfft (c : ErrCode) (w : Word) (s : State) : (reject c w s).nfft = s.nfft := rfl
@[simp] theorem reject_log2n (c : ErrCode) (w : Word) (s : State) : (reject c w s).log2n = s.log2n := rfl
@[simp] theorem reject_wlen (c : ErrCode) (w : Word) (s : State) : (reject c w s).wlen = s.wlen := rfl
@[simp] theorem reject_srate (c : ErrCode) (w : Word) (s : State) : (reject c w s).srate = s.srate := rfl
@[simp] theorem reject_gmax (c : ErrCode) (w : Word) (s : State) : (reject c w s).gmax = s.gmax := rfl
@[simp] theorem reject_dbmax (c : ErrCode) (w : Word) (s : State) : (reject c w s).dbmax = s.dbmax := rfl
@[simp] theorem reject_mem (c : ErrCode) (w : Word) (s : State) : (reject c w s).mem = s.mem := rfl
@[simp] theorem reject_rstN (c : ErrCode) (w : Word) (s : State) : (reject c w s).rstN = s.rstN := rfl
@[simp] theorem reject_agenda (c : ErrCode) (w : Word) (s : State) : (reject c w s).agenda = s.agenda := rfl
@[simp] theorem reject_resp (c : ErrCode) (w : Word) (s : State) : (reject c w s).resp = s.resp := rfl
@[simp] theorem reject_draws (c : ErrCode) (w : Word) (s : State) : (reject c w s).draws = s.draws := rfl

/-! ### accept -/

@[simp] theorem accept_ctrl (w : Word) (s : State) : (accept w s).ctrl = s.ctrl := rfl
@[simp] theorem accept_status (w : Word) (s : State) : (accept w s).status = { s.status with busy := true, done := false } := rfl
@[simp] theorem accept_errCode (w : Word) (s : State) : (accept w s).errCode = s.errCode := rfl
@[simp] theorem accept_errCmd (w : Word) (s : State) : (accept w s).errCmd = s.errCmd := rfl
@[simp] theorem accept_cmdCnt (w : Word) (s : State) : (accept w s).cmdCnt = s.cmdCnt := rfl
@[simp] theorem accept_cur (w : Word) (s : State) : (accept w s).cur = w := rfl
@[simp] theorem accept_len (w : Word) (s : State) : (accept w s).len = s.len := rfl
@[simp] theorem accept_nfft (w : Word) (s : State) : (accept w s).nfft = s.nfft := rfl
@[simp] theorem accept_log2n (w : Word) (s : State) : (accept w s).log2n = s.log2n := rfl
@[simp] theorem accept_wlen (w : Word) (s : State) : (accept w s).wlen = s.wlen := rfl
@[simp] theorem accept_srate (w : Word) (s : State) : (accept w s).srate = s.srate := rfl
@[simp] theorem accept_gmax (w : Word) (s : State) : (accept w s).gmax = s.gmax := rfl
@[simp] theorem accept_dbmax (w : Word) (s : State) : (accept w s).dbmax = s.dbmax := rfl
@[simp] theorem accept_mem (w : Word) (s : State) : (accept w s).mem = s.mem := rfl
@[simp] theorem accept_rstN (w : Word) (s : State) : (accept w s).rstN = s.rstN := rfl
@[simp] theorem accept_agenda (w : Word) (s : State) : (accept w s).agenda = s.agenda := rfl
@[simp] theorem accept_resp (w : Word) (s : State) : (accept w s).resp = s.resp := rfl
@[simp] theorem accept_draws (w : Word) (s : State) : (accept w s).draws = s.draws := rfl

/-! ### finish -/

@[simp] theorem finish_ctrl (s : State) : (finish s).ctrl = s.ctrl := rfl
@[simp] theorem finish_status (s : State) : (finish s).status = { s.status with busy := false, done := true } := rfl
@[simp] theorem finish_errCode (s : State) : (finish s).errCode = s.errCode := rfl
@[simp] theorem finish_errCmd (s : State) : (finish s).errCmd = s.errCmd := rfl
@[simp] theorem finish_cmdCnt (s : State) : (finish s).cmdCnt = s.cmdCnt + 1#32 := rfl
@[simp] theorem finish_cur (s : State) : (finish s).cur = s.cur := rfl
@[simp] theorem finish_len (s : State) : (finish s).len = s.len := rfl
@[simp] theorem finish_nfft (s : State) : (finish s).nfft = s.nfft := rfl
@[simp] theorem finish_log2n (s : State) : (finish s).log2n = s.log2n := rfl
@[simp] theorem finish_wlen (s : State) : (finish s).wlen = s.wlen := rfl
@[simp] theorem finish_srate (s : State) : (finish s).srate = s.srate := rfl
@[simp] theorem finish_gmax (s : State) : (finish s).gmax = s.gmax := rfl
@[simp] theorem finish_dbmax (s : State) : (finish s).dbmax = s.dbmax := rfl
@[simp] theorem finish_mem (s : State) : (finish s).mem = s.mem := rfl
@[simp] theorem finish_rstN (s : State) : (finish s).rstN = s.rstN := rfl
@[simp] theorem finish_agenda (s : State) : (finish s).agenda = s.agenda := rfl
@[simp] theorem finish_resp (s : State) : (finish s).resp = s.resp := rfl
@[simp] theorem finish_draws (s : State) : (finish s).draws = s.draws + 1 := rfl

/-! ### markBusyError -/

@[simp] theorem markBusyError_ctrl (s : State) : (markBusyError s).ctrl = s.ctrl := rfl
@[simp] theorem markBusyError_status (s : State) : (markBusyError s).status = { s.status with busyErr := true } := rfl
@[simp] theorem markBusyError_errCode (s : State) : (markBusyError s).errCode = s.errCode := rfl
@[simp] theorem markBusyError_errCmd (s : State) : (markBusyError s).errCmd = s.errCmd := rfl
@[simp] theorem markBusyError_cmdCnt (s : State) : (markBusyError s).cmdCnt = s.cmdCnt := rfl
@[simp] theorem markBusyError_cur (s : State) : (markBusyError s).cur = s.cur := rfl
@[simp] theorem markBusyError_len (s : State) : (markBusyError s).len = s.len := rfl
@[simp] theorem markBusyError_nfft (s : State) : (markBusyError s).nfft = s.nfft := rfl
@[simp] theorem markBusyError_log2n (s : State) : (markBusyError s).log2n = s.log2n := rfl
@[simp] theorem markBusyError_wlen (s : State) : (markBusyError s).wlen = s.wlen := rfl
@[simp] theorem markBusyError_srate (s : State) : (markBusyError s).srate = s.srate := rfl
@[simp] theorem markBusyError_gmax (s : State) : (markBusyError s).gmax = s.gmax := rfl
@[simp] theorem markBusyError_dbmax (s : State) : (markBusyError s).dbmax = s.dbmax := rfl
@[simp] theorem markBusyError_mem (s : State) : (markBusyError s).mem = s.mem := rfl
@[simp] theorem markBusyError_rstN (s : State) : (markBusyError s).rstN = s.rstN := rfl
@[simp] theorem markBusyError_agenda (s : State) : (markBusyError s).agenda = s.agenda := rfl
@[simp] theorem markBusyError_resp (s : State) : (markBusyError s).resp = s.resp := rfl
@[simp] theorem markBusyError_draws (s : State) : (markBusyError s).draws = s.draws := rfl

/-! ### setDegen -/

@[simp] theorem setDegen_ctrl (s : State) : (setDegen s).ctrl = s.ctrl := rfl
@[simp] theorem setDegen_status (s : State) : (setDegen s).status = { s.status with degen := true } := rfl
@[simp] theorem setDegen_errCode (s : State) : (setDegen s).errCode = s.errCode := rfl
@[simp] theorem setDegen_errCmd (s : State) : (setDegen s).errCmd = s.errCmd := rfl
@[simp] theorem setDegen_cmdCnt (s : State) : (setDegen s).cmdCnt = s.cmdCnt := rfl
@[simp] theorem setDegen_cur (s : State) : (setDegen s).cur = s.cur := rfl
@[simp] theorem setDegen_len (s : State) : (setDegen s).len = s.len := rfl
@[simp] theorem setDegen_nfft (s : State) : (setDegen s).nfft = s.nfft := rfl
@[simp] theorem setDegen_log2n (s : State) : (setDegen s).log2n = s.log2n := rfl
@[simp] theorem setDegen_wlen (s : State) : (setDegen s).wlen = s.wlen := rfl
@[simp] theorem setDegen_srate (s : State) : (setDegen s).srate = s.srate := rfl
@[simp] theorem setDegen_gmax (s : State) : (setDegen s).gmax = s.gmax := rfl
@[simp] theorem setDegen_dbmax (s : State) : (setDegen s).dbmax = s.dbmax := rfl
@[simp] theorem setDegen_mem (s : State) : (setDegen s).mem = s.mem := rfl
@[simp] theorem setDegen_rstN (s : State) : (setDegen s).rstN = s.rstN := rfl
@[simp] theorem setDegen_agenda (s : State) : (setDegen s).agenda = s.agenda := rfl
@[simp] theorem setDegen_resp (s : State) : (setDegen s).resp = s.resp := rfl
@[simp] theorem setDegen_draws (s : State) : (setDegen s).draws = s.draws := rfl

/-! ### respond -/

@[simp] theorem respond_ctrl (r : Response) (s : State) : (respond r s).ctrl = s.ctrl := rfl
@[simp] theorem respond_status (r : Response) (s : State) : (respond r s).status = s.status := rfl
@[simp] theorem respond_errCode (r : Response) (s : State) : (respond r s).errCode = s.errCode := rfl
@[simp] theorem respond_errCmd (r : Response) (s : State) : (respond r s).errCmd = s.errCmd := rfl
@[simp] theorem respond_cmdCnt (r : Response) (s : State) : (respond r s).cmdCnt = s.cmdCnt := rfl
@[simp] theorem respond_cur (r : Response) (s : State) : (respond r s).cur = s.cur := rfl
@[simp] theorem respond_len (r : Response) (s : State) : (respond r s).len = s.len := rfl
@[simp] theorem respond_nfft (r : Response) (s : State) : (respond r s).nfft = s.nfft := rfl
@[simp] theorem respond_log2n (r : Response) (s : State) : (respond r s).log2n = s.log2n := rfl
@[simp] theorem respond_wlen (r : Response) (s : State) : (respond r s).wlen = s.wlen := rfl
@[simp] theorem respond_srate (r : Response) (s : State) : (respond r s).srate = s.srate := rfl
@[simp] theorem respond_gmax (r : Response) (s : State) : (respond r s).gmax = s.gmax := rfl
@[simp] theorem respond_dbmax (r : Response) (s : State) : (respond r s).dbmax = s.dbmax := rfl
@[simp] theorem respond_mem (r : Response) (s : State) : (respond r s).mem = s.mem := rfl
@[simp] theorem respond_rstN (r : Response) (s : State) : (respond r s).rstN = s.rstN := rfl
@[simp] theorem respond_agenda (r : Response) (s : State) : (respond r s).agenda = s.agenda := rfl
@[simp] theorem respond_resp (r : Response) (s : State) : (respond r s).resp = r := rfl
@[simp] theorem respond_draws (r : Response) (s : State) : (respond r s).draws = s.draws := rfl

/-! ### resetBlock -/

@[simp] theorem resetBlock_ctrl (s : State) : (resetBlock s).ctrl = State.reset.ctrl := rfl
@[simp] theorem resetBlock_status (s : State) : (resetBlock s).status = State.reset.status := rfl
@[simp] theorem resetBlock_errCode (s : State) : (resetBlock s).errCode = State.reset.errCode := rfl
@[simp] theorem resetBlock_errCmd (s : State) : (resetBlock s).errCmd = State.reset.errCmd := rfl
@[simp] theorem resetBlock_cmdCnt (s : State) : (resetBlock s).cmdCnt = State.reset.cmdCnt := rfl
@[simp] theorem resetBlock_cur (s : State) : (resetBlock s).cur = State.reset.cur := rfl
@[simp] theorem resetBlock_len (s : State) : (resetBlock s).len = State.reset.len := rfl
@[simp] theorem resetBlock_nfft (s : State) : (resetBlock s).nfft = State.reset.nfft := rfl
@[simp] theorem resetBlock_log2n (s : State) : (resetBlock s).log2n = State.reset.log2n := rfl
@[simp] theorem resetBlock_wlen (s : State) : (resetBlock s).wlen = State.reset.wlen := rfl
@[simp] theorem resetBlock_srate (s : State) : (resetBlock s).srate = State.reset.srate := rfl
@[simp] theorem resetBlock_gmax (s : State) : (resetBlock s).gmax = State.reset.gmax := rfl
@[simp] theorem resetBlock_dbmax (s : State) : (resetBlock s).dbmax = State.reset.dbmax := rfl
@[simp] theorem resetBlock_mem (s : State) : (resetBlock s).mem = State.reset.mem := rfl
@[simp] theorem resetBlock_rstN (s : State) : (resetBlock s).rstN = State.reset.rstN := rfl
@[simp] theorem resetBlock_agenda (s : State) : (resetBlock s).agenda = s.agenda := rfl
@[simp] theorem resetBlock_resp (s : State) : (resetBlock s).resp = State.reset.resp := rfl
@[simp] theorem resetBlock_draws (s : State) : (resetBlock s).draws = s.draws := rfl

/-! ### completed -/

@[simp] theorem completed_ctrl (i : Instr) (s : State) : (completed i s).ctrl = s.ctrl := rfl
@[simp] theorem completed_status (i : Instr) (s : State) : (completed i s).status = { s.status with busy := false, done := true } := rfl
@[simp] theorem completed_errCode (i : Instr) (s : State) : (completed i s).errCode = s.errCode := rfl
@[simp] theorem completed_errCmd (i : Instr) (s : State) : (completed i s).errCmd = s.errCmd := rfl
@[simp] theorem completed_cmdCnt (i : Instr) (s : State) : (completed i s).cmdCnt = s.cmdCnt + 1#32 := rfl
@[simp] theorem completed_cur (i : Instr) (s : State) : (completed i s).cur = encode i := rfl
@[simp] theorem completed_len (i : Instr) (s : State) : (completed i s).len = s.len := rfl
@[simp] theorem completed_nfft (i : Instr) (s : State) : (completed i s).nfft = s.nfft := rfl
@[simp] theorem completed_log2n (i : Instr) (s : State) : (completed i s).log2n = s.log2n := rfl
@[simp] theorem completed_wlen (i : Instr) (s : State) : (completed i s).wlen = s.wlen := rfl
@[simp] theorem completed_srate (i : Instr) (s : State) : (completed i s).srate = s.srate := rfl
@[simp] theorem completed_gmax (i : Instr) (s : State) : (completed i s).gmax = s.gmax := rfl
@[simp] theorem completed_dbmax (i : Instr) (s : State) : (completed i s).dbmax = s.dbmax := rfl
@[simp] theorem completed_mem (i : Instr) (s : State) : (completed i s).mem = s.mem := rfl
@[simp] theorem completed_rstN (i : Instr) (s : State) : (completed i s).rstN = s.rstN := rfl
@[simp] theorem completed_agenda (i : Instr) (s : State) : (completed i s).agenda = s.agenda := rfl
@[simp] theorem completed_resp (i : Instr) (s : State) : (completed i s).resp = s.resp := rfl
@[simp] theorem completed_draws (i : Instr) (s : State) : (completed i s).draws = s.draws + 1 := rfl

end Sys2Proof.Machine
end

