-- ==== Sys2Proof/Laws/Ops.lean ====
section
/-! SUPPORT. What the shared operations can do, said once: the issue of a command, its `Complete`, and the frame of every
effect. -/

namespace Sys2Proof.Machine

/-- The effect of each command, as its meaning names it. -/
def effectOf : Instr → Draw → State → State
  | .nop => fun _ s => s
  | .pad => fun _ => padEffect
  | .bitrev => bitrevEffect
  | .stage n => stageEffect n
  | .bfly => bflyEffect
  | .fft => fftEffect
  | .wgen => wgenEffect
  | .wapply => wapplyEffect
  | .mag => magEffect
  | .maxu => maxuEffect
  | .db keep => dbEffect keep
  | .dbn => dbnEffect
  | .logc => logcEffect
  | .faxis => faxisEffect
  | .aclr m => fun _ => aclrEffect m

/-- Every meaning is the two-step life of its effect. -/
theorem exec_eq_runCommand (i : Instr) (s : State) : exec i s = runCommand i (effectOf i) s := by cases i <;> rfl

/-- In the busy phase a command completes. -/
theorem exec_busy {i : Instr} {s : State} (h : s.status.busy = true) :
    exec i s = .next (finish (effectOf i (drawOf s) s)) := by simp [exec_eq_runCommand, runCommand, h]

/-- In the idle phase a command is issued. -/
theorem exec_idle {i : Instr} {s : State} (h : s.status.busy = false) : exec i s = .next (issue i s) := by
  simp [exec_eq_runCommand, runCommand, h]

theorem issue_discards {i : Instr} {s : State} (h : s.status.err = true) : issue i s = s := by simp [issue, h]

theorem issue_rejects {i : Instr} {s : State} {c : ErrCode} (h : s.status.err = false) (hc : issueCheck i s = some c) :
    issue i s = reject c (encode i) s := by simp [issue, h, hc]

theorem issue_accepts {i : Instr} {s : State} (h : s.status.err = false) (hc : issueCheck i s = none) :
    issue i s = accept (encode i) s := by simp [issue, h, hc]

/-- A command that is accepted runs, and where to. -/
theorem runs_iff {i : Instr} {s t : State} (h : Ready s) (hc : issueCheck i s = none) :
    Runs i s t ↔ t = finish (effectOf i (drawOf s) (accept (encode i) s)) := by
  have hd : drawOf (accept (encode i) s) = drawOf s := rfl
  rw [Runs, exec_idle h.1, issue_accepts h.2 hc, exec_busy (by simp), hd]
  constructor
  · rintro ⟨-, h⟩
    exact (Host.Outcome.next.inj h).symm
  · rintro rfl
    exact ⟨rfl, rfl⟩

/-- A failed check is a rejection. -/
theorem rejects_of_check {i : Instr} {s : State} {c : ErrCode} (h : Ready s) (hc : issueCheck i s = some c) :
    Rejects i c s := by rw [Rejects, exec_idle h.1, issue_rejects h.2 hc]; rfl

/-- What no effect changes: everything but the buffers, `NFFT`, `LOG2N`, `WLEN`, `GMAX`, `DBMAX` and `DEGEN`. -/
theorem effect_frame (i : Instr) (d : Draw) (s : State) :
    effectOf i d s = { s with
      mem := (effectOf i d s).mem, nfft := (effectOf i d s).nfft, log2n := (effectOf i d s).log2n,
      wlen := (effectOf i d s).wlen, gmax := (effectOf i d s).gmax, dbmax := (effectOf i d s).dbmax,
      status := { s.status with degen := (effectOf i d s).status.degen } } := by
  cases i <;> simp only [effectOf] <;> try rfl
  · simp only [dbnEffect]; split <;> rfl
  · simp only [logcEffect]; split <;> rfl

/-- An effect neither reads nor writes the moves to come and the response. -/
theorem effect_host (i : Instr) (d : Draw) (s : State) (l : List Move) (r : Response) :
    effectOf i d { s with agenda := l, resp := r } = { effectOf i d s with agenda := l, resp := r } := by
  cases i <;> simp only [effectOf] <;> try rfl
  · simp only [dbnEffect]; split <;> rfl
  · simp only [logcEffect]; split <;> rfl

end Sys2Proof.Machine
end

