-- ==== Sys2Proof/Laws/Bus.lean ====
section
/-! SUPPORT. What a host transaction can do, said once: the cases of a read, of a `CMD` write and of a write, and the target of
an offset. -/

namespace Sys2Proof.Machine

/-- A read changes nothing but the response and the count of draws. -/
theorem hostRead_frame (width : Width) (off : Offset) (s : State) :
    hostRead width off s = { s with resp := (hostRead width off s).resp, draws := (hostRead width off s).draws } := by
  simp only [hostRead]
  split
  · rfl
  · rfl
  · simp only [readWord]; split <;> rfl

/-- What the issue of a word can do (60_exceptions R163). -/
theorem hostCommand_cases {w : Word} {s t : State} (h : hostCommand w s = .next t) :
    (s.status.busy = true ∧ t = markBusyError s) ∨
    (s.status.busy = false ∧ s.status.err = true ∧ t = s) ∨
    (s.status.busy = false ∧ s.status.err = false ∧ (∃ e, decode w = .error e) ∧ t = reject .illegalCommand w s) ∨
    (s.status.busy = false ∧ s.status.err = false ∧ ∃ i, decode w = .ok i ∧
      ((∃ c, issueCheck i s = some c ∧ t = reject c (encode i) s) ∨
        (issueCheck i s = none ∧ t = accept (encode i) s))) := by
  unfold hostCommand at h
  cases hb : s.status.busy <;> cases he : s.status.err <;> simp only [hb] at h
  · cases hd : decode w <;> simp only [hd, Bool.false_eq_true, if_false] at h
    · cases h; exact .inr (.inr (.inl ⟨rfl, rfl, ⟨_, rfl⟩, by simp [issueIllegal, he]⟩))
    · rw [exec_idle hb] at h
      cases h
      cases hc : issueCheck ‹_› s
      · exact .inr (.inr (.inr ⟨rfl, rfl, _, rfl, .inr ⟨hc, issue_accepts he hc⟩⟩))
      · exact .inr (.inr (.inr ⟨rfl, rfl, _, rfl, .inl ⟨_, hc, issue_rejects he hc⟩⟩))
  · cases hd : decode w <;> simp only [hd, Bool.false_eq_true, if_false] at h
    · cases h; exact .inr (.inl ⟨rfl, rfl, by simp [issueIllegal, he]⟩)
    · rw [exec_idle hb] at h
      cases h
      exact .inr (.inl ⟨rfl, rfl, issue_discards he⟩)
  · cases h; exact .inl ⟨rfl, rfl⟩
  · cases h; exact .inl ⟨rfl, rfl⟩

/-- The issue of a word always leads to a next state. -/
theorem hostCommand_next (w : Word) (s : State) : ∃ t, hostCommand w s = .next t := by
  unfold hostCommand
  split
  · exact ⟨_, rfl⟩
  · split
    · next i _ => cases hb : s.status.busy <;> simp_all [exec_idle]
    · exact ⟨_, rfl⟩

/-- What a write can do (20_memory R54, R55, R59). -/
theorem hostWrite_cases {width : Width} {off : Offset} {v : Word} {s t : State} (h : hostWrite width off v s = .next t) :
    (target width off = none ∧ t = respond .busError s) ∨
    (target width off = some (.reg .ctrl) ∧ t = { respond .ok s with ctrl := ctrlOfWord v }) ∨
    (target width off = some (.reg .status) ∧ t = writeStatus v (respond .ok s)) ∨
    (target width off = some (.reg .cmd) ∧ hostCommand v (respond .ok s) = .next t) ∨
    (s.status.busy = true ∧ t = markBusyError (respond .ok s)) ∨
    (s.status.busy = false ∧ ∃ r, target width off = some (.reg r) ∧ t = writeReg r v (respond .ok s)) ∨
    (s.status.busy = false ∧ ∃ b i, target width off = some (.word b i) ∧
      t = { respond .ok s with mem := b.store s.mem i v }) := by
  unfold hostWrite at h
  cases hb : s.status.busy <;> split at h <;> simp_all

/-- A write always leads to a next state. -/
theorem hostWrite_next (width : Width) (off : Offset) (v : Word) (s : State) : ∃ t, hostWrite width off v s = .next t := by
  unfold hostWrite
  split
  case h_4 => exact hostCommand_next _ _
  all_goals exact ⟨_, rfl⟩

/-- A target is reached by word accesses at aligned offsets only. -/
theorem target_word_aligned {width : Width} {off : Offset} {x : Target} (h : target width off = some x) :
    width = .word ∧ off.toNat % 4 = 0 := by
  unfold target at h
  split at h
  · cases h
  · next hw => simpa [not_or] using hw

/-- A buffer target is a word of that buffer, at its offset. -/
theorem target_word {width : Width} {off : Offset} {b : Buf} {i : Nat} (h : target width off = some (.word b i)) :
    i < b.words ∧ b.addr i = off.toNat := by
  have ha := (target_word_aligned h).2
  unfold target at h
  split at h
  · cases h
  · split at h
    · cases h
    · split at h
      · next c hc =>
        simp only [Option.some.injEq, Target.word.injEq] at h
        obtain ⟨rfl, rfl⟩ := h
        have := List.find?_some hc
        simp only [decide_eq_true_eq] at this
        have h4 : c.base % 4 = 0 := by cases c <;> decide
        simp only [Buf.addr]
        omega
      · cases h

/-- A register target is at its offset. -/
theorem target_reg {width : Width} {off : Offset} {r : Reg} (h : target width off = some (.reg r)) :
    r.offset = off.toNat := by
  unfold target at h
  split at h
  · cases h
  · split at h
    · next hc =>
      simp only [Option.some.injEq, Target.reg.injEq] at h
      subst h
      simpa using List.find?_some hc
    · split at h <;> cases h

/-- The target of a register's offset is the register. -/
theorem target_of_reg (r : Reg) : target .word (BitVec.ofNat 23 r.offset) = some (.reg r) := by cases r <;> decide

/-- The target of a buffer word's offset is the word. -/
theorem target_of_word {b : Buf} {i : Nat} {off : Offset} (hi : i < b.words) (ho : off.toNat = b.addr i) :
    target .word off = some (.word b i) := by
  have hal : off.toNat % 4 = 0 := by
    rw [ho]
    cases b <;> simp only [Buf.addr, Buf.base, Config.fullBufferBytes, Config.log2NMax] <;> omega
  have hreg : Reg.all.find? (fun r => r.offset = off.toNat) = none := by
    rw [List.find?_eq_none]
    intro r _
    simp only [decide_eq_true_eq]
    rw [ho]
    cases b <;> cases r <;> simp [Reg.offset, Buf.addr, Buf.base, Config.log2NMax, Config.fullBufferBytes] <;> omega
  have hb : Buf.all.find? (fun c => c.base ≤ off.toNat ∧ off.toNat < c.base + 4 * c.words) = some b := by
    have hx : ∀ c : Buf, (c.base ≤ off.toNat ∧ off.toNat < c.base + 4 * c.words) ↔ c = b := by
      intro c
      rw [ho]
      cases b <;> cases c <;> simp [Buf.addr, Buf.words, Buf.base, Config.nMax, Config.hMax, Config.log2NMax,
        Config.fullBufferBytes] at * <;> omega
    simp only [hx]
    cases b <;> rfl
  simp only [target, hal, hreg, hb]
  simp [ho, Buf.addr]

end Sys2Proof.Machine
end

