-- ==== Sys2Proof/Laws/Checks.lean ====
section
/-! SUPPORT. The issue checks case by case (60_exceptions R162), and what a passed check says of lengths and bins. -/

namespace Sys2Proof.Machine

theorem lengthCheck_zero {s : State} (h : s.len = 0#32) : lengthCheck s = some .inputTooShort := by
  simp [lengthCheck, h]

theorem len_ne_zero {s : State} (h : 1 ≤ s.len.toNat) : s.len ≠ 0#32 := by
  intro e
  simp [e] at h

theorem lengthCheck_long {s : State} (h : Config.nMax < s.len.toNat) : lengthCheck s = some .invalidParameter := by
  simp [lengthCheck, h, len_ne_zero (s := s) (by omega)]

theorem lengthCheck_ok {s : State} (h : 1 ≤ s.len.toNat) (h' : s.len.toNat ≤ Config.nMax) : lengthCheck s = none := by
  simp [lengthCheck, len_ne_zero h, Nat.not_lt.mpr h']

/-- The length check passes exactly on the lengths 1 .. NMAX. -/
theorem lengthCheck_none {s : State} : lengthCheck s = none ↔ 1 ≤ s.len.toNat ∧ s.len.toNat ≤ Config.nMax := by
  refine ⟨fun h => ?_, fun h => lengthCheck_ok h.1 h.2⟩
  by_cases h0 : s.len = 0#32
  · simp [lengthCheck_zero h0] at h
  · have : s.len.toNat ≠ 0 := fun e => h0 (BitVec.eq_of_toNat_eq (by simpa using e))
    by_cases h1 : Config.nMax < s.len.toNat
    · simp [lengthCheck_long h1] at h
    · omega

theorem transformCheck_zero {s : State} (h : s.nfft = 0#32) : transformCheck s = some .inputTooShort := by
  simp [transformCheck, h]

theorem transformCheck_ok {s : State} (h : s.nfft ≠ 0#32) : transformCheck s = none := by simp [transformCheck, h]

/-- No check answers code 0. -/
theorem issueCheck_ne_none {i : Instr} {s : State} : issueCheck i s ≠ some .none := by
  have h1 : lengthCheck s ≠ some .none := by unfold lengthCheck; split <;> (try split) <;> simp
  have h2 : transformCheck s ≠ some .none := by unfold transformCheck; split <;> simp
  have h3 : ∀ (x : Option ErrCode) (c : Prop) [Decidable c], x ≠ some .none →
      x.or (if c then some .invalidParameter else none) ≠ some .none := by
    intro x c _ h
    cases x
    · split <;> simp
    · simpa using h
  cases i
  case nop => exact nofun
  case aclr => exact nofun
  case wapply => exact h3 _ _ h1
  case stage => exact h3 _ _ h2
  case faxis => exact h3 _ _ h2
  all_goals first | exact h1 | exact h2

/-- The checks look at no other registers than these. -/
theorem issueCheck_congr {s t : State} (h1 : t.len = s.len) (h2 : t.nfft = s.nfft) (h3 : t.log2n = s.log2n)
    (h4 : t.wlen = s.wlen) (h5 : t.srate = s.srate) (i : Instr) : issueCheck i t = issueCheck i s := by
  cases i <;> simp [issueCheck, lengthCheck, transformCheck, h1, h2, h3, h4, h5]

/-- Whatever leaves `BUSY`, `CUR` and the registers checked alone keeps the checks of the command in flight. -/
theorem inFlightOk_congr {s t : State} (h : InFlightOk s) (hb : t.status.busy = s.status.busy) (hc : t.cur = s.cur)
    (h1 : t.len = s.len) (h2 : t.nfft = s.nfft) (h3 : t.log2n = s.log2n) (h4 : t.wlen = s.wlen)
    (h5 : t.srate = s.srate) : InFlightOk t := by
  intro hx i hi
  rw [issueCheck_congr h1 h2 h3 h4 h5]
  exact h (hb ▸ hx) i (hc ▸ hi)

/-- While idle there is nothing in flight. -/
theorem inFlightOk_idle {s : State} (h : s.status.busy = false) : InFlightOk s := by
  intro hx
  simp [h] at hx

/-- The logarithm of a length that PAD accepts fits `LOG2N`. -/
theorem clog2_le {n : Nat} (h : n ≤ Config.nMax) : clog2 n ≤ Config.log2NMax := by
  unfold clog2
  split
  · exact Nat.zero_le _
  · have : Nat.log2 (n - 1) < Config.log2NMax := by
      rw [Nat.log2_lt (by omega)]
      simp only [Config.nMax] at h
      omega
    omega

/-- The registers PAD writes hold the numbers it computes (41_fft R111). -/
theorem padEffect_length {s : State} (h : s.len.toNat ≤ Config.nMax) :
    (padEffect s).log2n.toNat = clog2 s.len.toNat ∧ (padEffect s).nfft.toNat = 2 ^ clog2 s.len.toNat ∧
      2 ^ clog2 s.len.toNat ≤ Config.nMax := by
  have hl := clog2_le h
  have hn : 2 ^ clog2 s.len.toNat ≤ 2 ^ Config.log2NMax := Nat.pow_le_pow_right (by decide) hl
  simp only [Config.log2NMax] at hl hn
  refine ⟨?_, ?_, hn⟩ <;> simp [padEffect, np2] <;> omega

/-- An established transform length is a power of two that fits a full buffer (10_state R43 (c)). -/
theorem length_of_ne_zero {s : State} (h : s.nfft ≠ 0#32) (hl : LengthOk s) :
    s.nfft.toNat = 2 ^ s.log2n.toNat ∧ 2 ^ s.log2n.toNat ≤ Config.nMax := by
  rcases hl with hl | hl
  · exact absurd hl.1 h
  · exact ⟨hl.1, Nat.pow_le_pow_right (by decide) hl.2⟩

/-- Its bins fit a half buffer. -/
theorem halfBins_le {s : State} (h : s.nfft ≠ 0#32) (hl : LengthOk s) : halfBins s.nfft.toNat ≤ Config.hMax := by
  obtain ⟨e, hn⟩ := length_of_ne_zero h hl
  unfold halfBins
  rw [e]
  simp only [Config.hMax, Config.nMax, Config.log2NMax] at *
  split <;> omega

/-- `HALF(N)` is at least 1. -/
theorem halfBins_pos (n : Nat) : 1 ≤ halfBins n := by unfold halfBins; split <;> omega

end Sys2Proof.Machine
end

