-- ==== Sys2Proof/Laws/Convert.lean ====
section
/-! SUPPORT. What the loops of the window and conversion commands leave in the buffers: one lemma per loop of
Machine/Window.lean and Machine/Convert.lean. -/

namespace Sys2Proof.Machine

/-! ### Window -/

/-- WGEN's loop writes every coefficient and nothing else (40_window R101). -/
theorem wgenMem_spec {d : Draw} {n : Nat} {m : Mem} (hn : n ≠ 1) (hl : n ≤ Config.nMax) :
    (∀ i, i < n → Buf.win.peek (wgenMem d n m) i = some (hannCoefficient (d.site i) n i)) ∧
      OnlyWords .win n m (wgenMem d n m) := by
  rw [wgenMem, if_neg hn]
  exact storeLoop_spec_zero (b := .win) (f := fun i _ => hannCoefficient (d.site i) n i) hl fun _ _ _ _ => rfl

/-- The window of one sample is 1.0 (40_window R101). -/
theorem wgenMem_one {d : Draw} {m : Mem} :
    Buf.win.peek (wgenMem d 1 m) 0 = some Num.one ∧ OnlyWords .win 1 m (wgenMem d 1 m) := by
  rw [wgenMem, if_pos rfl]
  exact ⟨Buf.peek_store_self (by decide), fun a ha => Buf.get_store_outside (ha 0 (by omega) (by omega))⟩

/-- WAPPLY's loop multiplies every sample by its coefficient and writes nothing else (40_window R102). -/
theorem wapplyMem_spec {d : Draw} {n : Nat} {m : Mem} (hl : n ≤ Config.nMax) :
    (∀ i, i < n → Buf.re.peek (wapplyMem d n m) i = some (Num.fmul ((d.site i).site 0)
      (Buf.load .re ((d.site i).site 1) m i) (Buf.load .win ((d.site i).site 2) m i))) ∧
      OnlyWords .re n m (wapplyMem d n m) := by
  refine storeLoop_spec_zero (b := .re) (f := fun i m => Num.fmul ((d.site i).site 0)
    (Buf.load .re ((d.site i).site 1) m i) (Buf.load .win ((d.site i).site 2) m i)) hl fun i m' hi hm => ?_
  have hi' : i ≤ Buf.re.words := le_trans (le_of_lt hi) hl
  simp only [Buf.load_congr (peek_of_outside (c := .re) (j := i) hi' (.inr (le_refl i)) hm),
    Buf.load_congr (peek_of_outside (c := .win) (j := i) hi' (.inl (by decide)) hm)]

/-! ### Conversion -/

/-- MAG's loop writes every magnitude, from `RE` and `IM` as they were, and nothing else (42_magnitude_log R131). -/
theorem magLoop_spec {d : Draw} {h : Nat} {m : Mem} (hh : h ≤ Config.hMax) :
    (∀ k, k < h → Buf.mag.peek (forUpTo h (fun k m => Buf.store .mag m k (magnitudeOf (d.site k) m k)) m) k =
      some (magnitudeOf (d.site k) m k)) ∧
      OnlyWords .mag h m (forUpTo h (fun k m => Buf.store .mag m k (magnitudeOf (d.site k) m k)) m) := by
  refine storeLoop_spec_zero (b := .mag) (f := fun k m => magnitudeOf (d.site k) m k) hh fun k m' hk hm => ?_
  have hk' : k ≤ Buf.mag.words := le_trans (le_of_lt hk) hh
  simp only [magnitudeOf, Buf.load_congr (peek_of_outside (c := .re) (j := k) hk' (.inl (by decide)) hm),
    Buf.load_congr (peek_of_outside (c := .im) (j := k) hk' (.inl (by decide)) hm)]

/-- The decibels of bin k do not depend on `OUT`. -/
theorem decibelOf_congr {d : Draw} {m m' : Mem} {k : Nat} (hk : k ≤ Config.hMax)
    (hm : ∀ a, Outside .out 0 k a → Mem.get m' a = Mem.get m a) : decibelOf d m' k = decibelOf d m k := by
  simp only [decibelOf, Buf.load_congr (peek_of_outside (b := .out) (c := .mag) (j := k) hk (.inl (by decide)) hm)]

/-- DB's loop: the decibels of the magnitudes as they were go to `OUT`, nothing else is written, and the maximum is the fold
of the ordered comparison over them (42_magnitude_log R133). -/
theorem dbLoop_spec {d : Draw} {h : Nat} {m : Mem} {g : Word} (hh : h ≤ Config.hMax) :
    (∀ k, k < h → Buf.out.peek (forUpTo h (fun k acc => dbStep (d.site k) k acc) (m, g)).1 k =
      some (decibelOf (d.site k) m k)) ∧
    OnlyWords .out h m (forUpTo h (fun k acc => dbStep (d.site k) k acc) (m, g)).1 ∧
    (forUpTo h (fun k acc => dbStep (d.site k) k acc) (m, g)).2 =
      forUpTo h (fun k g => if Num.fgt (decibelOf (d.site k) m k) g then decibelOf (d.site k) m k else g) g := by
  induction h with
  | zero => exact ⟨fun k hk => by omega, fun _ _ => rfl, rfl⟩
  | succ n ih =>
    obtain ⟨i1, i2, i3⟩ := ih (by omega)
    have hv := decibelOf_congr (d := d.site n) (k := n) (by omega) i2
    simp only [forUpTo_succ]
    generalize forUpTo n (fun k acc => dbStep (d.site k) k acc) (m, g) = acc at *
    refine ⟨fun k hk => ?_, fun a ha => ?_, ?_⟩
    · simp only [dbStep]
      by_cases hkn : k = n
      · subst hkn; rw [Buf.peek_store_self (b := .out) (lt_of_lt_of_le (Nat.lt_succ_self k) hh), hv]
      · rw [Buf.peek_store_other (.inr (Ne.symm hkn))]; exact i1 k (by omega)
    · simp only [dbStep]
      rw [Buf.get_store_outside (ha n (by omega) (by omega))]
      exact i2 a fun i hi hi' => ha i hi (by omega)
    · simp only [dbStep]
      rw [hv, i3]

/-- DBN's loop: every word of `OUT` relative to the maximum, and nothing else (42_magnitude_log R134). -/
theorem dbnLoop_spec {d : Draw} {h : Nat} {g : Word} {m : Mem} (hh : h ≤ Config.hMax) :
    (∀ k, k < h → Buf.out.peek (forUpTo h (fun k m => Buf.store .out m k (relativeDecibel (d.site k) g m k)) m) k =
      some (relativeDecibel (d.site k) g m k)) ∧
      OnlyWords .out h m (forUpTo h (fun k m => Buf.store .out m k (relativeDecibel (d.site k) g m k)) m) := by
  refine storeLoop_spec_zero (b := .out) (f := fun k m => relativeDecibel (d.site k) g m k) hh fun k m' hk hm => ?_
  have hk' : k ≤ Buf.out.words := le_trans (le_of_lt hk) hh
  simp only [relativeDecibel, Buf.load_congr (peek_of_outside (c := .out) (j := k) hk' (.inr (le_refl k)) hm)]

/-- LOGC's loop: every compressed magnitude, and nothing else (42_magnitude_log R135). -/
theorem logcLoop_spec {d : Draw} {h : Nat} {v : Word} {m : Mem} (hh : h ≤ Config.hMax) :
    (∀ k, k < h → Buf.out.peek (forUpTo h (fun k m => Buf.store .out m k (logcValue (d.site k) v m k)) m) k =
      some (logcValue (d.site k) v m k)) ∧
      OnlyWords .out h m (forUpTo h (fun k m => Buf.store .out m k (logcValue (d.site k) v m k)) m) := by
  refine storeLoop_spec_zero (b := .out) (f := fun k m => logcValue (d.site k) v m k) hh fun k m' hk hm => ?_
  have hk' : k ≤ Buf.out.words := le_trans (le_of_lt hk) hh
  simp only [logcValue, Buf.load_congr (peek_of_outside (c := .mag) (j := k) hk' (.inl (by decide)) hm)]

/-- The fallback's loop fills `OUT`, and writes nothing else (42_magnitude_log R134, R135). -/
theorem fillOut_spec {h : Nat} {v : Word} {m : Mem} (hh : h ≤ Config.hMax) :
    (∀ k, k < h → Buf.out.peek (fillOut h v m) k = some v) ∧ OnlyWords .out h m (fillOut h v m) :=
  storeLoop_spec_zero (b := .out) (f := fun _ _ => v) hh fun _ _ _ _ => rfl

/-- FAXIS' loop: every frequency, and nothing else (42_magnitude_log R136). -/
theorem faxisLoop_spec {d : Draw} {h srate n : Nat} {m : Mem} (hh : h ≤ Config.hMax) :
    (∀ k, k < h → Buf.frq.peek (forUpTo h (fun k m => Buf.store .frq m k (frequencyOf (d.site k) srate n k)) m) k =
      some (frequencyOf (d.site k) srate n k)) ∧
      OnlyWords .frq h m (forUpTo h (fun k m => Buf.store .frq m k (frequencyOf (d.site k) srate n k)) m) :=
  storeLoop_spec_zero (b := .frq) (f := fun k _ => frequencyOf (d.site k) srate n k) hh fun _ _ _ _ => rfl

/-! ### The two ways of DBN and LOGC -/

/-- DBN with a finite maximum (42_magnitude_log R134). -/
theorem dbnEffect_finite {d : Draw} {s : State} (h : Num.fisfinite s.dbmax = true) :
    dbnEffect d s = { s with
      mem := forUpTo (bins s) (fun k m => Buf.store .out m k (relativeDecibel (d.site k) s.dbmax m k)) s.mem } := if_pos h

/-- DBN's fallback (42_magnitude_log R134). -/
theorem dbnEffect_fallback {d : Draw} {s : State} (h : Num.fisfinite s.dbmax = false) :
    dbnEffect d s = setDegen { s with mem := fillOut (bins s) Num.minus120 s.mem } := if_neg (by simp [h])

/-- LOGC with a usable divisor (42_magnitude_log R135). -/
theorem logcEffect_usable {d : Draw} {s : State} {v : Word} (hv : logcDivisor (d.site 0) s.gmax = v)
    (h : (Num.fisfinite v && !Num.feq0 v) = true) :
    logcEffect d s = { s with
      mem := forUpTo (bins s) (fun k m => Buf.store .out m k (logcValue ((d.site 1).site k) v m k)) s.mem } := by
  subst hv
  exact if_pos h

/-- LOGC's fallback (42_magnitude_log R135). -/
theorem logcEffect_fallback {d : Draw} {s : State} {v : Word} (hv : logcDivisor (d.site 0) s.gmax = v)
    (h : (Num.fisfinite v && !Num.feq0 v) = false) :
    logcEffect d s = setDegen { s with mem := fillOut (bins s) Num.zero s.mem } := by
  subst hv
  exact if_neg (by simp [h])

/-! ### The ordered maximum -/

theorem fgt_not_nan {a b : Word} (h : Num.fgt a b = true) : Num.isNaN a = false ∧ Num.isNaN b = false := by
  simp only [Num.fgt, Bool.and_eq_true, Bool.not_eq_true'] at h
  exact h.1

/-- The ordered fold never takes a NaN (10_state R43 (e)). -/
theorem foldMax_not_nan {h : Nat} {x : Nat → Word} {g : Word} (hg : Num.isNaN g = false) :
    Num.isNaN (forUpTo h (fun k g => if Num.fgt (x k) g then x k else g) g) = false := by
  refine forUpTo_keeps (fun g => Num.isNaN g = false) hg fun k g _ hg => ?_
  split
  · next hf => exact (fgt_not_nan hf).1
  · exact hg

/-- The ordered fold over numbers ends in a maximum of them and its start, and in one of these. -/
theorem foldMax_spec {h : Nat} {x : Nat → Word} {g : Word} (hx : ∀ k, k < h → Num.isNaN (x k) = false)
    (hg : Num.isNaN g = false) :
    let r := forUpTo h (fun k g => if Num.fgt (x k) g then x k else g) g
    (∀ k, k < h → Num.fgt (x k) r = false) ∧ Num.fgt g r = false ∧ (r = g ∨ ∃ k, k < h ∧ r = x k) := by
  induction h with
  | zero => exact ⟨fun k hk => by omega, by simp [Num.fgt], .inl rfl⟩
  | succ n ih =>
    obtain ⟨h2, h3, h4⟩ := ih fun k hk => hx k (by omega)
    have h1 := foldMax_not_nan (h := n) (x := x) hg
    have en := hx n (by omega)
    simp only [forUpTo_succ]
    generalize forUpTo n (fun k g => if Num.fgt (x k) g then x k else g) g = r at *
    have tr : ∀ a : Word, Num.isNaN a = false → Num.fgt a r = false → Num.fgt (x n) r = true →
        Num.fgt a (x n) = false := by
      intro a ha p q
      simp [Num.fgt, ha, en, h1] at *
      omega
    split
    · next hf =>
      refine ⟨fun k hk => ?_, tr _ hg h3 hf, .inr ⟨n, by omega, rfl⟩⟩
      by_cases hkn : k = n
      · subst hkn; simp [Num.fgt]
      · exact tr _ (hx k (by omega)) (h2 k (by omega)) hf
    · next hf =>
      refine ⟨fun k hk => ?_, h3, h4.imp id fun ⟨k, a, b⟩ => ⟨k, by omega, b⟩⟩
      by_cases hkn : k = n
      · subst hkn; simpa using hf
      · exact h2 k (by omega)

end Sys2Proof.Machine
end

