-- ==== Sys2Proof/Laws/Decode.lean ====
section
/-! SUPPORT. The laws of the command word's fields and of the four formats, one lemma each (30_encoding R70, R71). -/

namespace Sys2Proof

/-- The fields of a composed word are the parts it is composed of. -/
theorem commandWord_fields {opcode arg : Nat} (ho : opcode < 256) (ha : arg < 256) :
    opcodeOf (commandWord opcode arg) = BitVec.ofNat 8 opcode ∧ argOf (commandWord opcode arg) = BitVec.ofNat 8 arg ∧
      rsvOf (commandWord opcode arg) = 0#16 := by
  refine ⟨?_, ?_, ?_⟩ <;> apply BitVec.eq_of_toNat_eq <;>
    simp [opcodeOf, argOf, rsvOf, commandWord, BitVec.extractLsb'_toNat, Nat.shiftRight_eq_div_pow] <;> omega

/-- A word with `rsv = 0` is composed of its opcode and its operand field. -/
theorem commandWord_of_fields {w : Word} (h : rsvOf w = 0#16) :
    commandWord (opcodeOf w).toNat (argOf w).toNat = w := by
  apply BitVec.eq_of_toNat_eq
  have hr := congrArg BitVec.toNat h
  have hw := w.isLt
  simp [opcodeOf, argOf, rsvOf, commandWord, BitVec.extractLsb'_toNat, Nat.shiftRight_eq_div_pow] at hr ⊢
  omega

/-- A field of `arg` is the same bits of the word, eight higher. -/
theorem extract_argOf (w : Word) (k n : Nat) (h : k + n ≤ 8) :
    w.extractLsb' (8 + k) n = (argOf w).extractLsb' k n := by
  refine BitVec.eq_of_getLsbD_eq fun i hi => ?_
  simp only [argOf, BitVec.getLsbD_extractLsb', hi, decide_true, Bool.true_and, show k + i < 8 by omega]
  congr 1
  omega

theorem decodeZ_ok {i j : Instr} {arg : BitVec 8} (h : decodeZ i arg = .ok j) : arg = 0#8 ∧ j = i := by
  unfold decodeZ at h
  split at h <;> simp_all

/-- A decoded STAGE is well formed and its word has the operand field it was read from. -/
theorem decodeS_ok {arg : BitVec 8} {i : Instr} (h : decodeS arg = .ok i) :
    i.wellFormed = true ∧ encode i = commandWord 0x03 arg.toNat := by
  have key : ∀ arg : BitVec 8, (match decodeS arg with
      | .ok i => i.wellFormed && encode i == commandWord 0x03 arg.toNat
      | .error _ => true) = true := by decide +kernel
  have := key arg
  rw [h] at this
  simpa using this

/-- The word of a decoded DB has the operand field it was read from. -/
theorem decodeK_ok {arg : BitVec 8} {i : Instr} (h : decodeK arg = .ok i) :
    i.wellFormed = true ∧ encode i = commandWord 0x12 arg.toNat := by
  have key : ∀ arg : BitVec 8, (match decodeK arg with
      | .ok i => i.wellFormed && encode i == commandWord 0x12 arg.toNat
      | .error _ => true) = true := by decide +kernel
  have := key arg
  rw [h] at this
  simpa using this

/-- The word of a decoded ACLR has the operand field it was read from. -/
theorem decodeM_ok {arg : BitVec 8} {i : Instr} (h : decodeM arg = .ok i) :
    i.wellFormed = true ∧ encode i = commandWord 0x18 arg.toNat := by
  have key : ∀ arg : BitVec 8, (match decodeM arg with
      | .ok i => i.wellFormed && encode i == commandWord 0x18 arg.toNat
      | .error _ => true) = true := by decide +kernel
  have := key arg
  rw [h] at this
  simpa using this

/-- A legal word has `rsv = 0`. -/
theorem rsvOf_of_decode {w : Word} {i : Instr} (h : decode w = .ok i) : rsvOf w = 0#16 := by
  by_contra hr
  simp [decode, hr] at h

end Sys2Proof
end

