-- ==== Sys2Proof/Laws/Invariant.lean ====
section
/-! SUPPORT. The form of the buffers' storage under stores, loops and effects; the transform length under effects. -/

namespace Sys2Proof.Machine

/-- An empty storage has the form. -/
theorem memOk_nil : MemOk [] := ⟨rfl, fun a h => by simp at h⟩

/-- Every word of a buffer stands at an offset divisible by four. -/
theorem Buf.addr_aligned (b : Buf) (i : Nat) : b.addr i % 4 = 0 := by
  cases b <;> simp only [Buf.addr, Buf.base, Config.fullBufferBytes, Config.log2NMax] <;> omega

/-- A store into a buffer keeps the form of the storage. -/
theorem memOk_store {b : Buf} {m : Mem} {i : Nat} {v : Word} (h : MemOk m) : MemOk (b.store m i v) := by
  refine ⟨Buf.wf_store h.1, fun a ha => ?_⟩
  by_cases hi : i < b.words
  · have hal := Buf.addr_aligned b i
    have hin : ∀ c, b.addr i ≤ c → c < b.addr i + 4 → (Mem.get (b.store m i v) c).isSome = true := by
      intro c h1 h2
      have := Mem.get_setWord_byte (m := m) (a := b.addr i) (k := c - b.addr i) (w := v) (by omega)
      rw [Nat.add_sub_cancel' h1] at this
      simp [Buf.store, hi, this]
    by_cases hw : a / 4 = b.addr i / 4
    · refine ⟨⟨b, ?_⟩, fun c hc => hin c (by omega) (by omega)⟩
      simp only [Buf.addr] at hw hal
      omega
    · have hout : ∀ c, c / 4 = a / 4 → c < b.addr i ∨ b.addr i + 4 ≤ c := fun c hc => by omega
      rw [Buf.get_store_outside (hout a rfl)] at ha
      obtain ⟨h1, h2⟩ := h.2 a ha
      exact ⟨h1, fun c hc => by rw [Buf.get_store_outside (hout c hc)]; exact h2 c hc⟩
  · simp only [Buf.store, hi, if_false] at ha ⊢
    exact h.2 a ha

theorem memOk_swapWords {b : Buf} {d : Draw} {i j : Nat} {m : Mem} (h : MemOk m) : MemOk (swapWords b d i j m) :=
  memOk_store (memOk_store h)

theorem memOk_padMem {n len : Nat} {m : Mem} (h : MemOk m) : MemOk (padMem n len m) :=
  forUpTo_keeps MemOk (forUpTo_keeps MemOk h fun _ _ _ hx => memOk_store hx) fun _ _ _ hx => memOk_store hx

theorem memOk_bitrevMem {d : Draw} {len bits : Nat} {m : Mem} (h : MemOk m) : MemOk (bitrevMem d len bits m) := by
  refine forUpTo_keeps MemOk h fun i x _ hx => ?_
  dsimp only
  split
  · exact memOk_swapWords (memOk_swapWords hx)
  · exact hx

theorem memOk_butterfly {d : Draw} {w : Word × Word} {a b : Nat} {m : Mem} (h : MemOk m) :
    MemOk (butterfly d w a b m) := memOk_store (memOk_store (memOk_store (memOk_store h)))

theorem memOk_stageMem {d : Draw} {s len : Nat} {m : Mem} (h : MemOk m) : MemOk (stageMem d s len m) :=
  forUpTo_keeps MemOk h fun _ _ _ hx => forUpTo_keeps MemOk hx fun _ _ _ hy => memOk_butterfly hy

theorem memOk_bflyMem {d : Draw} {len bits : Nat} {m : Mem} (h : MemOk m) : MemOk (bflyMem d len bits m) :=
  forUpTo_keeps MemOk h fun _ _ _ hx => memOk_stageMem hx

theorem memOk_fillOut {n : Nat} {v : Word} {m : Mem} (h : MemOk m) : MemOk (fillOut n v m) :=
  forUpTo_keeps MemOk h fun _ _ _ hx => memOk_store hx

/-- Every effect keeps the form of the storage. -/
theorem memOk_effect {i : Instr} {d : Draw} {s : State} (h : MemOk s.mem) : MemOk (effectOf i d s).mem := by
  cases i <;> simp only [effectOf]
  case nop => exact h
  case aclr => exact h
  case maxu => exact h
  case pad => exact memOk_padMem h
  case bitrev => exact memOk_bitrevMem h
  case stage => exact memOk_stageMem h
  case bfly => exact memOk_bflyMem h
  case fft => exact memOk_bflyMem (memOk_bitrevMem (memOk_padMem h))
  case wgen =>
    simp only [wgenEffect, wgenMem]
    split
    · exact memOk_store h
    · exact forUpTo_keeps MemOk h fun _ _ _ hx => memOk_store hx
  case wapply => exact forUpTo_keeps MemOk h fun _ _ _ hx => memOk_store hx
  case mag => exact forUpTo_keeps MemOk h fun _ _ _ hx => memOk_store hx
  case db => exact forUpTo_keeps (fun x : Mem × Word => MemOk x.1) h fun _ _ _ hx => memOk_store hx
  case dbn =>
    simp only [dbnEffect]
    split
    · exact forUpTo_keeps MemOk h fun _ _ _ hx => memOk_store hx
    · exact memOk_fillOut h
  case logc =>
    simp only [logcEffect]
    split
    · exact forUpTo_keeps MemOk h fun _ _ _ hx => memOk_store hx
    · exact memOk_fillOut h
  case faxis => exact forUpTo_keeps MemOk h fun _ _ _ hx => memOk_store hx

/-- Only PAD and FFT write `NFFT` and `LOG2N`. -/
theorem effect_keeps_length {i : Instr} {d : Draw} {s : State} (h1 : i ≠ .pad) (h2 : i ≠ .fft) :
    (effectOf i d s).nfft = s.nfft ∧ (effectOf i d s).log2n = s.log2n := by
  cases i
  case pad => exact absurd rfl h1
  case fft => exact absurd rfl h2
  case dbn => simp only [effectOf, dbnEffect]; split <;> exact ⟨rfl, rfl⟩
  case logc => simp only [effectOf, logcEffect]; split <;> exact ⟨rfl, rfl⟩
  all_goals exact ⟨rfl, rfl⟩

/-- Only DBN and LOGC write a flag, and they only set `DEGEN`. -/
theorem effect_keeps_degen {i : Instr} {d : Draw} {s : State} (h1 : i ≠ .dbn) (h2 : i ≠ .logc) :
    (effectOf i d s).status = s.status := by
  cases i
  case dbn => exact absurd rfl h1
  case logc => exact absurd rfl h2
  all_goals rfl

/-- No effect clears `DEGEN`. -/
theorem effect_degen_rises {i : Instr} {d : Draw} {s : State} (h : s.status.degen = true) :
    (effectOf i d s).status.degen = true := by
  cases i
  case dbn => simp only [effectOf, dbnEffect]; split <;> first | exact h | rfl
  case logc => simp only [effectOf, logcEffect]; split <;> first | exact h | rfl
  all_goals exact h

end Sys2Proof.Machine
end

