-- ==== Sys2Proof/Laws/Num.lean ====
section
/-! SUPPORT. The laws of the float format and of the one rounding: sign and magnitude of a word, the order of the
magnitudes, and that a value of the format rounds to itself (00_scope R6, R8 (a)). -/

namespace Sys2Proof.Machine.Num

/-! ### Sign and magnitude -/

theorem magBits_lt (w : Word) : magBits w < 2 ^ 31 := Nat.mod_lt _ (by decide)

theorem toNat_eq (w : Word) : w.toNat = (if sign w then 2 ^ 31 else 0) + magBits w := by
  have := w.isLt
  simp only [sign, BitVec.msb_eq_decide, magBits, decide_eq_true_eq]
  split <;> omega

theorem toNat_pack {s : Bool} {m : Nat} (h : m < 2 ^ 31) : (pack s m).toNat = (if s then 2 ^ 31 else 0) + m := by
  simp only [pack, BitVec.toNat_ofNat]
  cases s <;> (simp; omega)

/-- A word is its sign and its magnitude. -/
@[simp] theorem pack_sign_magBits (w : Word) : pack (sign w) (magBits w) = w := by
  apply BitVec.eq_of_toNat_eq
  rw [toNat_pack (magBits_lt w), toNat_eq w]

theorem sign_pack {s : Bool} {m : Nat} (h : m < 2 ^ 31) : sign (pack s m) = s := by
  simp only [sign, BitVec.msb_eq_decide, toNat_pack h]
  cases s
  · simpa using h
  · simp

theorem magBits_pack {s : Bool} {m : Nat} (h : m < 2 ^ 31) : magBits (pack s m) = m := by
  simp only [magBits, toNat_pack h]
  cases s <;> simp <;> omega

/-- Two words with one sign and one magnitude are one. -/
theorem eq_of_sign_magBits {a b : Word} (hs : sign a = sign b) (hm : magBits a = magBits b) : a = b := by
  rw [← pack_sign_magBits a, hs, hm, pack_sign_magBits]

@[simp] theorem sign_fneg (w : Word) : sign (fneg w) = !sign w := by
  rw [sign, fneg, BitVec.msb_xor, show (0x80000000#32).msb = true by decide, Bool.xor_true]
  rfl

@[simp] theorem magBits_fneg (w : Word) : magBits (fneg w) = magBits w := by
  rw [magBits, magBits, fneg, BitVec.toNat_xor, show (0x80000000#32).toNat = 2 ^ 31 by decide]
  apply Nat.eq_of_testBit_eq
  intro i
  simp only [Nat.testBit_mod_two_pow, Nat.testBit_xor]
  by_cases hi : i < 31
  · have h : (2 ^ 31).testBit i = false := by rw [Nat.testBit_two_pow]; simpa using by omega
    rw [h, Bool.xor_false]
  · simp [hi]

@[simp] theorem units_fneg (w : Word) : units (fneg w) = units w := by simp [units]

@[simp] theorem intUnits_fneg (w : Word) : intUnits (fneg w) = -intUnits w := by
  simp only [intUnits, sign_fneg, units_fneg]
  cases sign w <;> simp

/-! ### Units -/

/-- Only the magnitude zero has no units. -/
theorem unitsOf_eq_zero {m : Nat} : unitsOf m = 0 ↔ m = 0 := by
  unfold unitsOf
  split
  · rfl
  · next h =>
    have : 0 < (2 ^ 23 + m % 2 ^ 23) * 2 ^ (m / 2 ^ 23 - 1) := Nat.mul_pos (by omega) (Nat.two_pow_pos _)
    constructor
    · intro e; omega
    · rintro rfl; exact absurd rfl h

/-- The next magnitude has more units. -/
theorem unitsOf_lt_succ (m : Nat) : unitsOf m < unitsOf (m + 1) := by
  unfold unitsOf
  have hp := Nat.two_pow_pos (m / 2 ^ 23 - 1)
  by_cases h1 : (m + 1) / 2 ^ 23 = m / 2 ^ 23
  · have hm : (m + 1) % 2 ^ 23 = m % 2 ^ 23 + 1 := by omega
    rw [h1, hm]
    split
    · omega
    · exact Nat.mul_lt_mul_of_pos_right (by omega) hp
  · have h2 : (m + 1) / 2 ^ 23 = m / 2 ^ 23 + 1 := by omega
    have h3 : (m + 1) % 2 ^ 23 = 0 := by omega
    have h4 : m % 2 ^ 23 = 2 ^ 23 - 1 := by omega
    rw [h2, h3, h4]
    by_cases h0 : m / 2 ^ 23 = 0
    · simp only [h0, if_true, Nat.zero_add, Nat.one_ne_zero, if_false]; omega
    · rw [if_neg h0, if_neg (by omega)]
      obtain ⟨k, hk⟩ : ∃ k, m / 2 ^ 23 = k + 1 := ⟨m / 2 ^ 23 - 1, by omega⟩
      rw [hk, show k + 1 + 1 - 1 = k + 1 by omega, show k + 1 - 1 = k by omega, Nat.pow_succ]
      have hq := Nat.two_pow_pos k
      omega

/-- Magnitudes are ordered as their units. -/
theorem unitsOf_strictMono : StrictMono unitsOf := strictMono_nat_of_lt_succ unitsOf_lt_succ

/-! ### The rounding -/

theorem divRoundEven_mul {k d : Nat} (h : 0 < d) : divRoundEven (k * d) d = k := by
  simp [divRoundEven, Nat.mul_mod_left, Nat.mul_div_cancel _ h, h.ne]

/-- Zero rounds to zero. -/
@[simp] theorem roundMag_zero (d : Nat) : roundMag 0 d = 0 := by simp [roundMag, divRoundEven]

/-- A value of the format rounds to itself, whatever denominator it is written with. -/
theorem roundMag_exact {m d : Nat} (hm : m < infBits) (hd : 0 < d) : roundMag (unitsOf m * d) d = m := by
  simp only [roundMag, Nat.mul_div_cancel _ hd]
  have hle : m ≤ infBits := by omega
  unfold unitsOf
  split
  · next h =>
    have he : Nat.log2 m - 23 = 0 := by
      by_cases h0 : m = 0
      · subst h0; decide
      · have : Nat.log2 m < 23 := (Nat.log2_lt h0).2 (by omega)
        omega
    simp [he, divRoundEven_mul hd, hle]
  · next h =>
    have he : Nat.log2 ((2 ^ 23 + m % 2 ^ 23) * 2 ^ (m / 2 ^ 23 - 1)) = 23 + (m / 2 ^ 23 - 1) := by
      rw [Nat.log2_eq_iff (by positivity), Nat.pow_add, Nat.pow_add, Nat.pow_add]
      have hp := Nat.two_pow_pos (m / 2 ^ 23 - 1)
      have hf : m % 2 ^ 23 < 2 ^ 23 := Nat.mod_lt _ (by decide)
      constructor
      · exact Nat.mul_le_mul_right _ (by omega)
      · rw [Nat.mul_right_comm]
        exact Nat.mul_lt_mul_of_pos_right (by omega) hp
    rw [he, Nat.add_sub_cancel_left, Nat.mul_assoc, Nat.mul_comm (2 ^ (m / 2 ^ 23 - 1)) d,
      divRoundEven_mul (Nat.mul_pos hd (Nat.two_pow_pos _))]
    omega

/-- The whole number rounded to is at most a half away, and even where it is a half away. -/
theorem divRoundEven_spec {n d k : Nat} (hd : 0 < d) (hk : divRoundEven n d = k) :
    2 * n ≤ d * k * 2 + d ∧ d * k * 2 ≤ 2 * n + d ∧ (2 * n = d * k * 2 + d → k % 2 = 0) ∧
      (d * k * 2 = 2 * n + d → k % 2 = 0) := by
  have h1 := Nat.div_add_mod n d
  have h2 := Nat.mod_lt n hd
  unfold divRoundEven at hk
  split at hk
  · subst hk
    rw [Nat.mul_add, Nat.mul_one]
    generalize d * (n / d) = p at *
    omega
  · subst hk
    generalize d * (n / d) = p at *
    omega

/-- The units of the magnitude `k` steps above the start of binade `e`, up to the next binade's start. -/
theorem unitsOf_binade {e k : Nat} (hk : k ≤ 2 ^ 24) (h : e ≠ 0 → 2 ^ 23 ≤ k) : unitsOf (e * 2 ^ 23 + k) = k * 2 ^ e := by
  by_cases h1 : k = 2 ^ 24
  · subst h1
    have : (e * 2 ^ 23 + 2 ^ 24) / 2 ^ 23 = e + 2 := by omega
    have h3 : (e * 2 ^ 23 + 2 ^ 24) % 2 ^ 23 = 0 := by omega
    rw [unitsOf, this, h3, if_neg (by omega), show e + 2 - 1 = e + 1 by omega, Nat.pow_succ 2 e]
    omega
  by_cases h2 : 2 ^ 23 ≤ k
  · have : (e * 2 ^ 23 + k) / 2 ^ 23 = e + 1 := by omega
    have h3 : 2 ^ 23 + (e * 2 ^ 23 + k) % 2 ^ 23 = k := by omega
    rw [unitsOf, this, if_neg (by omega), h3, show e + 1 - 1 = e by omega]
  · have he : e = 0 := by by_contra he; exact h2 (h he)
    subst he
    rw [unitsOf, if_pos (by omega)]; simp

/-- A magnitude lies on the grid of binade `e`, or below that binade. -/
theorem unitsOf_grid (e x : Nat) : (∃ j, unitsOf x = j * 2 ^ e) ∨ (0 < e ∧ unitsOf x < 2 ^ 23 * 2 ^ e) := by
  by_cases he : e = 0
  · subst he; exact .inl ⟨unitsOf x, by simp⟩
  by_cases hx : e + 1 ≤ x / 2 ^ 23
  · left
    refine ⟨(2 ^ 23 + x % 2 ^ 23) * 2 ^ (x / 2 ^ 23 - 1 - e), ?_⟩
    rw [unitsOf, if_neg (by omega), Nat.mul_assoc, ← Nat.pow_add]
    congr 2; omega
  · right
    refine ⟨by omega, ?_⟩
    have h := unitsOf_binade (e := e) (k := 2 ^ 23) (by decide) (fun _ => le_refl _)
    rw [← h]
    exact unitsOf_strictMono (by omega)

/-- What is rounded to has no sign bit. -/
theorem roundMag_lt (n d : Nat) : roundMag n d < 2 ^ 31 := lt_of_le_of_lt (Nat.min_le_right _ _) (by decide)

/-! ### The root of a whole number -/

theorem isqrtFrom_spec (n k acc : Nat) (h1 : acc * acc ≤ n) (h2 : n < (acc + 2 ^ k) * (acc + 2 ^ k)) :
    isqrtFrom n k acc * isqrtFrom n k acc ≤ n ∧ n < (isqrtFrom n k acc + 1) * (isqrtFrom n k acc + 1) := by
  induction k generalizing acc with
  | zero => exact ⟨h1, h2⟩
  | succ k ih =>
    unfold isqrtFrom
    split
    · next h =>
      refine ih _ h ?_
      rw [Nat.add_assoc, ← Nat.two_mul, Nat.mul_comm 2, ← Nat.pow_succ]; exact h2
    · next h => exact ih _ h1 (not_le.1 h)

/-- `isqrt` is the whole part of the root. -/
theorem isqrt_spec (n : Nat) (h : n < 2 ^ 256 * 2 ^ 256) : isqrt n * isqrt n ≤ n ∧ n < (isqrt n + 1) * (isqrt n + 1) :=
  isqrtFrom_spec n 256 0 (by rw [Nat.zero_mul]; exact Nat.zero_le _) (by rw [Nat.zero_add]; exact h)

/-! ### Finite operands -/

/-- A finite float is no NaN and no infinity. -/
theorem finite_cases {w : Word} (h : fisfinite w = true) : isNaN w = false ∧ isInf w = false ∧ magBits w < infBits := by
  simp only [fisfinite, decide_eq_true_eq] at h
  simp only [isNaN, isInf, decide_eq_false_iff_not]
  omega

/-- On finite operands the sum uses no draw. -/
theorem fadd_finite {a b : Word} (d : Draw) (ha : fisfinite a = true) (hb : fisfinite b = true) :
    fadd d a b = roundInt (intUnits a + intUnits b) 1 (sign a && sign b) := by
  simp [fadd, finite_cases ha, finite_cases hb]

/-- On finite operands the product uses no draw. -/
theorem fmul_finite {a b : Word} (d : Draw) (ha : fisfinite a = true) (hb : fisfinite b = true) :
    fmul d a b = pack (sign a != sign b) (roundMag (units a * units b) (2 ^ 149)) := by
  simp [fmul, finite_cases ha, finite_cases hb]

theorem fisfinite_fneg {w : Word} (h : fisfinite w = true) : fisfinite (fneg w) = true := by
  simpa [fisfinite] using h

/-- On finite operands the difference uses no draw. -/
theorem fsub_finite {a b : Word} (d : Draw) (ha : fisfinite a = true) (hb : fisfinite b = true) :
    fsub d a b = roundInt (intUnits a - intUnits b) 1 (sign a && !sign b) := by
  rw [fsub, fadd_finite d ha (fisfinite_fneg hb), intUnits_fneg, sign_fneg, Int.sub_eq_add_neg]

/-- On finite operands, the second not zero, the quotient uses no draw. -/
theorem fdiv_finite {a b : Word} (d : Draw) (ha : fisfinite a = true) (hb : fisfinite b = true) (h0 : feq0 b = false) :
    fdiv d a b = pack (sign a != sign b) (roundMag (units a * 2 ^ 149) (units b)) := by
  simp [fdiv, finite_cases ha, finite_cases hb, h0]

end Sys2Proof.Machine.Num
end

