-- ==== Sys2Proof/Laws/PerInstr.lean ====
section
/-! SUPPORT. Statements for all commands, one lemma per constructor. EncodeInRow: the word a command encodes to lies in the
command's own row of the opcode table, `w AND mask = match` (30_encoding R73). -/

namespace Sys2Proof.Laws.EncodeInRow

/-- The word of the command lies in its row. -/
def Statement (i : Instr) : Prop := encode i &&& encodingMask i = encodingMatch i

theorem nop : Statement .nop := by unfold Statement; decide
theorem pad : Statement .pad := by unfold Statement; decide
theorem bitrev : Statement .bitrev := by unfold Statement; decide
theorem stage (s : Nat) : Statement (.stage s) := by
  have h : ∀ k : Fin 32, commandWord 0x03 k.val &&& 0xFFFFE0FF#32 = 0x00000003#32 := by decide
  exact h ⟨s % 32, Nat.mod_lt _ (by decide)⟩
theorem bfly : Statement .bfly := by unfold Statement; decide
theorem fft : Statement .fft := by unfold Statement; decide
theorem wgen : Statement .wgen := by unfold Statement; decide
theorem wapply : Statement .wapply := by unfold Statement; decide
theorem mag : Statement .mag := by unfold Statement; decide
theorem maxu : Statement .maxu := by unfold Statement; decide
theorem db (keep : Bool) : Statement (.db keep) := by cases keep <;> (unfold Statement; decide)
theorem dbn : Statement .dbn := by unfold Statement; decide
theorem logc : Statement .logc := by unfold Statement; decide
theorem faxis : Statement .faxis := by unfold Statement; decide
theorem aclr (m : BitVec 2) : Statement (.aclr m) := by
  revert m
  unfold Statement
  decide

end Sys2Proof.Laws.EncodeInRow
end

