-- ==== Sys2Proof/Laws/Step.lean ====
section
/-! SUPPORT. What one step can do, said once, and that it stops only with the fault of a `CUR` that is no command. -/

namespace Sys2Proof.Machine

/-- The state with its next move taken off the agenda. -/
def popped (s : State) : State := { s with agenda := s.agenda.tail }

/-- The engine's turn. -/
theorem engineTurn_cases {s t : State} (h : engineTurn s = .next t) :
    (s.status.busy = false ∧ t = s) ∨
    (s.status.busy = true ∧ ∃ i, decode s.cur = .ok i ∧ t = finish (effectOf i (drawOf s) s)) := by
  unfold engineTurn at h
  split at h
  · next hb =>
    split at h
    · next i hi => rw [exec_busy hb] at h; cases h; exact .inr ⟨hb, i, hi, rfl⟩
    · cases h
  · next hb => cases h; exact .inl ⟨by simpa using hb, rfl⟩

/-- The engine's turn leads on wherever `CUR` is a command. -/
theorem engineTurn_next {s : State} (h : CurOk s) : ∃ t, engineTurn s = .next t := by
  obtain ⟨i, hi⟩ := h
  unfold engineTurn
  split
  · next hb => rw [hi]; exact ⟨_, exec_busy hb⟩
  · exact ⟨_, rfl⟩

/-- What `takePin` takes is a move of the pin. -/
theorem takePin_isPin {l rest : List Move} {m : Move} (h : takePin l = some (m, rest)) : m = .resetLow ∨ m = .resetHigh := by
  induction l generalizing rest with
  | nil => cases h
  | cons x l ih =>
    simp only [takePin] at h
    split at h
    · next hx => cases h; cases m <;> simp_all [Move.isPin]
    · split at h
      · next p others hp => cases h; exact ih hp
      · cases h

/-- Without a move of the pin there is none to take. -/
theorem takePin_none {l : List Move} (h : ∀ m ∈ l, m.isPin = false) : takePin l = none := by
  induction l with
  | nil => rfl
  | cons x l ih =>
    simp [takePin, h x (by simp), ih fun m hm => h m (by simp [hm])]

/-- The first move of the pin is taken past the moves before it. -/
theorem takePin_append {l rest : List Move} {p : Move} (h : ∀ m ∈ l, m.isPin = false) (hp : p.isPin = true) :
    takePin (l ++ p :: rest) = some (p, l ++ rest) := by
  induction l with
  | nil => simp [takePin, hp]
  | cons x l ih => simp [takePin, h x (by simp), ih fun m hm => h m (by simp [hm])]

/-- With `rst_n` high a step makes the next move of the agenda. -/
theorem step_move {s : State} {m : Move} {rest : List Move} (h : s.rstN = true) (ha : s.agenda = m :: rest) :
    step s = perform m { s with agenda := rest } := by
  unfold step nextMove activeMove
  rw [if_pos h, ha]

/-- With `rst_n` high and no move to come a step is the engine's turn. -/
theorem step_turn {s : State} (h : s.rstN = true) (ha : s.agenda = []) : step s = engineTurn s := by
  unfold step nextMove activeMove
  rw [if_pos h, ha]

/-- The engine's turn with a command in flight is its `Complete`. -/
theorem engineTurn_busy {s : State} {i : Instr} (hb : s.status.busy = true) (hi : decode s.cur = .ok i) :
    engineTurn s = .next (finish (effectOf i (drawOf s) s)) := by
  rw [engineTurn, if_pos hb, hi]
  exact exec_busy hb

/-- The step that issues a command whose checks pass accepts it (60_exceptions R163, R169). -/
theorem step_accepts {s : State} {i : Instr} {rest : List Move} (hr : s.rstN = true) (hs : Ready s)
    (hd : decode (encode i) = .ok i) (hc : issueCheck i s = none)
    (ha : s.agenda = .write .word cmdOffset (encode i) :: rest) :
    step s = .next { accept (encode i) s with agenda := rest, resp := .ok } := by
  have tgt : target .word cmdOffset = some (.reg .cmd) := by decide
  have hc' : issueCheck i (respond .ok { s with agenda := rest }) = none := by rw [← hc]; cases i <;> rfl
  rw [step_move hr ha]
  simp only [perform, hostWrite, tgt, hostCommand, hd]
  rw [if_neg (by simp [respond, hs.1]), exec_idle (by exact hs.1), issue_accepts (by exact hs.2) hc']
  rfl

/-- What a step can do: nothing to the block; a `Complete`; the fall of `rst_n`; the reset; a read; a write. -/
theorem step_cases {s t : State} (h : step s = .next t) :
    (∃ rest, t = { s with agenda := rest }) ∨
    (s.rstN = true ∧ s.status.busy = true ∧ ∃ i, decode s.cur = .ok i ∧
      t = finish (effectOf i (drawOf s) (popped s))) ∨
    (∃ rest, t = { s with agenda := rest, rstN := false }) ∨
    (s.rstN = false ∧ ∃ rest, t = resetBlock { s with agenda := rest }) ∨
    (s.rstN = true ∧ ∃ width off, s.agenda = .read width off :: t.agenda ∧ t = hostRead width off (popped s)) ∨
    (s.rstN = true ∧ ∃ width off v, s.agenda = .write width off v :: (popped s).agenda ∧
      hostWrite width off v (popped s) = .next t) := by
  unfold step nextMove at h
  split at h
  · next hr =>
    unfold activeMove at h
    split at h
    · next ha =>
      have hp : popped s = s := by cases s; simp_all [popped]
      rcases engineTurn_cases h with ⟨-, rfl⟩ | ⟨h2, i, hi, rfl⟩
      · exact .inl ⟨_, rfl⟩
      · exact .inr (.inl ⟨hr, h2, i, hi, by rw [hp]⟩)
    · next m rest ha =>
      have hp : { s with agenda := rest } = popped s := by simp [popped, ha]
      rw [hp] at h
      cases m with
      | read width off =>
        cases h
        refine .inr (.inr (.inr (.inr (.inl ⟨hr, width, off, ?_, rfl⟩))))
        rw [hostRead_frame, ha]
        simp [popped, ha]
      | write width off v =>
        exact .inr (.inr (.inr (.inr (.inr ⟨hr, width, off, v, by simp [popped, ha], h⟩))))
      | complete =>
        rcases engineTurn_cases h with ⟨-, rfl⟩ | ⟨h2, i, hi, rfl⟩
        · exact .inl ⟨_, rfl⟩
        · exact .inr (.inl ⟨hr, h2, i, hi, rfl⟩)
      | resetLow => cases h; exact .inr (.inr (.inl ⟨_, rfl⟩))
      | resetHigh =>
        simp only [perform, raiseReset, show (popped s).rstN = true from hr, if_true] at h
        cases h
        exact .inl ⟨_, rfl⟩
  · next hr =>
    have hr : s.rstN = false := by simpa using hr
    unfold heldMove at h
    split at h
    · next m rest hm =>
      rcases takePin_isPin hm with rfl | rfl
      · cases h; exact .inr (.inr (.inl ⟨_, rfl⟩))
      · simp only [perform, raiseReset, hr, Bool.false_eq_true, if_false] at h
        cases h
        exact .inr (.inr (.inr (.inl ⟨hr, _, rfl⟩)))
    · cases h; exact .inl ⟨_, rfl⟩

/-- With `rst_n` high, one step makes the move. -/
theorem takes_iff {m : Move} {s t : State} (h : s.rstN = true) : Takes m s t ↔ perform m s = .next t := by
  unfold Takes
  rw [step_move (s := { s with agenda := m :: s.agenda }) h rfl]

/-- A step whose move is a read, with `rst_n` high. -/
theorem takes_read {width : Width} {off : Offset} {s t : State} (h : s.rstN = true) :
    Takes (.read width off) s t ↔ hostRead width off s = t :=
  (takes_iff h).trans ⟨Host.Outcome.next.inj, congrArg _⟩

/-- A step whose move is a write, with `rst_n` high. -/
theorem takes_write {width : Width} {off : Offset} {v : Word} {s t : State} (h : s.rstN = true) :
    Takes (.write width off v) s t ↔ hostWrite width off v s = .next t := takes_iff h

end Sys2Proof.Machine
end

