-- ==== Sys2Proof/Laws/Transform.lean ====
section
/-! SUPPORT. What the loops of the transform commands leave in the buffers, in the terms of Safety.lean: one lemma per loop of
Machine/Transform.lean. -/

namespace Sys2Proof.Machine

/-! ### Bit reversal of an index -/

theorem rev_lt (l i : Nat) : rev l i < 2 ^ l := by
  induction l generalizing i with
  | zero => simp [rev]
  | succ l ih =>
    have h1 := ih (i / 2)
    have h2 : i % 2 < 2 := Nat.mod_lt _ (by decide)
    have h3 : i % 2 * 2 ^ l ≤ 1 * 2 ^ l := Nat.mul_le_mul_right _ (by omega)
    simp only [rev, Nat.pow_succ]
    omega

/-- Reversing one bit more puts the top bit at the bottom. -/
theorem rev_top (l c x : Nat) (hx : x < 2 ^ l) (hc : c < 2) : rev (l + 1) (c * 2 ^ l + x) = 2 * rev l x + c := by
  induction l generalizing x with
  | zero =>
    have : x = 0 := by simpa using hx
    subst this
    simp [rev, Nat.mod_eq_of_lt hc]
  | succ l ih =>
    have e : c * 2 ^ (l + 1) + x = 2 * (c * 2 ^ l + x / 2) + x % 2 := by rw [Nat.pow_succ]; ring_nf; omega
    have hx' : x / 2 < 2 ^ l := by rw [Nat.pow_succ] at hx; omega
    rw [rev, e, show (2 * (c * 2 ^ l + x / 2) + x % 2) % 2 = x % 2 by omega,
      show (2 * (c * 2 ^ l + x / 2) + x % 2) / 2 = c * 2 ^ l + x / 2 by omega, ih _ hx', rev]
    rw [Nat.pow_succ]; ring

theorem rev_rev (l i : Nat) (h : i < 2 ^ l) : rev l (rev l i) = i := by
  induction l generalizing i with
  | zero => simp at h; subst h; rfl
  | succ l ih =>
    have h' : i / 2 < 2 ^ l := by rw [Nat.pow_succ] at h; omega
    rw [show rev (l + 1) i = i % 2 * 2 ^ l + rev l (i / 2) from rfl, rev_top _ _ _ (rev_lt _ _) (by omega), ih _ h']
    omega

/-! ### PAD -/

/-- PAD's two loops fill the padding and `IM` with +0.0 and change nothing else (41_fft R111). -/
theorem padMem_spec {n len : Nat} {m : Mem} (hl : len ≤ Config.nMax) : PadRel n len m (padMem n len m) := by
  have hre : ∀ m : Mem, (∀ i, n ≤ i → i < len → Buf.re.peek (forRange n len (fun i m => Buf.store .re m i Num.zero) m) i =
      some Num.zero) ∧ ∀ a, Outside .re n len a →
        Mem.get (forRange n len (fun i m => Buf.store .re m i Num.zero) m) a = Mem.get m a := by
    intro m
    by_cases hn : n ≤ len
    · have h := storeLoop_spec (b := .re) (n := len - n) (lo := n) (f := fun _ _ => Num.zero) (m := m)
        (by rw [Nat.add_sub_cancel' hn]; exact hl) (fun _ _ _ _ => rfl)
      rw [Nat.add_sub_cancel' hn] at h
      refine ⟨fun i h1 h2 => ?_, h.2⟩
      have := h.1 (i - n) (by omega)
      rwa [Nat.add_sub_cancel' h1] at this
    · have e : len - n = 0 := by omega
      refine ⟨fun i h1 h2 => by omega, fun a _ => ?_⟩
      simp [forRange, e]
  obtain ⟨h1, h2⟩ := hre m
  obtain ⟨h3, h4⟩ := storeLoop_spec_zero (b := .im) (n := len) (f := fun _ _ => Num.zero)
    (m := forRange n len (fun i m => Buf.store .re m i Num.zero) m) hl (fun _ _ _ _ => rfl)
  refine ⟨fun i hi hi' => ?_, h3, fun a ha hb => ?_⟩
  · rw [← h1 i hi hi']
    exact peek_of_outside (b := .im) hl (.inl (by decide)) h4
  · exact (h4 a hb).trans (h2 a ha)

/-! ### BITREV -/

/-- A swap exchanges two written words of a buffer and changes nothing else. -/
theorem swapWords_spec {b : Buf} {d : Draw} {i j : Nat} {m : Mem} (hi : i < b.words) (hj : j < b.words) (hij : i ≠ j) :
    (∀ w, b.peek m j = some w → b.peek (swapWords b d i j m) i = some w) ∧
    (∀ w, b.peek m i = some w → b.peek (swapWords b d i j m) j = some w) ∧
    (∀ c k, (c ≠ b ∨ (k ≠ i ∧ k ≠ j)) → c.peek (swapWords b d i j m) k = c.peek m k) ∧
    (∀ a, (a < b.addr i ∨ b.addr i + 4 ≤ a) → (a < b.addr j ∨ b.addr j + 4 ≤ a) →
      Mem.get (swapWords b d i j m) a = Mem.get m a) := by
  refine ⟨fun w hw => ?_, fun w hw => ?_, fun c k h => ?_, fun a h1 h2 => ?_⟩
  · simp only [swapWords]
    rw [Buf.peek_store_other (.inr (Ne.symm hij)), Buf.peek_store_self hi]
    simp [Buf.load, hw]
  · simp only [swapWords]
    rw [Buf.peek_store_self hj]
    simp [Buf.load, hw]
  · simp only [swapWords]
    rw [Buf.peek_store_other (h.imp Ne.symm fun h => Ne.symm h.2), Buf.peek_store_other (h.imp Ne.symm fun h => Ne.symm h.1)]
  · simp only [swapWords]
    rw [Buf.get_store_outside h2, Buf.get_store_outside h1]

/-- BITREV's loop reverses the indices of the written words of `RE` and `IM` and changes nothing else (41_fft R112). -/
theorem bitrevMem_spec {d : Draw} {bits : Nat} {m : Mem} (hb : 2 ^ bits ≤ Config.nMax) :
    BitrevRel .re bits m (bitrevMem d (2 ^ bits) bits m) ∧ BitrevRel .im bits m (bitrevMem d (2 ^ bits) bits m) ∧
      OnlyComplex (2 ^ bits) m (bitrevMem d (2 ^ bits) bits m) := by
  have key := forUpTo_induction (n := 2 ^ bits) (a := m)
    (f := fun i m => if i < rev bits i then
      swapWords .im ((d.site i).site 1) i (rev bits i) (swapWords .re ((d.site i).site 0) i (rev bits i) m) else m)
    (fun k x => (∀ b : Buf, b = .re ∨ b = .im → ∀ i, i < 2 ^ bits →
        ((i < k ∨ rev bits i < k) → ∀ w, b.peek m (rev bits i) = some w → b.peek x i = some w) ∧
        ((k ≤ i ∧ k ≤ rev bits i) ∨ i = rev bits i → b.peek x i = b.peek m i)) ∧ OnlyComplex (2 ^ bits) m x)
    ⟨fun b _ i _ => ⟨fun h => by omega, fun _ => rfl⟩, fun _ _ _ => rfl⟩ ?_
  · obtain ⟨h1, h2⟩ := key
    exact ⟨fun i hi w hw => (h1 .re (.inl rfl) i hi).1 (.inl hi) w hw,
      fun i hi w hw => (h1 .im (.inr rfl) i hi).1 (.inl hi) w hw, h2⟩
  rintro k x hk ⟨hx, hfr⟩
  have hj := rev_lt bits k
  have hrr := rev_rev bits k hk
  set j := rev bits k with hjdef
  -- an index whose pair is settled in this round is k or j
  have hcase : ∀ i, i < 2 ^ bits → rev bits i = k → i = j := fun i hi h => by
    rw [hjdef, ← h, rev_rev bits i hi]
  by_cases hlt : k < j
  · simp only [hlt, if_true]
    have hkw : k < Config.nMax := by omega
    have hjw : j < Config.nMax := by omega
    obtain ⟨r1, r2, r3, r4⟩ := swapWords_spec (b := .re) (d := (d.site k).site 0) (i := k) (j := j) (m := x) hkw hjw (by omega)
    set y := swapWords .re ((d.site k).site 0) k j x
    obtain ⟨q1, q2, q3, q4⟩ := swapWords_spec (b := .im) (d := (d.site k).site 1) (i := k) (j := j) (m := y) hkw hjw (by omega)
    set z := swapWords .im ((d.site k).site 1) k j y
    refine ⟨fun b hbuf i hi => ?_, fun a ha hb' => ?_⟩
    · have hxk := (hx b hbuf k hk).2 (.inl ⟨by omega, by omega⟩)
      have hxj := (hx b hbuf j hj).2 (.inl ⟨by omega, by omega⟩)
      have zk : ∀ w, b.peek m j = some w → b.peek z k = some w := by
        intro w hw
        rcases hbuf with rfl | rfl
        · rw [q3 .re k (.inl (by decide))]; exact r1 w (hxj.trans hw)
        · refine q1 w ?_; rw [r3 .im j (.inl (by decide))]; exact hxj.trans hw
      have zj : ∀ w, b.peek m k = some w → b.peek z j = some w := by
        intro w hw
        rcases hbuf with rfl | rfl
        · rw [q3 .re j (.inl (by decide))]; exact r2 w (hxk.trans hw)
        · refine q2 w ?_; rw [r3 .im k (.inl (by decide))]; exact hxk.trans hw
      have zo : ∀ i, i ≠ k → i ≠ j → b.peek z i = b.peek x i := by
        intro i h1 h2
        rw [q3 b i (.inr ⟨h1, h2⟩), r3 b i (.inr ⟨h1, h2⟩)]
      by_cases hik : i = k
      · subst hik
        exact ⟨fun _ w hw => zk w hw, fun h => by omega⟩
      by_cases hij : i = j
      · subst hij
        refine ⟨fun _ w hw => zj w (by rwa [hrr] at hw), fun h => by omega⟩
      have hri : rev bits i ≠ k := fun h => hij (hcase i hi h)
      rw [zo i hik hij]
      exact ⟨fun h => (hx b hbuf i hi).1 (by omega), fun h => (hx b hbuf i hi).2 (by omega)⟩
    · have h1 := ha k (by omega) hk
      have h2 := ha j (by omega) hj
      have h3 := hb' k (by omega) hk
      have h4 := hb' j (by omega) hj
      rw [q4 a h3 h4, r4 a h1 h2]
      exact hfr a ha hb'
  · simp only [hlt, if_false]
    refine ⟨fun b hbuf i hi => ⟨fun h w hw => ?_, fun h => (hx b hbuf i hi).2 (by omega)⟩, hfr⟩
    by_cases hs : i = rev bits i
    · rw [(hx b hbuf i hi).2 (.inr hs), ← hw, ← hs]
    · refine (hx b hbuf i hi).1 ?_ w hw
      by_cases hik : i = k
      · subst hik; omega
      · by_cases hrk : rev bits i = k
        · have := hcase i hi hrk; omega
        · omega

/-! ### STAGE -/

/-- Two storages agree on a word of `RE` and of `IM`. -/
def AgreeAt (i : Nat) (m m' : Mem) : Prop := Buf.re.peek m' i = Buf.re.peek m i ∧ Buf.im.peek m' i = Buf.im.peek m i

/-- A butterfly does what 41_fft R114 says to its two elements, and changes no other byte. -/
theorem butterfly_spec {d : Draw} {w : Word × Word} {a b : Nat} {m : Mem} (ha : a < Config.nMax) (hb : b < Config.nMax)
    (hab : a ≠ b) :
    ButterflyRel w a b m (butterfly d w a b m) ∧
    ∀ x, (∀ c : Buf, c = .re ∨ c = .im → ∀ i, i = a ∨ i = b → x < c.addr i ∨ c.addr i + 4 ≤ x) →
      Mem.get (butterfly d w a b m) x = Mem.get m x := by
  constructor
  · refine ⟨fun k => d.site (match k with
        | 0 => 2 | 1 => 3 | 2 => 5 | 3 => 7 | 4 => 8 | 5 => 10 | 6 => 12 | 7 => 13 | 8 => 14 | _ => 15),
      _, _, _, _, _, _, Buf.sees_load .re (d.site 0) m a, Buf.sees_load .im (d.site 1) m a,
      Buf.sees_load .re (d.site 4) m b, Buf.sees_load .im (d.site 6) m b, Buf.sees_load .re (d.site 9) m b,
      Buf.sees_load .im (d.site 11) m b, ?_, ?_, ?_, ?_⟩ <;> simp only [butterfly]
    · rw [Buf.peek_store_other (.inl (by decide)), Buf.peek_store_other (.inr (Ne.symm hab)),
        Buf.peek_store_other (.inl (by decide)), Buf.peek_store_self ha]
    · rw [Buf.peek_store_other (.inr (Ne.symm hab)), Buf.peek_store_other (.inl (by decide)), Buf.peek_store_self ha]
    · rw [Buf.peek_store_other (.inl (by decide)), Buf.peek_store_self hb]
    · rw [Buf.peek_store_self hb]
  · intro x hx
    simp only [butterfly]
    rw [Buf.get_store_outside (hx _ (.inr rfl) _ (.inr rfl)), Buf.get_store_outside (hx _ (.inl rfl) _ (.inr rfl)),
      Buf.get_store_outside (hx _ (.inr rfl) _ (.inl rfl)), Buf.get_store_outside (hx _ (.inl rfl) _ (.inl rfl))]

/-- Bytes of a word of `RE` or `IM` lie outside every other word of the two. -/
theorem agreeAt_of_frame {P : Nat → Prop} {i : Nat} {m m' : Mem} (hi : i < Config.nMax) (hP : ∀ k, P k → k < Config.nMax)
    (hni : ¬P i)
    (h : ∀ x, (∀ c : Buf, c = .re ∨ c = .im → ∀ k, P k → x < c.addr k ∨ c.addr k + 4 ≤ x) → Mem.get m' x = Mem.get m x) :
    AgreeAt i m m' := by
  have : ∀ b : Buf, b = .re ∨ b = .im → b.peek m' i = b.peek m i := by
    intro b hb
    have hw : b.words = Config.nMax := by rcases hb with rfl | rfl <;> rfl
    refine Buf.peek_congr fun _ x h1 h2 => h x fun c hc k hk => ?_
    have hcw : c.words = Config.nMax := by rcases hc with rfl | rfl <;> rfl
    have := Buf.addr_apart (b := c) (c := b) (i := k) (j := i) (by rw [hcw]; exact hP k hk) (by rw [hw]; exact hi)
      (.inr fun e => hni (e ▸ hk))
    omega
  exact ⟨this _ (.inl rfl), this _ (.inr rfl)⟩

/-- A butterfly relation carries over to storages that agree on its two elements. -/
theorem ButterflyRel.congr {w : Word × Word} {a b : Nat} {m m' n n' : Mem} (h : ButterflyRel w a b m n)
    (ha : AgreeAt a m' m) (hb : AgreeAt b m' m) (ha' : AgreeAt a n n') (hb' : AgreeAt b n n') :
    ButterflyRel w a b m' n' := by
  obtain ⟨e, ur, ui, br, bi, br', bi', s1, s2, s3, s4, s5, s6, r1, r2, r3, r4⟩ := h
  have tr : ∀ {c : Buf} {i : Nat} {x : Word}, c.peek m i = c.peek m' i → Sees c m i x → Sees c m' i x :=
    fun e s w hw => s w (e.trans hw)
  exact ⟨e, ur, ui, br, bi, br', bi', tr ha.1 s1, tr ha.2 s2, tr hb.1 s3, tr hb.2 s4, tr hb.1 s5, tr hb.2 s6,
    ha'.1.trans r1, ha'.2.trans r2, hb'.1.trans r3, hb'.2.trans r4⟩

theorem AgreeAt.trans {i : Nat} {m m' m'' : Mem} (h : AgreeAt i m m') (h' : AgreeAt i m' m'') : AgreeAt i m m'' :=
  ⟨h'.1.trans h.1, h'.2.trans h.2⟩

theorem AgreeAt.symm {i : Nat} {m m' : Mem} (h : AgreeAt i m m') : AgreeAt i m' m := ⟨h.1.symm, h.2.symm⟩

theorem AgreeAt.rfl {i : Nat} {m : Mem} : AgreeAt i m m := ⟨Eq.refl _, Eq.refl _⟩

/-- One block of a stage: every butterfly of the block, and no byte changed outside its elements (41_fft R114). -/
theorem stageBlock_spec {d : Draw} {s i : Nat} {m : Mem} (hs : 1 ≤ s) (hi : i + 2 ^ s ≤ Config.nMax) :
    (∀ j, j < 2 ^ s / 2 →
      ∃ e, ButterflyRel (twiddle e s j) (i + j) (i + j + 2 ^ s / 2) m (stageBlock d s i m)) ∧
    ∀ x, (∀ c : Buf, c = .re ∨ c = .im → ∀ k, (i ≤ k ∧ k < i + 2 ^ s) → x < c.addr k ∨ c.addr k + 4 ≤ x) →
      Mem.get (stageBlock d s i m) x = Mem.get m x := by
  obtain ⟨t, rfl⟩ : ∃ t, s = t + 1 := ⟨s - 1, by omega⟩
  have hh : 2 ^ (t + 1) = 2 * (2 ^ (t + 1) / 2) := by rw [Nat.pow_succ]; omega
  unfold stageBlock
  set h := 2 ^ (t + 1) / 2
  have key := forUpTo_induction (n := h) (a := m)
    (f := fun j m => butterfly (d.site j) (twiddle (d.site (2 ^ (t + 1))) (t + 1) j) (i + j) (i + j + h) m)
    (fun k x => (∀ j, j < k → ∃ e, ButterflyRel (twiddle e (t + 1) j) (i + j) (i + j + h) m x) ∧
      ∀ y, (∀ c : Buf, c = .re ∨ c = .im → ∀ l, ((i ≤ l ∧ l < i + k) ∨ (i + h ≤ l ∧ l < i + h + k)) →
        y < c.addr l ∨ c.addr l + 4 ≤ y) → Mem.get x y = Mem.get m y)
    ⟨fun j hj => by omega, fun _ _ => rfl⟩ ?_
  · refine ⟨key.1, fun x hx => key.2 x fun c hc l hl => hx c hc l (by omega)⟩
  rintro k x hk ⟨h1, h2⟩
  obtain ⟨b1, b2⟩ := butterfly_spec (d := d.site k) (w := twiddle (d.site (2 ^ (t + 1))) (t + 1) k) (a := i + k)
    (b := i + k + h) (m := x) (by omega) (by omega) (by omega)
  have old : ∀ l, (i + k ≤ l ∧ l < i + h) ∨ (i + h + k ≤ l ∧ l < i + 2 * h) → AgreeAt l m x := fun l hl =>
    agreeAt_of_frame (P := fun l => (i ≤ l ∧ l < i + k) ∨ (i + h ≤ l ∧ l < i + h + k)) (by omega) (fun _ _ => by omega)
      (by omega) h2
  have new : ∀ l, l < Config.nMax → l ≠ i + k → l ≠ i + k + h → AgreeAt l x (butterfly (d.site k)
      (twiddle (d.site (2 ^ (t + 1))) (t + 1) k) (i + k) (i + k + h) x) := fun l hl n1 n2 =>
    agreeAt_of_frame (P := fun l => l = i + k ∨ l = i + k + h) hl (fun _ _ => by omega) (by omega) b2
  refine ⟨fun j hj => ?_, fun y hy => ?_⟩
  · by_cases hjk : j = k
    · subst hjk
      exact ⟨_, b1.congr (old _ (by omega)) (old _ (by omega)) AgreeAt.rfl AgreeAt.rfl⟩
    · obtain ⟨e, he⟩ := h1 j (by omega)
      exact ⟨e, he.congr AgreeAt.rfl AgreeAt.rfl (new _ (by omega) (by omega) (by omega))
        (new _ (by omega) (by omega) (by omega))⟩
  · rw [b2 y fun c hc l hl => hy c hc l (by omega)]
    exact h2 y fun c hc l hl => hy c hc l (by omega)

/-- A stage over a whole number of blocks: every butterfly of every block, and nothing else changed (41_fft R114). -/
theorem stageMem_spec {d : Draw} {s n : Nat} {m : Mem} (hs : 1 ≤ s) (hn : n * 2 ^ s ≤ Config.nMax) :
    StageRel s (n * 2 ^ s) m (stageMem d s (n * 2 ^ s) m) := by
  have hpos : 0 < 2 ^ s := Nat.two_pow_pos s
  have hblocks : (n * 2 ^ s + 2 ^ s - 1) / 2 ^ s = n := by
    rw [Nat.add_sub_assoc hpos, Nat.mul_comm, Nat.mul_add_div hpos, Nat.div_eq_of_lt (by omega)]; rfl
  unfold stageMem
  rw [hblocks]
  have hh : 2 ^ s = 2 * (2 ^ s / 2) := by
    obtain ⟨t, rfl⟩ : ∃ t, s = t + 1 := ⟨s - 1, by omega⟩
    rw [Nat.pow_succ]; omega
  have hle : ∀ k, k < n → k * 2 ^ s + 2 ^ s ≤ n * 2 ^ s := fun k hk => by
    have := Nat.mul_le_mul_right (2 ^ s) (Nat.succ_le_of_lt hk)
    rwa [Nat.succ_mul] at this
  have key := forUpTo_induction (n := n) (a := m)
    (f := fun k m => stageBlock (d.site k) s (k * 2 ^ s) m)
    (fun k x => (∀ l j, l < k → j < 2 ^ s / 2 →
        ∃ e, ButterflyRel (twiddle e s j) (l * 2 ^ s + j) (l * 2 ^ s + j + 2 ^ s / 2) m x) ∧
      ∀ y, (∀ c : Buf, c = .re ∨ c = .im → ∀ l, l < k * 2 ^ s → y < c.addr l ∨ c.addr l + 4 ≤ y) →
        Mem.get x y = Mem.get m y)
    ⟨fun l j hl => by omega, fun _ _ => rfl⟩ ?_
  · refine ⟨fun k j hk hj => key.1 k j ?_ hj, fun y h1 h2 => key.2 y ?_⟩
    · exact Nat.lt_of_mul_lt_mul_right hk
    · rintro c (rfl | rfl) l hl
      · exact h1 l (by omega) hl
      · exact h2 l (by omega) hl
  rintro k x hk ⟨h1, h2⟩
  have hk' := hle k hk
  obtain ⟨b1, b2⟩ := stageBlock_spec (d := d.site k) (s := s) (i := k * 2 ^ s) (m := x) hs (by omega)
  have old : ∀ l, k * 2 ^ s ≤ l → l < n * 2 ^ s → AgreeAt l m x := fun l g1 g2 =>
    agreeAt_of_frame (P := fun l => l < k * 2 ^ s) (by omega) (fun _ _ => by omega) (by omega) h2
  have new : ∀ l, l < k * 2 ^ s → AgreeAt l x (stageBlock (d.site k) s (k * 2 ^ s) x) := fun l g =>
    agreeAt_of_frame (P := fun l => k * 2 ^ s ≤ l ∧ l < k * 2 ^ s + 2 ^ s) (by omega) (fun _ _ => by omega) (by omega) b2
  refine ⟨fun l j hl hj => ?_, fun y hy => ?_⟩
  · by_cases hlk : l = k
    · subst hlk
      obtain ⟨e, he⟩ := b1 j hj
      exact ⟨e, he.congr (old _ (by omega) (by omega)) (old _ (by omega) (by omega)) AgreeAt.rfl AgreeAt.rfl⟩
    · obtain ⟨e, he⟩ := h1 l j (by omega) hj
      have hl' : l * 2 ^ s + 2 ^ s ≤ k * 2 ^ s := by
        have := Nat.mul_le_mul_right (2 ^ s) (show l + 1 ≤ k by omega)
        rwa [Nat.succ_mul] at this
      exact ⟨e, he.congr AgreeAt.rfl AgreeAt.rfl (new _ (by omega)) (new _ (by omega))⟩
  · have e : (k + 1) * 2 ^ s = k * 2 ^ s + 2 ^ s := Nat.succ_mul _ _
    rw [b2 y fun c hc l hl => hy c hc l (by omega)]
    exact h2 y fun c hc l hl => hy c hc l (by omega)

/-- BFLY's loop is a chain of the stages (41_fft R115). -/
theorem bflyMem_spec {d : Draw} {bits : Nat} {m : Mem} (hb : 2 ^ bits ≤ Config.nMax) :
    StagesRel bits (2 ^ bits) m (bflyMem d (2 ^ bits) bits m) := by
  refine ⟨fun k => forUpTo k (fun k m => stageMem (d.site k) (k + 1) (2 ^ bits) m) m, rfl, rfl, fun k hk => ?_⟩
  have e : 2 ^ bits = 2 ^ (bits - (k + 1)) * 2 ^ (k + 1) := by rw [← Nat.pow_add]; congr 1; omega
  simp only [forUpTo_succ]
  generalize forUpTo k (fun k m => stageMem (d.site k) (k + 1) (2 ^ bits) m) m = x
  rw [e] at hb ⊢
  exact stageMem_spec (by omega) hb

end Sys2Proof.Machine
end

