-- ==== Sys2Proof/Tests/Slice0.lean ====
section
/-! SUPPORT. Tests of the model. V<n> and P<n> are the vectors and programs of 95_test_vectors; every expected word is taken from
there or from the rule named. The theorems `test_witness_<Name>` show, for the statement `Obligations.<Name>`, values that
meet its hypotheses, one per clause, at the ends of their ranges. -/

namespace Sys2Proof.Tests

open Sys2Proof.Machine

/- One theorem after another: each kernel evaluation below would otherwise hold a thread of its own while it waits. -/
set_option Elab.async false

/-! ### Helpers -/

/-- The state after one step; the state itself where a step gives none. -/
def after (s : State) : State :=
  match step s with
  | .next t => t
  | .fault _ => s
  | .refused _ => s

/-- The state after the one move `m`. -/
def moved (m : Move) (s : State) : State := after { s with agenda := m :: s.agenda }

/-- The command `i` in flight. -/
def inFlight (i : Instr) (s : State) : State := accept (encode i) s

/-- The state after `Complete` of the command `i`. -/
def ran (i : Instr) (s : State) : State := after (inFlight i s)

/-- Store words into a buffer from index `k` on. -/
def storeFrom (b : Buf) : Nat → List Word → Mem → Mem
  | _, [], m => m
  | k, w :: ws, m => storeFrom b (k + 1) ws (b.store m k w)

/-- `s` with the first words of a buffer written. -/
def filled (b : Buf) (ws : List Word) (s : State) : State := { s with mem := storeFrom b 0 ws s.mem }

/-- The first `n` words of a buffer. -/
def words (b : Buf) (n : Nat) (s : State) : List (Option Word) := (List.range n).map fun k => b.peek s.mem k

/-- Just after reset, with `LEN = n`. -/
def withLen (n : Nat) : State := { State.reset with len := BitVec.ofNat 32 n }

/-- Just after reset, with a transform length of `2^l`. -/
def withLog (l : Nat) : State := { State.reset with nfft := BitVec.ofNat 32 (2 ^ l), log2n := BitVec.ofNat 5 l }

/-- Some place of a draw, for tests that use none. -/
def noDraw : Draw := { stamp := 0, path := [] }

/-- What a read answers. -/
def answer (off : Offset) (s : State) : Response := (moved (.read .word off) s).resp

/-! ### Well-formedness and encoding -/

/-- 30_encoding R72: `s` is 0 .. 31. -/
theorem test_wellFormed_stage : (Instr.stage 31).wellFormed = true ∧ (Instr.stage 32).wellFormed = false := by decide

/-- V72 and the words of 30_encoding R73, one per constructor. -/
theorem test_decode_words :
    decode 0x00000000#32 = .ok .nop ∧ decode 0x00000001#32 = .ok .pad ∧ decode 0x00000002#32 = .ok .bitrev ∧
    decode 0x00000303#32 = .ok (.stage 3) ∧ decode 0x00000004#32 = .ok .bfly ∧ decode 0x00000005#32 = .ok .fft ∧
    decode 0x00000008#32 = .ok .wgen ∧ decode 0x00000009#32 = .ok .wapply ∧ decode 0x00000010#32 = .ok .mag ∧
    decode 0x00000011#32 = .ok .maxu ∧ decode 0x00000112#32 = .ok (.db true) ∧ decode 0x00000012#32 = .ok (.db false) ∧
    decode 0x00000013#32 = .ok .dbn ∧ decode 0x00000014#32 = .ok .logc ∧ decode 0x00000015#32 = .ok .faxis ∧
    decode 0x00000318#32 = .ok (.aclr 3#2) ∧ decode 0x00000118#32 = .ok (.aclr 1#2) := by decide

/-- V72, the illegal words. -/
theorem test_decode_illegal :
    decode 0x00002003#32 = .error .argumentBits ∧ decode 0x00000212#32 = .error .argumentBits ∧
    decode 0x00000418#32 = .error .argumentBits ∧ decode 0x00000105#32 = .error .argumentBits ∧
    decode 0x00010005#32 = .error .reservedBits ∧ decode 0x00000006#32 = .error .reservedOpcode ∧
    decode 0x00000007#32 = .error .reservedOpcode ∧ decode 0x0000000A#32 = .error .reservedOpcode ∧
    decode 0x00000016#32 = .error .reservedOpcode ∧ decode 0x00000019#32 = .error .reservedOpcode ∧
    decode 0x000000FF#32 = .error .reservedOpcode := by decide

/-- 30_encoding R77, R78: command text, and the transactions of the scripts P1 lists. -/
theorem test_script :
    commandText (.stage 2) = "STAGE 2" ∧ parseCommand "DB" none = some (.db false) ∧
    parseCommand "ACLR" none = some (.aclr 3#2) ∧ parseCommand "STAGE" (some 32) = none ∧
    scriptMoves [.wr .srate 8#32, .wrf .re 2 0x40400000#32, .command (.stage 1), .rdf .mag 1] =
      [.write .word 0x30#23 8#32, .write .word 0x100008#23 0x40400000#32, .write .word 0x10#23 0x00000103#32,
        .read .word 0x400004#23] := by decide +kernel

/-! ### The numerics -/

/-- 00_scope R10: TWO_PI and EPS are the nearest floats of 2π and 1e-12 (1e-12 is 10^-12 · 2^149 units). -/
theorem test_constants :
    Num.ofFix (Num.twoPiFix 256) = Num.twoPi ∧ Num.pack false (Num.roundMag (2 ^ 149) (10 ^ 12)) = Num.eps := by
  decide +kernel

/-- 00_scope R10: the roots of the stages 3 to 6 are cos and -sin of 2π/2^s; `sin x = cos (π/2 - x)`, computed with the
exact angle in fixed point. -/
theorem test_roots :
    [3, 4, 5, 6].all (fun s =>
      let turn := Num.twoPiFix 256
      let cosAt (r : Int) : Int := Num.cosSeries (r * r / (2 ^ 256 : Nat)) 70 0 (2 ^ 256 : Nat) 0
      let r := Num.root noDraw s
      Num.ofFix (cosAt (turn / (2 ^ s : Nat))) == r.1 &&
        Num.fneg (Num.ofFix (cosAt (turn / 4 - turn / (2 ^ s : Nat)))) == r.2) = true := by decide +kernel

/-- V4, V45: cosines and a logarithm the vectors list. -/
theorem test_fcos_flog10 :
    Num.fcos noDraw 0x40060A92#32 = 0xBF000001#32 ∧ Num.fcos noDraw 0x40860A92#32 = 0xBEFFFFFD#32 ∧
    Num.fcos noDraw 0x40C90FDB#32 = 0x3F800000#32 ∧ Num.flog10 noDraw Num.eps = 0xC1400000#32 := by decide +kernel

/-- 41_fft R113: the sequence of stage 4 (95_test_vectors 2.2). -/
theorem test_twiddle :
    (List.range 8).map (twiddle noDraw 4) =
      [(0x3F800000#32, 0x00000000#32), (0x3F6C835E#32, 0xBEC3EF15#32), (0x3F3504F3#32, 0xBF3504F3#32),
        (0x3EC3EF14#32, 0xBF6C835E#32), (0xB3000000#32, 0xBF7FFFFF#32), (0xBEC3EF15#32, 0xBF6C835D#32),
        (0xBF3504F2#32, 0xBF3504F2#32), (0xBF6C835C#32, 0xBEC3EF13#32)] := by decide +kernel

/-- 00_scope R11, 95_test_vectors 2.2: `rev(3, ·)`; `clog2` and `np2`; `HALF(1) = 1`. -/
theorem test_integer_helpers :
    (List.range 8).map (rev 3) = [0, 4, 2, 6, 1, 5, 3, 7] ∧ clog2 1 = 0 ∧ clog2 5 = 3 ∧ np2 131073 = 262144 ∧
      halfBins 1 = 1 ∧ halfBins 2 = 1 ∧ halfBins 8 = 4 := by decide

/-! ### The commands -/

/-- V70, V83: NOP counts, sets `DONE`, and wraps `CMDCNT`. -/
theorem test_nop :
    ran .nop { State.reset with cmdCnt := 7#32 } =
      { State.reset with cmdCnt := 8#32, status := { State.reset.status with done := true }, draws := 1 } ∧
    (ran .nop { State.reset with cmdCnt := 0xFFFFFFFF#32 }).cmdCnt = 0#32 := by decide +kernel

/-- V71. -/
theorem test_aclr :
    let s := { State.reset with gmax := 0x42C60000#32, dbmax := 0x42200000#32 }
    let g (m : BitVec 2) : Word × Word := ((ran (.aclr m) s).gmax, (ran (.aclr m) s).dbmax)
    g 1#2 = (0x00000000#32, 0x42200000#32) ∧ g 2#2 = (0x42C60000#32, 0xFF800000#32) ∧
      g 3#2 = (0x00000000#32, 0xFF800000#32) ∧ g 0#2 = (0x42C60000#32, 0x42200000#32) := by decide +kernel

/-- V4: the coefficients for n = 4. -/
theorem test_wgen :
    words .win 4 (ran .wgen (withLen 4)) =
      [some 0x00000000#32, some 0x3F400000#32, some 0x3F3FFFFF#32, some 0x00000000#32] ∧
    (ran .wgen (withLen 4)).wlen = 4#32 := by decide +kernel

/-- V1: `hann(1)` is 1.0. -/
theorem test_wgen_one : words .win 1 (ran .wgen (withLen 1)) = [some 0x3F800000#32] := by decide +kernel

/-- V13: the sign of a product with +0.0. -/
theorem test_wapply :
    words .re 2 (ran .wapply (filled .re [0xC0400000#32, 0x40000000#32] (filled .win [0#32, 0#32]
      { withLen 2 with wlen := 2#32 }))) = [some 0x80000000#32, some 0x00000000#32] := by decide +kernel

/-- V27, PAD: the padding of `RE`, all of `IM`, `NFFT`, `LOG2N`. -/
theorem test_pad :
    let t := ran .pad (filled .re [0x3F800000#32, 0x40000000#32, 0x40400000#32, 0x40800000#32, 0x40A00000#32] (withLen 5))
    words .re 8 t = [some 0x3F800000#32, some 0x40000000#32, some 0x40400000#32, some 0x40800000#32,
      some 0x40A00000#32, some 0#32, some 0#32, some 0#32] ∧
    words .im 8 t = List.replicate 8 (some 0#32) ∧ t.nfft = 8#32 ∧ t.log2n = 3#5 := by decide +kernel

/-- V22. -/
theorem test_bitrev :
    words .re 8 (ran .bitrev (filled .re [1#32, 2#32, 3#32, 4#32, 5#32, 6#32, 7#32, 8#32] (withLog 3))) =
      [some 1#32, some 5#32, some 3#32, some 7#32, some 2#32, some 6#32, some 4#32, some 8#32] := by decide +kernel

/-- V27: stage 3 after stage 2, the asymmetric last bits included. -/
theorem test_stage :
    let t := ran (.stage 3)
      (filled .re [0x41100000#32, 0xC0800000#32, 0x40400000#32, 0xC0800000#32, 0x40C00000#32, 0x40000000#32,
        0xC0000000#32, 0x40000000#32]
      (filled .im [0#32, 0xC0400000#32, 0#32, 0x40400000#32, 0#32, 0xC0800000#32, 0#32, 0x40800000#32] (withLog 3)))
    words .re 8 t = [some 0x41700000#32, some 0xC0AD413D#32, some 0x40400000#32, some 0xC0257D87#32,
      some 0x40400000#32, some 0xC0257D86#32, some 0x40400000#32, some 0xC0AD413C#32] ∧
    words .im 8 t = [some 0x00000000#32, some 0xC0E7C3B6#32, some 0x3FFFFFFF#32, some 0xBF9F0ED8#32,
      some 0x00000000#32, some 0x3F9F0ED8#32, some 0xBFFFFFFF#32, some 0x40E7C3B6#32] := by decide +kernel

/-- V23: after BITREV, both stages of a transform of four. -/
theorem test_bfly :
    let t := ran .bfly (filled .re [0x3F800000#32, 0x40400000#32, 0x40000000#32, 0x40800000#32]
      (filled .im [0#32, 0#32, 0#32, 0#32] (withLog 2)))
    words .re 4 t = [some 0x41200000#32, some 0xC0000000#32, some 0xC0000000#32, some 0xC0000000#32] ∧
    words .im 4 t = [some 0#32, some 0x40000000#32, some 0#32, some 0xC0000000#32] := by decide +kernel

/-- V31: three samples, padded to four. -/
theorem test_fft :
    let t := ran .fft (filled .re [0x3F800000#32, 0x40000000#32, 0x40400000#32] (withLen 3))
    words .re 4 t = [some 0x40C00000#32, some 0xC0000000#32, some 0x40000000#32, some 0xC0000000#32] ∧
    words .im 4 t = [some 0#32, some 0xC0000000#32, some 0#32, some 0x40000000#32] ∧ t.nfft = 4#32 ∧ t.log2n = 2#5 := by
  decide +kernel

/-- V40. -/
theorem test_mag :
    words .mag 5 (ran .mag
      (filled .re [0x40400000#32, 0#32, 0xC0A00000#32, 0x3F800000#32]
        (filled .im [0x40800000#32, 0#32, 0x41400000#32, 0x3F800000#32] (withLog 3)))) =
      [some 0x40A00000#32, some 0x00000000#32, some 0x41500000#32, some 0x3FB504F3#32, none] := by decide +kernel

/-- V42, V43: one bin for N = 1; the sum of squares overflows and underflows. -/
theorem test_mag_edges :
    words .mag 1 (ran .mag (filled .re [0xC0E00000#32] (filled .im [0#32] (withLog 0)))) = [some 0x40E00000#32] ∧
    words .mag 1 (ran .mag (filled .re [0x5FD02AB5#32] (filled .im [0#32] (withLog 1)))) = [some 0x7F800000#32] ∧
    words .mag 1 (ran .mag (filled .re [0x19416D9A#32] (filled .im [0#32] (withLog 1)))) = [some 0x00000000#32] := by
  decide +kernel

/-- V44. -/
theorem test_maxu :
    (ran .maxu (filled .mag [0#32, 0x41100000#32, 0x42C60000#32, 0x3F800000#32, 0x3F000000#32, 0x40400000#32, 0#32, 0#32]
      (withLog 4))).gmax = 0x42C60000#32 := by decide +kernel

/-- V45: DB 0 over eight bins. -/
theorem test_db :
    let t := ran (.db false) (filled .mag [0#32, 0x3F800000#32, 0x41200000#32, 0x3A83126F#32, 0x42C80000#32,
      0x3F000000#32, 0x358637BD#32, 0x40000000#32] (withLog 4))
    words .out 8 t = [some 0xC3700000#32, some 0x00000000#32, some 0x41A00000#32, some 0xC2700000#32,
      some 0x42200000#32, some 0xC0C0A8C2#32, some 0xC2EFFFFF#32, some 0x40C0A8C2#32] ∧ t.dbmax = 0x42200000#32 := by
  decide +kernel

/-- V47: DB 1 goes on from the old maximum, DB 0 restarts it. -/
theorem test_db_keep :
    let s := filled .mag [0x3F800000#32, 0x41200000#32] { withLog 2 with dbmax := 0x42200000#32 }
    (ran (.db true) s).dbmax = 0x42200000#32 ∧ (ran (.db false) s).dbmax = 0x41A00000#32 := by decide +kernel

/-- V46. -/
theorem test_dbn :
    words .out 8 (ran .dbn (filled .out [0xC3700000#32, 0x00000000#32, 0x41A00000#32, 0xC2700000#32,
      0x42200000#32, 0xC0C0A8C2#32, 0xC2EFFFFF#32, 0x40C0A8C2#32] { withLog 4 with dbmax := 0x42200000#32 })) =
      [some 0xC2F00000#32, some 0xC2200000#32, some 0xC1A00000#32, some 0xC2C80000#32, some 0x00000000#32,
        some 0xC2381518#32, some 0xC2F00000#32, some 0xC207EAE8#32] := by decide +kernel

/-- V49: the fallback, from the reset value of `DBMAX`. -/
theorem test_dbn_fallback :
    let t := ran .dbn (withLog 3)
    words .out 4 t = List.replicate 4 (some 0xC2F00000#32) ∧ t.status.degen = true := by decide +kernel

/-- V50. -/
theorem test_logc :
    let t := ran .logc (filled .mag [0#32, 0x41100000#32, 0x42C60000#32, 0x3F800000#32, 0x3F000000#32, 0x40400000#32,
      0#32, 0#32] { withLog 4 with gmax := 0x42C60000#32 })
    words .out 6 t = [some 0x00000000#32, some 0x3F000000#32, some 0x3F800000#32, some 0x3E1A209B#32,
      some 0x3DB45144#32, some 0x3E9A209B#32] ∧ t.status.degen = false := by decide +kernel

/-- V53, V54: the fallback, for a divisor of zero and an infinite one. -/
theorem test_logc_fallback :
    let t := ran .logc (filled .mag [0#32, 0#32] (withLog 2))
    let u := ran .logc (filled .mag [0#32, 0#32] { withLog 2 with gmax := 0x7F800000#32 })
    words .out 2 t = [some 0#32, some 0#32] ∧ t.status.degen = true ∧
      words .out 2 u = [some 0#32, some 0#32] ∧ u.status.degen = true := by decide +kernel

/-- V61, V60: the axis; a quotient whose product is rounded first. -/
theorem test_faxis :
    words .frq 5 (ran .faxis { withLog 3 with srate := 8000#32 }) =
      [some 0x00000000#32, some 0x447A0000#32, some 0x44FA0000#32, some 0x453B8000#32, none] ∧
    frequencyOf noDraw 44100 4096 2047 = 0x46AC2E78#32 := by decide +kernel

/-! ### Issue, completion, bus, reset -/

/-- V73 to V75: an illegal word is rejected, the next is discarded, the W1C returns. -/
theorem test_reject_discard_return :
    let s := { State.reset with status := { State.reset.status with done := true }, cmdCnt := 3#32 }
    let t := moved (.write .word 0x10#23 0x00010005#32) s
    let u := moved (.write .word 0x10#23 0x00000005#32) t
    let v := moved (.write .word 0x0C#23 0x00000004#32) u
    answer 0x0C#23 t = .data 0x00000006#32 ∧ answer 0x14#23 t = .data 3#32 ∧ answer 0x18#23 t = .data 0x00010005#32 ∧
      t.cmdCnt = 3#32 ∧ u = t ∧ answer 0x0C#23 v = .data 0x00000002#32 ∧ v.errCode = .none ∧ v.errCmd = 0#32 := by
  decide +kernel

/-- V76: acceptance. -/
theorem test_accept :
    let t := moved (.write .word 0x10#23 0x00000005#32) (withLen 4)
    t.cur = 0x00000005#32 ∧ answer 0x0C#23 t = .data 0x00000001#32 ∧ answer 0x10#23 t = .data 0x00000005#32 := by
  decide +kernel

/-- V77: what the host can and cannot do meanwhile. -/
theorem test_busy :
    let s := inFlight .fft (withLen 4)
    let w (off : Offset) (v : Word) : State := moved (.write .word off v) s
    (w 0x20#23 8#32).len = 4#32 ∧ (w 0x20#23 8#32).status.busyErr = true ∧ (w 0x10#23 0x10#32).cur = 0x00000005#32 ∧
      (w 0x100000#23 0x3F800000#32).mem = [] ∧ (w 0x08#23 1#32).ctrl.ieDone = true ∧
      (w 0x08#23 1#32).status.busyErr = false ∧ answer 0x24#23 s = .data 0#32 := by decide +kernel

/-- V78: the interrupt line around a NOP. -/
theorem test_irq :
    let s := { State.reset with ctrl := { ieDone := true, ieErr := true } }
    let t := ran .nop s
    irq s = false ∧ irq (inFlight .nop s) = false ∧ irq t = true ∧
      irq (moved (.write .word 0x0C#23 2#32) t) = false ∧ irq (moved (.write .word 0x10#23 5#32) s) = true := by
  decide +kernel

/-- V79: bus errors, which change nothing else. -/
theorem test_bus_errors :
    [Move.read .word 0x000002#23, .write .word 0x00003C#23 0#32, .read .word 0x0FFFFC#23, .read .word 0x580000#23,
      .write .byte 0x100000#23 0#32].all (fun m => moved m State.reset == { State.reset with resp := .busError }) = true := by
  decide +kernel

/-- V80: writes to read-only registers and to `CTRL`. -/
theorem test_register_writes :
    let w (off : Offset) (v : Word) : State := moved (.write .word off v) State.reset
    w 0x00#23 0#32 = { State.reset with resp := .ok } ∧ w 0x24#23 16#32 = { State.reset with resp := .ok } ∧
      answer 0x08#23 (w 0x08#23 0xFFFFFFFF#32) = .data 3#32 ∧ (w 0x20#23 0xFFFFFFFF#32).len = 0xFFFFFFFF#32 := by
  decide +kernel

/-- V81: what the registers read after reset. -/
theorem test_reset_reads :
    (List.range 15).map (fun k => answer (BitVec.ofNat 23 (4 * k)) State.reset) =
      [.data 0x41560007#32, .data 0x00000012#32, .data 0#32, .data 0#32, .data 0#32, .data 0#32, .data 0#32, .data 0#32,
        .data 0#32, .data 0#32, .data 0#32, .data 0#32, .data 0#32, .data 0x00000000#32, .data 0xFF800000#32] := by
  decide +kernel

/-- V82: the byte view of `RE[0] = 1.0`. -/
theorem test_little_endian :
    (moved (.write .word 0x100000#23 0x3F800000#32) State.reset).mem =
      [(0x100000, 0x00#8), (0x100001, 0x00#8), (0x100002, 0x80#8), (0x100003, 0x3F#8)] := by decide +kernel

/-- 70_reset R190 to R192: the reset abandons a command and forgets the buffers; it keeps nothing but the moves to come. -/
theorem test_reset :
    let s := inFlight .fft (filled .re [0x3F800000#32] (withLen 1))
    moved .resetHigh (moved .resetLow s) = State.reset := by decide +kernel

/-- 70_reset R190, 93 U10: while `rst_n` is low a read waits and nothing is answered; after the rise it is answered. -/
theorem test_held_in_reset :
    let s := { State.reset with rstN := false, agenda := [.read .word 0x04#23] }
    let t := { s with agenda := [.read .word 0x04#23, .resetHigh] }
    after s = s ∧ (after t).rstN = true ∧ (after t).resp = .none ∧ (after (after t)).resp = .data 0x00000012#32 := by
  decide +kernel

/-- 70_reset R195: a run has not ended while a transaction waits for its response, nor while a command is in flight; what
is observed leaves out the moves to come and the response. -/
theorem test_run_end :
    let s := inFlight .nop { State.reset with resp := .ok }
    ¬RunEnded { State.reset with rstN := false, agenda := [.read .word 0x04#23], resp := .ok } ∧ ¬RunEnded s ∧
      RunEnded (after s) ∧ (observe (after s)).registers[7]? = some 1#32 ∧
      observe { after s with agenda := [.complete], resp := .busError, draws := 9 } = observe (after s) := by
  decide +kernel

/-- The state `withFetchWord` gives issues exactly the word (30_encoding R70). -/
theorem test_withFetchWord :
    (after (State.reset.withFetchWord 16 0x0318)).cur = 0x00000318#32 ∧
      (after (State.reset.withFetchWord 16 0x0318)).status.busy = true ∧
      (after (State.reset.withFetchWord 8 0x05)).errCmd = 0x00000005#32 ∧
      decodeTableWord 16 0x0318 = some (.aclr 3#2) := by decide +kernel

/-! ### Witnesses: values that meet the hypotheses of each statement, one per clause, at the ends of the ranges -/

/-- A command with an accepted issue runs. -/
theorem runs_of_check {i : Instr} {s : State} (h : Ready s) (hc : issueCheck i s = none) : ∃ t, Runs i s t :=
  ⟨_, (runs_iff h hc).2 rfl⟩

theorem test_witness_DecodeOfEncode :
    (Instr.stage 31).wellFormed = true ∧ (Instr.stage 0).wellFormed = true ∧ (Instr.aclr 3#2).wellFormed = true := by decide

theorem test_witness_EncodeOfDecode : decode 0x00001F03#32 = .ok (.stage 31) ∧ decode 0#32 = .ok .nop := by decide

/-- `rst_n` high, idle and a legal word; `rst_n` high and a command in flight, with moves to come and with none. -/
theorem test_witness_StepRunsDecodedCommand :
    (State.reset.rstN = true ∧ State.reset.status.busy = false ∧ decode 0x00000318#32 = .ok (.aclr 3#2)) ∧
    (let s := { inFlight .fft (withLen 1) with agenda := [.resetLow] };
      s.rstN = true ∧ s.status.busy = true ∧ decode s.cur = .ok .fft) ∧
    (let s := inFlight .fft (withLen 1);
      s.rstN = true ∧ s.status.busy = true ∧ decode s.cur = .ok .fft ∧ s.agenda = []) := by decide

/-- The five cases of a `CMD` write, in their order. -/
theorem test_witness_IssueOutcomes :
    (let s := inFlight .nop State.reset;
      s.rstN = true ∧ s.status.busy = true) ∧
    (let s := reject .illegalCommand 0x19#32 State.reset;
      s.rstN = true ∧ s.status.busy = false ∧ s.status.err = true) ∧
    (State.reset.rstN = true ∧ Ready State.reset ∧ decode 0x00000019#32 = .error .reservedOpcode) ∧
    (Ready (withLen 0) ∧ decode 0x00000005#32 = .ok .fft ∧ issueCheck .fft (withLen 0) = some .inputTooShort) ∧
    (Ready (withLen 262144) ∧ decode 0x00000005#32 = .ok .fft ∧ issueCheck .fft (withLen 262144) = none) := by decide

/-- With and without an error to clear. -/
theorem test_witness_StatusWriteClearsAndReturns :
    (reject .illegalCommand 0x19#32 State.reset).rstN = true ∧ State.reset.rstN = true := by decide

theorem test_witness_NopRule : Ready State.reset := by decide

theorem test_witness_AclrRule : Ready State.reset := by decide

/-- `LEN` = 0, 262145, 1, 262144. -/
theorem test_witness_PadRule :
    (Ready (withLen 0) ∧ (withLen 0).len = 0#32) ∧
    (Ready (withLen 262145) ∧ Config.nMax < (withLen 262145).len.toNat) ∧
    (Ready (withLen 1) ∧ 1 ≤ (withLen 1).len.toNat ∧ (withLen 1).len.toNat ≤ Config.nMax) ∧
    (Ready (withLen 262144) ∧ 1 ≤ (withLen 262144).len.toNat ∧ (withLen 262144).len.toNat ≤ Config.nMax) := by decide

/-- `NFFT` = 0, 1, 262144. -/
theorem test_witness_BitrevRule :
    (Ready State.reset ∧ State.reset.nfft = 0#32) ∧
    (Ready (withLog 0) ∧ (withLog 0).nfft ≠ 0#32 ∧ LengthOk (withLog 0)) ∧
    (Ready (withLog 18) ∧ (withLog 18).nfft ≠ 0#32 ∧ LengthOk (withLog 18)) := by decide

/-- Two runs of BITREV on two written words. -/
theorem test_witness_BitrevTwiceRestores :
    let s := filled .re [0x3F800000#32, 0x40000000#32] (withLog 1)
    Ready s ∧ s.nfft ≠ 0#32 ∧ LengthOk s ∧ (∃ t u, Runs .bitrev s t ∧ Runs .bitrev t u) ∧ 1 < s.nfft.toNat ∧
      Buf.re.peek s.mem 1 = some 0x40000000#32 := by
  refine ⟨by decide, by decide, by decide, ?_, by decide, by decide⟩
  exact ⟨_, _, ⟨rfl, rfl⟩, ⟨rfl, rfl⟩⟩

/-- The roots of the stages 1 and 24, the ends of the table of 00_scope R10. -/
theorem test_witness_TwiddleSequence :
    Num.rootTable[0]? = some (0xBF800000#32, 0x00000000#32) ∧ Num.rootTable[23]? = some (0x3F800000#32, 0xB4C90FDB#32) ∧
      Num.rootTable.length = 24 := by decide

/-- `NFFT = 0`; stage 0 and stage LOG2N + 1; stages 1 and LOG2N; the encoding of stage 31. -/
theorem test_witness_StageRule :
    31 < 32 ∧ (Ready State.reset ∧ State.reset.nfft = 0#32) ∧
    (let s := withLog 2;
      Ready s ∧ s.nfft ≠ 0#32 ∧ LengthOk s ∧ (0 = 0 ∨ s.log2n.toNat < 0) ∧ (3 = 0 ∨ s.log2n.toNat < 3) ∧
        1 ≤ s.log2n.toNat ∧ 2 ≤ s.log2n.toNat) ∧
    (let s := withLog 0;
      Ready s ∧ s.nfft ≠ 0#32 ∧ (1 = 0 ∨ s.log2n.toNat < 1)) := by decide

theorem test_witness_BflyRule :
    (Ready State.reset ∧ State.reset.nfft = 0#32) ∧
    (Ready (withLog 0) ∧ (withLog 0).nfft ≠ 0#32 ∧ LengthOk (withLog 0)) ∧
    (Ready (withLog 18) ∧ (withLog 18).nfft ≠ 0#32 ∧ LengthOk (withLog 18)) := by decide

theorem test_witness_FftRule :
    (Ready (withLen 0) ∧ (withLen 0).len = 0#32) ∧
    (Ready (withLen 262145) ∧ Config.nMax < (withLen 262145).len.toNat) ∧
    (Ready (withLen 1) ∧ 1 ≤ (withLen 1).len.toNat ∧ (withLen 1).len.toNat ≤ Config.nMax) ∧
    (Ready (withLen 262144) ∧ 1 ≤ (withLen 262144).len.toNat ∧ (withLen 262144).len.toNat ≤ Config.nMax) := by decide

/-- `LEN` = 0, 262145, 1, and 2 with its last coefficient. -/
theorem test_witness_WgenRule :
    (Ready (withLen 0) ∧ (withLen 0).len = 0#32) ∧
    (Ready (withLen 262145) ∧ Config.nMax < (withLen 262145).len.toNat) ∧
    (Ready (withLen 1) ∧ (withLen 1).len.toNat = 1 ∧ (withLen 1).len.toNat ≤ Config.nMax) ∧
    (Ready (withLen 2) ∧ 2 ≤ (withLen 2).len.toNat ∧ (withLen 2).len.toNat ≤ Config.nMax ∧ 1 < (withLen 2).len.toNat) ∧
    (Ready (withLen 262144) ∧ 2 ≤ (withLen 262144).len.toNat ∧ (withLen 262144).len.toNat ≤ Config.nMax) := by decide

theorem test_witness_WindowStartsAtZero :
    (Ready (withLen 2) ∧ 2 ≤ (withLen 2).len.toNat ∧ (withLen 2).len.toNat ≤ Config.nMax ∧
      ∃ t, Runs .wgen (withLen 2) t) ∧
    (Ready (withLen 262144) ∧ 2 ≤ (withLen 262144).len.toNat ∧ (withLen 262144).len.toNat ≤ Config.nMax ∧
      ∃ t, Runs .wgen (withLen 262144) t) :=
  ⟨⟨by decide, by decide, by decide, runs_of_check (by decide) (by decide)⟩,
    ⟨by decide, by decide, by decide, runs_of_check (by decide) (by decide)⟩⟩

/-- V11, V12: `LEN` = 0; too long; a window of another length; equal lengths. -/
theorem test_witness_WapplyRule :
    (let s := { withLen 0 with wlen := 5#32 };
      Ready s ∧ s.len = 0#32) ∧
    (Ready (withLen 262145) ∧ Config.nMax < (withLen 262145).len.toNat) ∧
    (let s := { withLen 4 with wlen := 8#32 };
      Ready s ∧ 1 ≤ s.len.toNat ∧ s.len.toNat ≤ Config.nMax ∧ s.wlen ≠ s.len) ∧
    (let s := { withLen 1 with wlen := 1#32 };
      Ready s ∧ 1 ≤ s.len.toNat ∧ s.len.toNat ≤ Config.nMax ∧ s.wlen = s.len) ∧
    (let s := { withLen 262144 with wlen := 262144#32 };
      Ready s ∧ 1 ≤ s.len.toNat ∧ s.len.toNat ≤ Config.nMax ∧ s.wlen = s.len) := by decide

theorem test_witness_MagRule :
    (Ready State.reset ∧ State.reset.nfft = 0#32) ∧
    (Ready (withLog 0) ∧ (withLog 0).nfft ≠ 0#32 ∧ LengthOk (withLog 0) ∧ 0 < halfBins (withLog 0).nfft.toNat) ∧
    (Ready (withLog 18) ∧ (withLog 18).nfft ≠ 0#32 ∧ LengthOk (withLog 18) ∧
      131071 < halfBins (withLog 18).nfft.toNat) := by decide

theorem test_witness_MaxuRule :
    (Ready State.reset ∧ State.reset.nfft = 0#32) ∧ (Ready (withLog 0) ∧ (withLog 0).nfft ≠ 0#32) := by decide

/-- Two written magnitudes, 9.0 and 99.0. -/
theorem test_witness_MaxuTakesTheMaximum :
    let s := filled .mag [0x41100000#32, 0x42C60000#32] (withLog 2)
    let x (k : Nat) : Word := if k = 0 then 0x41100000#32 else 0x42C60000#32
    Ready s ∧ s.nfft ≠ 0#32 ∧
      (∀ k, k < halfBins s.nfft.toNat → Buf.mag.peek s.mem k = some (x k) ∧ Num.isNaN (x k) = false) ∧
      Num.isNaN s.gmax = false ∧ ∃ t, Runs .maxu s t :=
  ⟨by decide, by decide, by decide +kernel, by decide, runs_of_check (by decide) (by decide)⟩

theorem test_witness_DbRule :
    (Ready State.reset ∧ State.reset.nfft = 0#32) ∧
    (Ready (withLog 0) ∧ (withLog 0).nfft ≠ 0#32 ∧ LengthOk (withLog 0)) ∧
    (Ready (withLog 18) ∧ (withLog 18).nfft ≠ 0#32 ∧ LengthOk (withLog 18)) := by decide

/-- A finite `DBMAX` and the reset value, which is not. -/
theorem test_witness_DbnRule :
    (Ready State.reset ∧ State.reset.nfft = 0#32) ∧
    (let s := { withLog 4 with dbmax := 0x42200000#32 };
      Ready s ∧ s.nfft ≠ 0#32 ∧ LengthOk s ∧ Num.fisfinite s.dbmax = true) ∧
    (Ready (withLog 0) ∧ (withLog 0).nfft ≠ 0#32 ∧ LengthOk (withLog 0) ∧
      Num.fisfinite (withLog 0).dbmax = false) := by decide

/-- A usable divisor (GMAX = 99.0) and one of zero (GMAX = +0.0). -/
theorem test_witness_LogcRule :
    (Ready State.reset ∧ State.reset.nfft = 0#32) ∧
    (let s := { withLog 4 with gmax := 0x42C60000#32 };
      Ready s ∧ s.nfft ≠ 0#32 ∧ LengthOk s ∧ Num.feq0 (logcDivisor noDraw s.gmax) = false) ∧
    (Ready (withLog 0) ∧ (withLog 0).nfft ≠ 0#32 ∧ LengthOk (withLog 0) ∧
      Num.feq0 (logcDivisor noDraw (withLog 0).gmax) = true) := by decide +kernel

/-- V64: `NFFT = 0`; `SRATE = 0`; both set. -/
theorem test_witness_FaxisRule :
    (Ready State.reset ∧ State.reset.nfft = 0#32) ∧
    (Ready (withLog 3) ∧ (withLog 3).nfft ≠ 0#32 ∧ (withLog 3).srate = 0#32) ∧
    (let s := { withLog 18 with srate := 44100#32 };
      Ready s ∧ s.nfft ≠ 0#32 ∧ s.srate ≠ 0#32 ∧ LengthOk s) := by decide

theorem test_witness_FrequencyAxisStartsAtZero :
    let s := { withLog 18 with srate := 0xFFFFFFFF#32 }
    Ready s ∧ s.nfft ≠ 0#32 ∧ s.srate ≠ 0#32 ∧ LengthOk s ∧ ∃ t, Runs .faxis s t :=
  ⟨by decide, by decide, by decide, by decide, runs_of_check (by decide) (by decide)⟩

/-- Each kind of a bad access at the ends of its range, and the good offsets beside them. -/
theorem test_witness_BusErrorsChangeNothing :
    State.reset.rstN = true ∧ Width.byte ≠ .word ∧ (0x000002#23).toNat % 4 ≠ 0 ∧
    (0x3C ≤ (0x00003C#23).toNat ∧ (0x00003C#23).toNat < 0x100000) ∧
    (0x3C ≤ (0x0FFFFC#23).toNat ∧ (0x0FFFFC#23).toNat < 0x100000) ∧ 0x580000 ≤ (0x580000#23).toNat ∧
    [0x000000#23, 0x000038#23, 0x100000#23, 0x57FFFC#23].all (fun off : Offset =>
      decide (¬(Width.word ≠ .word ∨ off.toNat % 4 ≠ 0 ∨ (0x3C ≤ off.toNat ∧ off.toNat < 0x100000) ∨
        0x580000 ≤ off.toNat))) = true := by decide

theorem test_witness_RegistersReadBack : State.reset.rstN = true ∧ (inFlight .nop State.reset).rstN = true := by decide

theorem test_witness_RegisterWrites : State.reset.rstN = true ∧ State.reset.status.busy = false := by decide

/-- The first word of `RE`, written; the last word of `FRQ`, not written. -/
theorem test_witness_BufferAccessWhenIdle :
    (let s := filled .re [0x3F800000#32] State.reset;
      s.rstN = true ∧ s.status.busy = false ∧ 0 < Buf.re.words ∧ (0x100000#23).toNat = 0x100000 + 4 * 0 ∧
        Buf.re.peek s.mem 0 = some 0x3F800000#32) ∧
    (State.reset.rstN = true ∧ State.reset.status.busy = false ∧ 131071 < Buf.frq.words ∧
      (0x57FFFC#23).toNat = 0x500000 + 4 * 131071 ∧ Buf.frq.peek State.reset.mem 131071 = none) := by decide +kernel

/-- The first and the last register, the first and the last buffer word. -/
theorem test_witness_BusyAccess :
    let s := inFlight .nop State.reset
    s.rstN = true ∧ s.status.busy = true ∧
    [0x000000#23, 0x000038#23].all (fun off : Offset =>
      decide (off.toNat % 4 = 0 ∧ off.toNat < 0x3C ∧ off ≠ 0x08#23 ∧ off ≠ 0x0C#23)) = true ∧
    [0x100000#23, 0x57FFFC#23].all (fun off : Offset =>
      decide (off.toNat % 4 = 0 ∧ 0x100000 ≤ off.toNat ∧ off.toNat < 0x580000)) = true := by decide

/-- `rst_n` low with a transaction and an engine turn that wait, with no move of the pin to come; and with one. -/
theorem test_witness_HeldInReset :
    let waiting : List Move := [.read .word 0x0C#23, .complete]
    (∀ m ∈ waiting, m ≠ .resetLow ∧ m ≠ .resetHigh) ∧
    (let s := { State.reset with rstN := false, agenda := waiting };
      s.rstN = false ∧ s.agenda = waiting) ∧
    (let s := { State.reset with rstN := false, agenda := waiting ++ [Move.resetHigh, Move.resetLow] };
      s.rstN = false ∧ s.agenda = waiting ++ .resetHigh :: [.resetLow]) := by decide

/-- A state with a command in flight and a written word meets the invariants. -/
theorem invariants_inFlight : Invariants (inFlight .fft (filled .re [0x3F800000#32] (withLen 1))) := by
  refine ⟨by decide, by decide, by decide, ⟨.fft, rfl⟩, fun _ i hi => ?_,
    show MemOk (Buf.store .re [] 0 0x3F800000#32) from memOk_store memOk_nil⟩
  have : Except.ok Instr.fft = Except.ok (ε := DecodeError) i := hi
  cases this
  decide

theorem test_witness_StepKeepsInvariants :
    ∃ s t : State, Invariants s ∧ step s = .next t := ⟨_, _, invariants_inFlight, rfl⟩

theorem test_witness_InvariantsExcludeStops : ∃ s : State, Invariants s ∧ s.status.busy = true :=
  ⟨_, invariants_inFlight, rfl⟩

/-- Two transactions and an early reset release before the engine's turn; none at all. -/
theorem test_witness_AcceptedCommandCompletes :
    (let s := { inFlight .mag (withLog 3) with agenda := [.read .word 0x0C#23, .resetHigh, .write .word 0x0C#23 0x1E#32] };
      CurOk s ∧ s.status.busy = true ∧ s.rstN = true ∧ Move.resetLow ∉ s.agenda) ∧
    (let s := inFlight .nop State.reset;
      CurOk s ∧ s.status.busy = true ∧ s.rstN = true ∧ Move.resetLow ∉ s.agenda) :=
  ⟨⟨⟨.mag, rfl⟩, by decide, by decide, by decide⟩, ⟨.nop, rfl⟩, by decide, by decide, by decide⟩

/-- A read and a write of a buffer and of a register. -/
theorem test_witness_HostCannotDisturbCommand :
    let s := inFlight .nop State.reset
    s.rstN = true ∧ s.status.busy = true ∧ (∃ t, Takes (.read .word 0x100000#23) s t) ∧
      ∃ t, Takes (.write .word 0x20#23 8#32) s t :=
  ⟨rfl, rfl, ⟨_, rfl⟩, ⟨_, rfl⟩⟩

/-- The `Complete` of a PAD and of an FFT, and a reset. -/
theorem test_witness_OnlyPadAndFftSetTheLength :
    (∃ t, step (inFlight .pad (withLen 2)) = .next t ∧ t.nfft ≠ (inFlight .pad (withLen 2)).nfft) ∧
    (∃ t, step (inFlight .fft (withLen 1)) = .next t ∧ t.nfft ≠ (inFlight .fft (withLen 1)).nfft) ∧
    ∃ t, step { withLog 3 with rstN := false, agenda := [.resetHigh] } = .next t ∧ t.log2n ≠ (withLog 3).log2n :=
  ⟨⟨_, rfl, by decide⟩, ⟨_, rfl, by decide⟩, ⟨_, rfl, by decide⟩⟩

/-- A `Complete` that wraps the count; a reset; a step of an idle block. -/
theorem test_witness_CountsCompletionsOnly :
    (let s := inFlight .nop { State.reset with cmdCnt := 0xFFFFFFFF#32 };
      ∃ t, step s = .next t ∧ s.rstN = true ∧ s.status.busy = true ∧ t.status.busy = false) ∧
    (∃ t, step { State.reset with rstN := false, agenda := [.resetHigh] } = .next t) ∧
    ∃ t, step State.reset = .next t := ⟨⟨_, rfl, rfl, rfl, rfl⟩, ⟨_, rfl⟩, ⟨_, rfl⟩⟩

/-- `DEGEN` rises at a fallback; `BUSYERR` rises at a write while busy; both fall at a write to `STATUS`. -/
theorem test_witness_StickyFlags :
    (∃ t, step (inFlight .dbn (withLog 1)) = .next t ∧ t.status.degen = true) ∧
    (∃ t, step { inFlight .nop State.reset with agenda := [.write .word 0x20#23 1#32] } = .next t ∧
      t.status.busyErr = true) ∧
    (let s := { State.reset with
        status := { State.reset.status with degen := true, busyErr := true }
        agenda := [.write .word 0x0C#23 0x18#32] };
      ∃ t, step s = .next t ∧ s.status.degen = true ∧ t.status.degen = false ∧ s.status.busyErr = true ∧
        t.status.busyErr = false) :=
  ⟨⟨_, rfl, by decide⟩, ⟨_, rfl, by decide⟩, ⟨_, rfl, by decide, by decide, by decide, by decide⟩⟩

/-- A host write of a NaN to each accumulator. -/
theorem test_witness_AccumulatorsStayNumbers :
    (∃ t, step { State.reset with agenda := [.write .word 0x34#23 0x7FC00000#32] } = .next t ∧
      Num.isNaN State.reset.gmax = false ∧ Num.isNaN t.gmax = true) ∧
    (∃ t, step { State.reset with agenda := [.write .word 0x38#23 0x7FC00000#32] } = .next t ∧
      Num.isNaN State.reset.dbmax = false ∧ Num.isNaN t.dbmax = true) :=
  ⟨⟨_, rfl, by decide, by decide⟩, ⟨_, rfl, by decide, by decide⟩⟩

/-- A denominator; and what is rounded at a tie (2^24 + 1/2 ulp), at the largest finite value and at the first value that
overflows. -/
theorem test_witness_RoundingIsToNearestEven :
    0 < 1 ∧ Num.roundMag (2 ^ 24 + 1) 1 = 0x01000000 ∧ Num.roundMag ((2 ^ 24 - 1) * 2 ^ 253) 1 < Num.infBits ∧
      Num.roundMag ((2 ^ 25 - 1) * 2 ^ 252) 1 = Num.infBits := by decide +kernel

/-- 1 + 2 = 3; 3 - 2 = 1; 2 · 3 = 6. -/
theorem test_witness_ExactResultsAreReturned :
    let one := 0x3F800000#32
    let two := 0x40000000#32
    let three := 0x40400000#32
    let six := 0x40C00000#32
    [one, two, three, six].all (fun x => Num.fisfinite x && !Num.feq0 x) = true ∧
      Num.intUnits one + Num.intUnits two = Num.intUnits three ∧
      Num.intUnits three - Num.intUnits two = Num.intUnits one ∧
      Num.intUnits two * Num.intUnits three = Num.intUnits six * 2 ^ 149 := by decide +kernel

/-- Infinity, a zero of each sign, a subnormal. -/
theorem test_witness_NeutralOperands :
    (0xFF800000#32 ≠ 0x80000000#32 ∧ Num.isNaN 0xFF800000#32 = false) ∧ Num.isNaN 0x80000000#32 = false ∧
      Num.fisfinite 0x80000000#32 = true ∧ Num.fisfinite 0x00000001#32 = true := by decide

theorem test_witness_RootsOfSquares : 0 < 4096 ∧ 4095 < 4096 := by decide

/-- NaNs of both signs; both infinities; finite values at the ends of their range; both zeros; a negative value. -/
theorem test_witness_SpecialResults :
    (Num.isNaN 0x7F800001#32 = true ∧ Num.isNaN 0xFFFFFFFF#32 = true) ∧
    (Num.isInf 0x7F800000#32 = true ∧ Num.isInf 0xFF800000#32 = true) ∧
    (Num.fisfinite 0x00000001#32 = true ∧ Num.fisfinite 0xFF7FFFFF#32 = true ∧ Num.feq0 0x00000001#32 = false) ∧
    (Num.fisfinite 0x80000000#32 = true ∧ Num.feq0 0x80000000#32 = true ∧ Num.feq0 0x00000000#32 = true) ∧
    ((0x80000001#32).msb = true ∧ Num.isNaN 0x80000001#32 = false ∧ Num.feq0 0x80000001#32 = false) ∧
    ((0xFF800000#32).msb = true ∧ Num.isNaN 0xFF800000#32 = false ∧ Num.feq0 0xFF800000#32 = false) := by decide

/-- A NaN; finite values at the ends of their range, -0.0 among them. -/
theorem test_witness_OrderedComparisons :
    Num.isNaN 0x7F800001#32 = true ∧ Num.fisfinite 0x80000000#32 = true ∧ Num.fisfinite 0x7F7FFFFF#32 = true ∧
      Num.fisfinite 0xFF7FFFFF#32 = true := by decide

/-- The largest finite values of both signs, whose sum is zero. -/
theorem test_witness_SumsRoundOnce :
    Num.fisfinite 0x7F7FFFFF#32 = true ∧ Num.fisfinite 0xFF7FFFFF#32 = true ∧
      Num.intUnits 0x7F7FFFFF#32 + Num.intUnits 0xFF7FFFFF#32 = 0 := by decide +kernel

/-- The largest finite value and the least one, as product and as quotient. -/
theorem test_witness_ProductsAndQuotientsRoundOnce :
    Num.fisfinite 0x7F7FFFFF#32 = true ∧ Num.fisfinite 0x80000001#32 = true ∧ Num.feq0 0x80000001#32 = false := by decide

/-- The least and the largest positive finite value. -/
theorem test_witness_RootsAndIntegersRoundOnce :
    [0x00000001#32, 0x7F7FFFFF#32].all (fun a => Num.fisfinite a && !Num.feq0 a && !a.msb) = true := by decide

/-- After reset, for a command with no operand check; a command whose check passes. -/
theorem test_witness_RunsOfOneCommandEnd :
    (State.reset.rstN = true ∧ State.reset.agenda = [] ∧ Ready State.reset ∧ Instr.nop.wellFormed = true ∧
      issueCheck .nop State.reset = none) ∧
    (let s := withLog 5;
      s.rstN = true ∧ s.agenda = [] ∧ Ready s ∧ (Instr.stage 5).wellFormed = true ∧
        issueCheck (.stage 5) s = none) := by decide

theorem test_witness_NextPowerOfTwo : 1 ≤ 1 ∧ (5 ≤ 2 ^ 3) := by decide

theorem test_witness_BitReversal : 0 < 2 ^ 0 ∧ 262143 < 2 ^ 18 ∧ 17 < 18 := by decide

end Sys2Proof.Tests
end

section
/-! PROOF. The one rounding is correct (00_scope R6, R8 (a)): before the cap at infinity the binade and the whole number in it
give a magnitude nearest of ALL magnitudes, those above the largest finite one too; the cap then is the overflow rule. -/

namespace Sys2Proof.Machine.Num

/-- How far the magnitude `y` lies from `n / d` units, times `d`. -/
def gap (n d y : Nat) : Nat := ((n : Int) - d * unitsOf y).natAbs

/-- The magnitude `m` is nearest to `n / d` units, even where another is as near. -/
def Best (n d m : Nat) : Prop := ∀ x, gap n d m ≤ gap n d x ∧ (gap n d x = gap n d m → x ≠ m → m % 2 = 0)

/-- `roundMag` before the cap at infinity. -/
def roundWide (n d : Nat) : Nat :=
  let e := Nat.log2 (n / d) - 23
  e * 2 ^ 23 + divRoundEven n (d * 2 ^ e)

theorem roundMag_eq_min (n d : Nat) : roundMag n d = min (roundWide n d) infBits := rfl

/-- The quotient lies in the binade that its logarithm chooses: below its end, and from its start where it is not the first. -/
theorem binade_bounds {n d : Nat} (hd : 0 < d) :
    n < d * 2 ^ (Nat.log2 (n / d) - 23) * 2 ^ 24 ∧
      (Nat.log2 (n / d) - 23 ≠ 0 → d * 2 ^ (Nat.log2 (n / d) - 23) * 2 ^ 23 ≤ n) := by
  constructor
  · have h : n / d < 2 ^ (Nat.log2 (n / d) - 23 + 24) :=
      lt_of_lt_of_le Nat.lt_log2_self (Nat.pow_le_pow_right (by decide) (by omega))
    rw [Nat.mul_assoc, ← Nat.pow_add, Nat.mul_comm]
    exact (Nat.div_lt_iff_lt_mul hd).1 h
  · intro he
    have h0 : n / d ≠ 0 := by intro h0; simp [h0] at he
    have h : 2 ^ (Nat.log2 (n / d) - 23 + 23) ≤ n / d := by
      rw [show Nat.log2 (n / d) - 23 + 23 = Nat.log2 (n / d) by omega]
      exact Nat.log2_self_le h0
    rw [Nat.mul_assoc, ← Nat.pow_add, Nat.mul_comm]
    exact (Nat.le_div_iff_mul_le hd).1 h

/-- The whole number of steps stays in the binade, its two ends included. -/
theorem divRoundEven_bounds {n D : Nat} (hD : 0 < D) (hn : n < D * 2 ^ 24) :
    divRoundEven n D ≤ 2 ^ 24 ∧ (D * 2 ^ 23 ≤ n → 2 ^ 23 ≤ divRoundEven n D) := by
  obtain ⟨hlo, hhi, -, -⟩ := divRoundEven_spec (n := n) hD rfl
  constructor
  · by_contra h
    have : D * (2 ^ 24 + 1) ≤ D * divRoundEven n D := Nat.mul_le_mul_left D (by omega)
    omega
  · intro hs
    by_contra h
    have : D * (divRoundEven n D + 1) ≤ D * 2 ^ 23 := Nat.mul_le_mul_left D (by omega)
    rw [Nat.mul_add] at this
    omega

/-- Rounding to a whole number gives a nearest one, even where two are. -/
theorem divRoundEven_nearest {n D : Nat} (hD : 0 < D) (j : Nat) :
    ((n : Int) - D * divRoundEven n D).natAbs ≤ ((n : Int) - D * j).natAbs ∧
      (((n : Int) - D * j).natAbs = ((n : Int) - D * divRoundEven n D).natAbs → j ≠ divRoundEven n D →
        divRoundEven n D % 2 = 0) := by
  obtain ⟨hlo, hhi, htie, htie'⟩ := divRoundEven_spec (n := n) hD rfl
  generalize divRoundEven n D = k at *
  rcases lt_trichotomy j k with h | h | h
  · have := Nat.mul_le_mul_left D h
    rw [Nat.mul_succ] at this
    rw [← Int.natCast_mul, ← Int.natCast_mul]
    constructor <;> omega
  · subst h; exact ⟨le_rfl, fun _ h => absurd rfl h⟩
  · have := Nat.mul_le_mul_left D h
    rw [Nat.mul_succ] at this
    rw [← Int.natCast_mul, ← Int.natCast_mul]
    constructor <;> omega

/-- Without a cap the rounding gives a nearest magnitude: on its binade's grid by `divRoundEven_nearest`, and below the
binade nothing is nearer than the binade's start. -/
theorem roundWide_best {n d : Nat} (hd : 0 < d) : Best n d (roundWide n d) := by
  obtain ⟨hhi, hlo⟩ := binade_bounds (n := n) hd
  simp only [roundWide]
  generalize Nat.log2 (n / d) - 23 = e at *
  have hD : 0 < d * 2 ^ e := Nat.mul_pos hd (Nat.two_pow_pos e)
  obtain ⟨htop, hbot⟩ := divRoundEven_bounds hD hhi
  have hk := divRoundEven_nearest (n := n) hD
  have hu := unitsOf_binade htop fun he => hbot (hlo he)
  generalize hkd : divRoundEven n (d * 2 ^ e) = k at *
  have grid (y j : Nat) (hy : unitsOf y = j * 2 ^ e) : gap n d y = ((n : Int) - (d * 2 ^ e : Nat) * j).natAbs := by
    rw [gap, hy]; push_cast; ring_nf
  intro x
  rw [grid _ _ hu]
  rcases unitsOf_grid e x with ⟨j, hj⟩ | ⟨he, hx⟩
  · rw [grid _ _ hj]
    refine ⟨(hk j).1, fun heq hne => ?_⟩
    have hjk : j ≠ k := by
      rintro rfl
      exact hne (unitsOf_strictMono.injective (hj.trans hu.symm))
    have := (hk j).2 heq hjk
    omega
  · obtain ⟨start, hs⟩ : ∃ start, start = 2 ^ 23 := ⟨_, rfl⟩
    rw [← hs] at hx hlo
    have hstart := (hk start).1
    have hfar := Nat.mul_lt_mul_of_pos_left hx hd
    have hin := hlo (by omega)
    rw [Nat.mul_comm start, ← Nat.mul_assoc] at hfar
    rw [gap]
    simp only [← Int.natCast_mul] at hstart ⊢
    constructor <;> omega

/-- Infinity's bits stand for the first value above the format's largest. -/
theorem unitsOf_infBits : unitsOf infBits = 2 ^ 24 * 2 ^ 253 := by
  rw [show infBits = 253 * 2 ^ 23 + 2 ^ 24 by norm_num [infBits]]
  exact unitsOf_binade le_rfl fun _ => by decide

/-- The largest finite value. -/
theorem unitsOf_infBits_pred : unitsOf (infBits - 1) = (2 ^ 24 - 1) * 2 ^ 253 := by
  rw [show infBits - 1 = 253 * 2 ^ 23 + (2 ^ 24 - 1) by norm_num [infBits]]
  exact unitsOf_binade (by decide) fun _ => by decide

/-- A nearest magnitude reaches infinity exactly from the midpoint above the largest finite value, which is odd and so
loses the tie. -/
theorem Best.infBits_le_iff {n d m : Nat} (hd : 0 < d) (h : Best n d m) :
    infBits ≤ m ↔ d * (2 ^ 25 - 1) * 2 ^ 253 ≤ 2 * n := by
  have hmid : d * (2 ^ 25 - 1) * 2 ^ 253 = (2 ^ 25 - 1) * (d * 2 ^ 253) := by ring
  have hinf : d * unitsOf infBits = 2 ^ 24 * (d * 2 ^ 253) := by rw [unitsOf_infBits]; ring
  have hmax : d * unitsOf (infBits - 1) = (2 ^ 24 - 1) * (d * 2 ^ 253) := by rw [unitsOf_infBits_pred]; ring
  have hP : 0 < d * 2 ^ 253 := Nat.mul_pos hd (Nat.two_pow_pos _)
  have mono {x y : Nat} (hxy : x ≤ y) : d * unitsOf x ≤ d * unitsOf y :=
    Nat.mul_le_mul_left d (unitsOf_strictMono.monotone hxy)
  rw [hmid]
  obtain ⟨hgmax, htmax⟩ := h (infBits - 1)
  obtain ⟨hginf, htinf⟩ := h infBits
  simp only [gap, ← Int.natCast_mul, hinf, hmax] at hgmax htmax hginf htinf
  generalize d * 2 ^ 253 = P at hgmax htmax hginf htinf hinf hmax hP ⊢
  constructor
  · intro hm
    have := mono hm
    omega
  · intro hn
    by_contra hm
    have hm' : m ≤ infBits - 1 := by omega
    have hle := mono hm'
    have heven : m % 2 = 0 := htinf (by omega) (by omega)
    have hne : m ≠ infBits - 1 := by rintro rfl; exact absurd heven (by decide)
    have := htmax (by omega) (Ne.symm hne)
    have hlt : d * unitsOf m < d * unitsOf (infBits - 1) :=
      Nat.mul_lt_mul_of_pos_left (unitsOf_strictMono (by omega)) hd
    omega

/-- The cap at infinity turns a nearest magnitude into the rounded one. -/
theorem Best.nearest {n d m : Nat} (hd : 0 < d) (h : Best n d m) : Nearest n d (min m infBits) := by
  refine ⟨?_, Nat.min_le_right _ _, fun hlt x _ => ?_⟩
  · rw [← h.infBits_le_iff hd]; omega
  · rw [show min m infBits = m by omega]
    exact h x

/-- The one rounding is correct. -/
theorem roundMag_nearest (n : Nat) {d : Nat} (hd : 0 < d) : Nearest n d (roundMag n d) := by
  rw [roundMag_eq_min]
  exact (roundWide_best hd).nearest hd

/-- Settles O47: the uncapped rounding is nearest of all magnitudes, and the cap is the overflow rule. -/
theorem roundingIsToNearestEven : Obligations.RoundingIsToNearestEven := fun n _ hd => roundMag_nearest n hd

end Sys2Proof.Machine.Num
end

section
/-! PROOF. Sums, products, quotients and whole numbers are the one rounding of the exact value (00_scope R8 (a)), and return
it where it is a float (00_scope R9). -/

namespace Sys2Proof.Machine.Num

/-! ### Finite floats as whole multiples of the unit -/

theorem natAbs_intUnits (w : Word) : (intUnits w).natAbs = units w := by
  unfold intUnits
  split <;> simp

theorem units_eq_zero {w : Word} : units w = 0 ↔ feq0 w = true := by
  rw [units, unitsOf_eq_zero, feq0, decide_eq_true_eq]

theorem intUnits_eq_zero {w : Word} : intUnits w = 0 ↔ feq0 w = true := by
  rw [← units_eq_zero, ← natAbs_intUnits, Int.natAbs_eq_zero]

/-- The sign of a float other than zero is its value's. -/
theorem intUnits_neg {w : Word} (h : feq0 w = false) : decide (intUnits w < 0) = sign w := by
  have h0 : units w ≠ 0 := by simp [units_eq_zero, h]
  unfold intUnits
  cases sign w
  · simp
  · simp; omega

/-- The sign of a product other than zero is the product of the signs. -/
theorem intUnits_mul_neg {a b : Word} (ha : feq0 a = false) (hb : feq0 b = false) :
    decide (intUnits a * intUnits b < 0) = (sign a != sign b) := by
  have ha' : 0 < units a := by simp [Nat.pos_iff_ne_zero, units_eq_zero, ha]
  have hb' : 0 < units b := by simp [Nat.pos_iff_ne_zero, units_eq_zero, hb]
  have hab : 0 < (units a : Int) * units b := by positivity
  unfold intUnits
  cases sign a <;> cases sign b <;> simp <;> omega

/-- A zero is one of the two zero words. -/
theorem eq_of_feq0 {w : Word} (h : feq0 w = true) : w = pack (sign w) 0 := by
  rw [feq0, decide_eq_true_eq] at h
  rw [← h, pack_sign_magBits]

/-! ### What is rounded -/

@[simp] theorem magBits_pack_roundMag (s : Bool) (n d : Nat) : magBits (pack s (roundMag n d)) = roundMag n d :=
  magBits_pack (roundMag_lt n d)

@[simp] theorem sign_pack_roundMag (s : Bool) (n d : Nat) : sign (pack s (roundMag n d)) = s := sign_pack (roundMag_lt n d)

/-- `roundInt` is the rounding of the magnitude under the value's sign, the given one for a zero. -/
theorem roundInt_eq_pack (v : Int) (d : Nat) (zs : Bool) :
    roundInt v d zs = pack (if v = 0 then zs else decide (v < 0)) (roundMag v.natAbs d) := by
  unfold roundInt
  split
  · next h => simp [h]
  · rfl

/-- A finite float's own units round to it. -/
theorem roundMag_units {w : Word} {d : Nat} (h : fisfinite w = true) (hd : 0 < d) : roundMag (units w * d) d = magBits w :=
  roundMag_exact (finite_cases h).2.2 hd

/-- A finite float other than zero is the rounding of its own value. -/
theorem roundInt_intUnits {w : Word} (zs : Bool) (h : fisfinite w = true) (h0 : feq0 w = false) :
    roundInt (intUnits w) 1 zs = w := by
  have hv : intUnits w ≠ 0 := by simp [intUnits_eq_zero, h0]
  rw [roundInt_eq_pack, if_neg hv, intUnits_neg h0, natAbs_intUnits, ← Nat.mul_one (units w), roundMag_units h Nat.one_pos,
    pack_sign_magBits]

/-- A finite float is the rounding of its own value under its own sign. -/
theorem roundInt_intUnits_sign {w : Word} (h : fisfinite w = true) : roundInt (intUnits w) 1 (sign w) = w := by
  cases h0 : feq0 w
  · exact roundInt_intUnits _ h h0
  · rw [roundInt, if_pos (intUnits_eq_zero.2 h0), ← eq_of_feq0 h0]

/-- Where the exact product is a float other than zero, the rounded one is that float. -/
theorem fmul_exact {a b c : Word} (d : Draw) (ha : fisfinite a = true) (hb : fisfinite b = true) (hc : fisfinite c = true)
    (h0 : feq0 c = false) (h : intUnits a * intUnits b = intUnits c * 2 ^ 149) : fmul d a b = c := by
  have hne : intUnits a * intUnits b ≠ 0 := by
    rw [h]
    exact Int.mul_ne_zero (by simp [intUnits_eq_zero, h0]) (by positivity)
  have ha0 : feq0 a = false := by
    simpa [intUnits_eq_zero] using left_ne_zero_of_mul hne
  have hb0 : feq0 b = false := by
    simpa [intUnits_eq_zero] using right_ne_zero_of_mul hne
  have hmag : units a * units b = units c * 2 ^ 149 := by
    simpa [Int.natAbs_mul, natAbs_intUnits, Int.natAbs_pow] using congrArg Int.natAbs h
  have hsign : (sign a != sign b) = sign c := by
    rw [← intUnits_mul_neg ha0 hb0, ← intUnits_neg h0, h, decide_eq_decide]
    omega
  rw [fmul_finite d ha hb, hmag, hsign, roundMag_units hc (Nat.two_pow_pos _), pack_sign_magBits]

/-- Settles O56: both operations are one `roundInt` of the exact value. -/
theorem sumsRoundOnce : Obligations.SumsRoundOnce := by
  intro d a b ha hb
  have rounded (v : Int) (zs : Bool) : Nearest v.natAbs 1 (magBits (roundInt v 1 zs)) ∧
      sign (roundInt v 1 zs) = if v = 0 then zs else decide (v < 0) := by
    rw [roundInt_eq_pack, magBits_pack_roundMag, sign_pack_roundMag]
    exact ⟨roundMag_nearest _ Nat.one_pos, rfl⟩
  rw [fadd_finite d ha hb, fsub_finite d ha hb]
  exact ⟨rounded _ _, rounded _ _⟩

/-- Settles O57: both operations are `roundMag` of the exact value under the product of the signs. -/
theorem productsAndQuotientsRoundOnce : Obligations.ProductsAndQuotientsRoundOnce := by
  intro d a b ha hb
  constructor
  · rw [fmul_finite d ha hb, magBits_pack_roundMag]
    exact ⟨roundMag_nearest _ (Nat.two_pow_pos _), sign_pack_roundMag ..⟩
  · intro h0
    have hpos : 0 < units b := by simp [Nat.pos_iff_ne_zero, units_eq_zero, h0]
    rw [fdiv_finite d ha hb h0, magBits_pack_roundMag]
    exact ⟨roundMag_nearest _ hpos, sign_pack_roundMag ..⟩

/-- Settles O48: a float's own units round to it. -/
theorem exactResultsAreReturned : Obligations.ExactResultsAreReturned := by
  intro d a b c ha hb hc h0
  refine ⟨fun h => ?_, fun h => ?_, fmul_exact d ha hb hc h0⟩
  · rw [fadd_finite d ha hb, h, roundInt_intUnits _ hc h0]
  · rw [fsub_finite d ha hb, h, roundInt_intUnits _ hc h0]

end Sys2Proof.Machine.Num
end

section
/-! PROOF. The special results of 00_scope R8 and the neutral operands of R9. -/

namespace Sys2Proof.Machine.Num

/-! ### Infinities -/

/-- An infinity is no NaN, not finite and no zero. -/
theorem inf_cases {w : Word} (h : isInf w = true) :
    isNaN w = false ∧ fisfinite w = false ∧ feq0 w = false ∧ magBits w = infBits := by
  simp only [isInf, decide_eq_true_eq] at h
  simp [isNaN, fisfinite, feq0, h, infBits]

theorem isInf_or_fisfinite {w : Word} (h : isNaN w = false) : isInf w = true ∨ fisfinite w = true := by
  simp only [isNaN, isInf, fisfinite, decide_eq_false_iff_not, decide_eq_true_eq] at *
  omega

/-- An infinity is one of the two infinite words. -/
theorem pack_sign_infBits {w : Word} (h : isInf w = true) : pack (sign w) infBits = w := by
  rw [← (inf_cases h).2.2.2, pack_sign_magBits]

/-- A NaN result is a NaN: its fraction is never zero. -/
theorem isNaN_nan (d : Draw) : isNaN (nan d) = true := by
  have hlt : magBits d.word % 2 ^ 23 < 2 ^ 23 := Nat.mod_lt _ (by decide)
  rw [isNaN, nan, magBits_pack (by simp only [infBits]; split <;> omega), decide_eq_true_eq]
  split <;> omega

@[simp] theorem isNaN_fneg (w : Word) : isNaN (fneg w) = isNaN w := by simp [isNaN]

@[simp] theorem isInf_fneg (w : Word) : isInf (fneg w) = isInf w := by simp [isInf]

/-! ### The operations with a NaN or an infinity -/

theorem fadd_nan {a b : Word} (d : Draw) (h : isNaN a = true ∨ isNaN b = true) : fadd d a b = nan d := by
  simp [fadd, h]

theorem fadd_inf_inf {a b : Word} (d : Draw) (ha : isInf a = true) (hb : isInf b = true) :
    fadd d a b = if sign a != sign b then nan d else a := by
  simp [fadd, ha, hb, inf_cases ha, inf_cases hb]

theorem fadd_inf_finite {a b : Word} (d : Draw) (ha : isInf a = true) (hb : fisfinite b = true) : fadd d a b = a := by
  simp [fadd, ha, inf_cases ha, finite_cases hb]

theorem fadd_finite_inf {a b : Word} (d : Draw) (ha : fisfinite a = true) (hb : isInf b = true) : fadd d a b = b := by
  simp [fadd, hb, inf_cases hb, finite_cases ha]

theorem fmul_nan {a b : Word} (d : Draw) (h : isNaN a = true ∨ isNaN b = true) : fmul d a b = nan d := by
  simp [fmul, h]

/-- A product with an infinity in either position. -/
theorem fmul_inf {a b : Word} (d : Draw) (ha : isNaN a = false) (hb : isNaN b = false)
    (h : isInf a = true ∨ isInf b = true) :
    fmul d a b = if feq0 a || feq0 b then nan d else pack (sign a != sign b) infBits := by
  simp [fmul, ha, hb, h]

theorem fdiv_nan {a b : Word} (d : Draw) (h : isNaN a = true ∨ isNaN b = true) : fdiv d a b = nan d := by
  simp [fdiv, h]

theorem fdiv_inf_inf {a b : Word} (d : Draw) (ha : isInf a = true) (hb : isInf b = true) : fdiv d a b = nan d := by
  simp [fdiv, ha, hb, inf_cases ha, inf_cases hb]

theorem fdiv_inf_finite {a b : Word} (d : Draw) (ha : isInf a = true) (hb : fisfinite b = true) :
    fdiv d a b = pack (sign a != sign b) infBits := by
  simp [fdiv, ha, inf_cases ha, finite_cases hb]

theorem fdiv_finite_inf {a b : Word} (d : Draw) (ha : fisfinite a = true) (hb : isInf b = true) :
    fdiv d a b = pack (sign a != sign b) 0 := by
  simp [fdiv, hb, inf_cases hb, finite_cases ha]

theorem fisfinite_of_feq0 {w : Word} (h : feq0 w = true) : fisfinite w = true := by
  simp only [feq0, decide_eq_true_eq] at h
  simp [fisfinite, h, infBits]

theorem fdiv_zero {a b : Word} (d : Draw) (ha : fisfinite a = true) (hb : feq0 b = true) :
    fdiv d a b = if feq0 a then nan d else pack (sign a != sign b) infBits := by
  simp [fdiv, hb, finite_cases ha, finite_cases (fisfinite_of_feq0 hb)]

/-! ### The words of the results -/

/-- The infinity of a sign, as R8 writes it. -/
theorem pack_infBits (s : Bool) : pack s infBits = if s then 0x7F800000#32 ||| 0x80000000#32 else 0x7F800000#32 := by
  cases s <;> decide

/-- The zero of a sign, as R8 writes it. -/
theorem pack_zero (s : Bool) : pack s 0 = if s then 0x00000000#32 ||| 0x80000000#32 else 0x00000000#32 := by
  cases s <;> decide

/-! ### Neutral operands -/

/-- `1.0` has 2^149 units. -/
theorem units_one : units 0x3F800000#32 = 2 ^ 149 := by decide +kernel

/-- `P_add0`. -/
theorem fadd_zero {x : Word} (d : Draw) (h0 : x ≠ 0x80000000#32) (h : isNaN x = false) : fadd d x 0x00000000#32 = x := by
  have hz : fisfinite 0x00000000#32 = true := by decide
  rcases isInf_or_fisfinite h with hx | hx
  · exact fadd_inf_finite d hx hz
  rw [fadd_finite d hx hz, show intUnits 0x00000000#32 = 0 by decide, Int.add_zero]
  cases hx0 : feq0 x
  · exact roundInt_intUnits _ hx hx0
  · have hs : sign x = false := by
      by_contra hs
      rw [Bool.not_eq_false] at hs
      exact h0 (by rw [eq_of_feq0 hx0, hs]; rfl)
    rw [show (sign x && sign 0x00000000#32) = sign x by rw [hs]; rfl]
    exact roundInt_intUnits_sign hx

/-- `P_mul1`. -/
theorem fmul_one {x : Word} (d : Draw) (h : isNaN x = false) : fmul d x 0x3F800000#32 = x := by
  have hs : (sign x != sign 0x3F800000#32) = sign x := by
    rw [show sign 0x3F800000#32 = false by decide, Bool.bne_false]
  rcases isInf_or_fisfinite h with hx | hx
  · rw [fmul_inf d h (by decide) (.inl hx), hs, (inf_cases hx).2.2.1, pack_sign_infBits hx]
    rfl
  · rw [fmul_finite d hx (by decide), hs, units_one, roundMag_units hx (Nat.two_pow_pos _), pack_sign_magBits]

/-- `P_mul0`. -/
theorem feq0_fmul_zero {x : Word} (d : Draw) (hx : fisfinite x = true) : feq0 (fmul d x 0x00000000#32) = true := by
  rw [fmul_finite d hx (by decide), show units 0x00000000#32 = 0 by decide, Nat.mul_zero, feq0, magBits_pack_roundMag,
    roundMag_zero]
  rfl

/-- `P_sub_self`. -/
theorem fsub_self {x : Word} (d : Draw) (hx : fisfinite x = true) : fsub d x x = 0x00000000#32 := by
  rw [fsub_finite d hx hx, Int.sub_self, Bool.and_not_self]
  rfl

/-- Settles O49, one lemma of R9 per clause. -/
theorem neutralOperands : Obligations.NeutralOperands := fun d _ =>
  ⟨fadd_zero d, fmul_one d, feq0_fmul_zero d, fsub_self d⟩

/-! ### The root, the cosine and the logarithm -/

theorem fsqrt_zero {a : Word} (d : Draw) (h : feq0 a = true) : fsqrt d a = a := by
  simp [fsqrt, h, finite_cases (fisfinite_of_feq0 h)]

theorem flog10_zero {a : Word} (d : Draw) (h : feq0 a = true) : flog10 d a = negInf := by
  simp [flog10, h, finite_cases (fisfinite_of_feq0 h)]

theorem fcos_of_not_finite {a : Word} (d : Draw) (h : fisfinite a = false) : fcos d a = nan d := by simp [fcos, h]

theorem fisfinite_of_isNaN {a : Word} (h : isNaN a = true) : fisfinite a = false := by
  by_contra hf
  rw [Bool.not_eq_false] at hf
  simp [finite_cases hf] at h

/-- Settles O52, one lemma per operation and pair of kinds; the difference is the sum with the second sign changed. -/
theorem specialResults : Obligations.SpecialResults := by
  refine ⟨isNaN_nan, fun d a b => ⟨fun h => ?nan, fun ha hb => ?infInf, fun ha hb => ?infFinite, fun ha hb => ?zero⟩,
    fun d a => ⟨fun h => ?unaryNaN, fun hs hn h0 => ?negative, fun h => ⟨fsqrt_zero d h, flog10_zero d h⟩,
      fun h => fcos_of_not_finite d (inf_cases h).2.1, rfl, rfl⟩⟩
  case nan => exact ⟨fadd_nan d h, fadd_nan d (by simpa using h), fmul_nan d h, fdiv_nan d h⟩
  case infInf =>
    obtain ⟨hna, -, h0a, -⟩ := inf_cases ha
    obtain ⟨hnb, -, h0b, -⟩ := inf_cases hb
    refine ⟨fdiv_inf_inf d ha hb, ?_, fadd_inf_inf d ha hb, ?_⟩
    · rw [fmul_inf d hna hnb (.inl ha), h0a, h0b, pack_infBits]
      rfl
    · rw [fsub, fadd_inf_inf d ha (by simpa using hb), sign_fneg]
      change _ = if sign a != sign b then a else nan d
      cases sign a <;> cases sign b <;> rfl
  case infFinite =>
    obtain ⟨hna, -, h0a, -⟩ := inf_cases ha
    obtain ⟨hnb, -, -⟩ := finite_cases hb
    refine ⟨fadd_inf_finite d ha hb, fadd_finite_inf d hb ha, fadd_inf_finite d ha (fisfinite_fneg hb),
      fadd_finite_inf d hb (by simpa using ha), ?_, ?_, ?_⟩
    · rw [fdiv_inf_finite d ha hb, pack_infBits]
      rfl
    · rw [fdiv_finite_inf d hb ha, pack_zero, bne_comm]
      rfl
    · rw [fmul_inf d hna hnb (.inl ha), fmul_inf d hnb hna (.inr ha), h0a, bne_comm (a := sign b), pack_infBits]
      cases feq0 b
      · exact ⟨rfl, rfl⟩
      · exact ⟨rfl, rfl⟩
  case zero =>
    rw [fdiv_zero d ha hb, pack_infBits]
    rfl
  case unaryNaN =>
    exact ⟨by simp [fsqrt, h], fcos_of_not_finite d (fisfinite_of_isNaN h), by simp [flog10, h]⟩
  case negative =>
    exact ⟨by simp [fsqrt, hn, h0, sign, hs], by simp [flog10, hn, h0, sign, hs]⟩

end Sys2Proof.Machine.Num
end

section
/-! PROOF. The ordered comparisons (00_scope R8 (c)) and the integer helpers (R11). -/

namespace Sys2Proof.Machine.Num

/-! ### Comparisons -/

/-- The key orders the finite floats as their values. -/
theorem orderKey_lt_iff {a b : Word} : orderKey a < orderKey b ↔ intUnits a < intUnits b := by
  have hlt : units a < units b ↔ magBits a < magBits b := unitsOf_strictMono.lt_iff_lt
  have hgt : units b < units a ↔ magBits b < magBits a := unitsOf_strictMono.lt_iff_lt
  have ha : units a = 0 ↔ magBits a = 0 := unitsOf_eq_zero
  have hb : units b = 0 ↔ magBits b = 0 := unitsOf_eq_zero
  unfold orderKey intUnits
  cases sign a <;> cases sign b <;> simp only [Bool.false_eq_true, if_false, if_true] <;> omega

/-- Turning a comparison round. -/
theorem flt_eq_fgt (a b : Word) : flt a b = fgt b a := by
  rw [flt, fgt, Bool.and_comm (!isNaN a)]

theorem fgt_nan {a b : Word} (h : isNaN a = true ∨ isNaN b = true) : fgt a b = false := by
  rcases h with h | h <;> simp [fgt, h]

theorem fgt_iff {a b : Word} (ha : isNaN a = false) (hb : isNaN b = false) : fgt a b = true ↔ orderKey b < orderKey a := by
  simp [fgt, ha, hb]

theorem fgt_finite {a b : Word} (ha : fisfinite a = true) (hb : fisfinite b = true) :
    fgt a b = true ↔ intUnits b < intUnits a := by
  rw [fgt_iff (finite_cases ha).1 (finite_cases hb).1, orderKey_lt_iff]

/-- The key of a finite float lies between those of the infinities. -/
theorem orderKey_finite {a : Word} (h : fisfinite a = true) :
    orderKey 0xFF800000#32 < orderKey a ∧ orderKey a < orderKey 0x7F800000#32 := by
  obtain ⟨-, -, hm⟩ := finite_cases h
  rw [show orderKey 0xFF800000#32 = -infBits by decide, show orderKey 0x7F800000#32 = infBits by decide, orderKey]
  split <;> omega

/-- `+Inf` exceeds every finite float, and is exceeded by none. -/
theorem fgt_posInf {a : Word} (h : fisfinite a = true) : fgt 0x7F800000#32 a = true ∧ fgt a 0x7F800000#32 = false := by
  have hk := (orderKey_finite h).2
  obtain ⟨hn, -, -⟩ := finite_cases h
  exact ⟨(fgt_iff (by decide) hn).2 hk, Bool.eq_false_iff.2 fun hf => by have := (fgt_iff hn (by decide)).1 hf; omega⟩

/-- Every finite float exceeds `-Inf`, which exceeds none. -/
theorem fgt_negInf {a : Word} (h : fisfinite a = true) : fgt a 0xFF800000#32 = true ∧ fgt 0xFF800000#32 a = false := by
  have hk := (orderKey_finite h).1
  obtain ⟨hn, -, -⟩ := finite_cases h
  exact ⟨(fgt_iff hn (by decide)).2 hk, Bool.eq_false_iff.2 fun hf => by have := (fgt_iff (by decide) hn).1 hf; omega⟩

/-- Settles O53: the key is the order of the values, with the infinities outermost. -/
theorem orderedComparisons : Obligations.OrderedComparisons := by
  refine ⟨fun a b => ⟨fun h => ?_, fun ha hb => ?_⟩, fun a ha => ?_, by decide⟩
  · exact ⟨fgt_nan h, flt_eq_fgt a b ▸ fgt_nan h.symm⟩
  · exact ⟨fgt_finite ha hb, flt_eq_fgt a b ▸ fgt_finite hb ha⟩
  · simp only [flt_eq_fgt, fgt_posInf ha, fgt_negInf ha, and_self]

end Sys2Proof.Machine.Num

namespace Sys2Proof.Machine

/-! ### Integer helpers -/

/-- `clog2` is the least sufficient exponent. -/
theorem clog2_le_iff {n l : Nat} : clog2 n ≤ l ↔ n ≤ 2 ^ l := by
  have hp := Nat.two_pow_pos l
  unfold clog2
  split
  · omega
  · rw [Nat.succ_le_iff, Nat.log2_lt (by omega)]
    omega

/-- Settles O54: all three from `clog2_le_iff`. -/
theorem nextPowerOfTwo : Obligations.NextPowerOfTwo := by
  intro n _
  have hle : n ≤ 2 ^ clog2 n := clog2_le_iff.1 le_rfl
  refine ⟨hle, fun l => clog2_le_iff.2, fun h => ⟨clog2 n, h.symm⟩, ?_⟩
  rintro ⟨k, rfl⟩
  exact le_antisymm (Nat.pow_le_pow_right (by decide) (clog2_le_iff.2 le_rfl)) hle

/-- Bit `b` of the reversal is bit `l - 1 - b`. -/
theorem testBit_rev {l b : Nat} (i : Nat) (hb : b < l) : (rev l i).testBit b = i.testBit (l - 1 - b) := by
  induction l generalizing i with
  | zero => omega
  | succ l ih =>
    rw [rev, Nat.mul_comm]
    rcases Nat.lt_succ_iff_lt_or_eq.1 hb with h | rfl
    · rw [Nat.testBit_two_pow_mul_add _ (rev_lt l _), if_pos h, ih _ h, ← Nat.testBit_succ]
      congr 1; omega
    · rw [Nat.testBit_two_pow_mul_add _ (rev_lt b _), if_neg (lt_irrefl b)]
      simp

/-- Settles O55. -/
theorem bitReversal : Obligations.BitReversal := fun l i hi => ⟨rev_lt l i, rev_rev l i hi, fun _ => testBit_rev i⟩

end Sys2Proof.Machine
end

section
/-! PROOF. Roots and whole numbers (00_scope R8 (a), R9), and the named values of the cosine and the logarithm (R9). -/

namespace Sys2Proof.Machine.Num

/-! ### Nearest by midpoints -/

/-- A nearest magnitude lies on the quotient's side of the midpoint with every other, and is even at a midpoint. -/
theorem midpoint_of_nearest {n d m x : Nat} (hd : 0 < d) (h : Nearest n d m) (hm : m < infBits) (hx : x < infBits) :
    (x < m → d * (unitsOf x + unitsOf m) ≤ 2 * n) ∧ (m < x → 2 * n ≤ d * (unitsOf x + unitsOf m)) ∧
      (x ≠ m → 2 * n = d * (unitsOf x + unitsOf m) → m % 2 = 0) := by
  obtain ⟨-, -, hbest⟩ := h
  obtain ⟨hle, htie⟩ := hbest hm x hx
  simp only [← Int.natCast_mul] at hle htie
  have mono {y z : Nat} (hyz : y < z) : d * unitsOf y < d * unitsOf z :=
    Nat.mul_lt_mul_of_pos_left (unitsOf_strictMono hyz) hd
  rw [Nat.mul_add]
  refine ⟨fun hlt => ?_, fun hlt => ?_, fun hne hmid => htie (by omega) hne⟩
  · have := mono hlt
    omega
  · have := mono hlt
    omega

/-- Below the midpoint above the largest finite value the rounding is finite. -/
theorem roundMag_lt_infBits {n d : Nat} (hd : 0 < d) (h : 2 * n < d * (2 ^ 25 - 1) * 2 ^ 253) : roundMag n d < infBits := by
  obtain ⟨hinf, hle, -⟩ := roundMag_nearest n hd
  exact lt_of_le_of_ne hle fun heq => absurd (hinf.1 heq) (not_le.2 h)

/-! ### Whole numbers -/

/-- A whole number of at most 24 bits is a float. -/
theorem exists_unitsOf_eq {i : Nat} (hi : i < 2 ^ 24) : ∃ m, m < infBits ∧ unitsOf m = i * 2 ^ 149 := by
  by_cases h0 : i = 0
  · exact ⟨0, by decide, by simp [h0, unitsOf]⟩
  obtain ⟨l, hl⟩ : ∃ l, l = Nat.log2 i := ⟨_, rfl⟩
  obtain ⟨hlo, hhi⟩ := (Nat.log2_eq_iff h0).1 hl.symm
  have hl23 : l ≤ 23 := by
    have := (Nat.log2_lt h0).2 hi
    omega
  have hbot : 2 ^ 23 ≤ i * 2 ^ (23 - l) := by
    rw [show 2 ^ 23 = 2 ^ l * 2 ^ (23 - l) by rw [← Nat.pow_add]; congr 1; omega]
    exact Nat.mul_le_mul_right _ hlo
  have htop : i * 2 ^ (23 - l) < 2 ^ 24 := by
    rw [show 2 ^ 24 = 2 ^ (l + 1) * 2 ^ (23 - l) by rw [← Nat.pow_add]; congr 1; omega]
    exact Nat.mul_lt_mul_of_pos_right hhi (Nat.two_pow_pos _)
  refine ⟨(126 + l) * 2 ^ 23 + i * 2 ^ (23 - l), by simp only [infBits]; omega, ?_⟩
  rw [unitsOf_binade htop.le fun _ => hbot, Nat.mul_assoc, ← Nat.pow_add]
  congr 2; omega

/-- The float of a whole number, by its magnitude. -/
theorem ofInt_of_unitsOf {i m : Nat} (hm : m < infBits) (hu : unitsOf m = i * 2 ^ 149) : ofInt i = pack false m := by
  rw [ofInt, ← hu, ← Nat.mul_one (unitsOf m), roundMag_exact hm Nat.one_pos]

/-! ### Roots -/

theorem isqrt_mul_self {r : Nat} (h : r * r < 2 ^ 256 * 2 ^ 256) : isqrt (r * r) = r := by
  obtain ⟨hle, hlt⟩ := isqrt_spec (r * r) h
  have h1 := Nat.mul_self_le_mul_self_iff.1 hle
  have h2 := Nat.mul_self_lt_mul_self_iff.1 hlt
  omega

/-- What `fsqrt` rounds, in half units: twice the whole part of the root, and one more where a part was cut off. -/
def twiceRoot (n : Nat) : Nat := 2 * isqrt n + if isqrt n * isqrt n = n then 0 else 1

theorem twiceRoot_mul_self {r : Nat} (h : r * r < 2 ^ 256 * 2 ^ 256) : twiceRoot (r * r) = 2 * r := by
  simp [twiceRoot, isqrt_mul_self h]

theorem fsqrt_positive {a : Word} (d : Draw) (ha : fisfinite a = true) (h0 : feq0 a = false) (hs : sign a = false) :
    fsqrt d a = pack false (roundMag (twiceRoot (units a * 2 ^ 149)) 2) := by
  simp [fsqrt, twiceRoot, finite_cases ha, h0, hs]

/-- Only the magnitudes of the first two binades have odd units. -/
theorem unitsOf_lt_of_odd {x : Nat} (h : unitsOf x % 2 = 1) : unitsOf x < 2 ^ 24 := by
  have hgrid := unitsOf_grid 1 x
  omega

/-- No midpoint is a cut-off root: one of its two magnitudes would have odd units, so lie far below the root, and `2^24`
lies nearer. -/
theorem midpoint_ne_odd {t m x : Nat} (h : Nearest t 2 m) (hm : m < infBits) (ht : t % 2 = 1) (hbig : 2 ^ 25 ≤ t) :
    unitsOf x + unitsOf m ≠ t := by
  intro heq
  have hz : unitsOf (2 ^ 24) = 2 ^ 24 := unitsOf_binade (e := 0) (k := 2 ^ 24) le_rfl (fun h => absurd rfl h)
  obtain ⟨hlo, hhi, -⟩ := midpoint_of_nearest (by decide) h hm (show 2 ^ 24 < infBits by decide)
  rw [hz] at hlo hhi
  rcases Nat.mod_two_eq_zero_or_one (unitsOf m) with hme | hmo
  · have hxz := unitsOf_lt_of_odd (x := x) (by omega)
    have hzm : 2 ^ 24 < m := unitsOf_strictMono.lt_iff_lt.1 (by omega)
    have := hlo hzm
    omega
  · have hmz := unitsOf_lt_of_odd hmo
    have := hhi (unitsOf_strictMono.lt_iff_lt.1 (by omega))
    omega

/-- The magnitude nearest to the root with its cut-off part replaced by a half is nearest to the root itself: a midpoint is
at most the whole part, or at least the next whole number (both doubled). -/
theorem nearestRoot_of_nearest {n m : Nat} (hn : n < 2 ^ 256 * 2 ^ 256) (hbig : 2 ^ 25 ≤ twiceRoot n)
    (h : Nearest (twiceRoot n) 2 m) (hm : m < infBits) : NearestRoot n m := by
  obtain ⟨hlo, hhi⟩ := isqrt_spec n hn
  refine ⟨hm, fun x hx => ?_⟩
  obtain ⟨hbelow, habove, htie⟩ := midpoint_of_nearest (by decide) h hm hx
  have hodd := midpoint_ne_odd (x := x) h hm
  unfold twiceRoot at *
  generalize isqrt n = r at *
  generalize unitsOf x + unitsOf m = mid at *
  have hsq : (2 * r) ^ 2 = 4 * (r * r) := by ring
  have hsq' : (2 * (r + 1)) ^ 2 = 4 * ((r + 1) * (r + 1)) := by ring
  have sq_mono {a b : Nat} (hab : a ≤ b) : a ^ 2 ≤ b ^ 2 := Nat.pow_le_pow_left hab 2
  split at hbig
  · next hexact =>
    rw [if_pos hexact] at hbelow habove htie
    rw [← hexact]
    refine ⟨fun hlt => ?_, fun hlt => ?_, fun hne heq => htie hne ?_⟩
    · have := sq_mono (show mid ≤ 2 * r by have := hbelow hlt; omega)
      omega
    · have := sq_mono (show 2 * r ≤ mid by have := habove hlt; omega)
      omega
    · have := Nat.pow_left_injective two_ne_zero (hsq.trans heq)
      omega
  · next hcut =>
    rw [if_neg hcut] at hbelow habove hodd
    have hne := hodd (by omega) hbig
    have hsmall (hle : mid ≤ 2 * r) : mid ^ 2 < 4 * n := by
      have := sq_mono hle
      omega
    have hlarge (hle : 2 * (r + 1) ≤ mid) : 4 * n < mid ^ 2 := by
      have := sq_mono hle
      omega
    refine ⟨fun hlt => ?_, fun hlt => ?_, fun _ heq => ?_⟩
    · exact (hsmall (by have := hbelow hlt; omega)).le
    · exact (hlarge (by have := habove hlt; omega)).le
    · rcases Nat.lt_or_ge mid (2 * r + 1) with hle | hge
      · have := hsmall (by omega)
        omega
      · have := hlarge (by omega)
        omega

/-- The root of a positive finite float, in half units, lies well inside the range of the finite floats. -/
theorem twiceRoot_bounds {u : Nat} (h0 : 0 < u) (hu : u < 2 ^ 24 * 2 ^ 253) :
    u * 2 ^ 149 < 2 ^ 256 * 2 ^ 256 ∧ 2 ^ 25 ≤ twiceRoot (u * 2 ^ 149) ∧ twiceRoot (u * 2 ^ 149) < 2 ^ 215 := by
  have hn : u * 2 ^ 149 < 2 ^ 213 * 2 ^ 213 := by
    rw [show 2 ^ 213 * 2 ^ 213 = 2 ^ 24 * 2 ^ 253 * 2 ^ 149 by norm_num]
    exact Nat.mul_lt_mul_of_pos_right hu (Nat.two_pow_pos _)
  have hn' : 2 ^ 24 * 2 ^ 24 ≤ u * 2 ^ 149 :=
    le_trans (by norm_num) (Nat.mul_le_mul_right _ (Nat.succ_le_iff.2 h0))
  have hmax : u * 2 ^ 149 < 2 ^ 256 * 2 ^ 256 := lt_trans hn (by norm_num)
  obtain ⟨hlo, hhi⟩ := isqrt_spec _ hmax
  have h1 := Nat.mul_self_lt_mul_self_iff.1 (lt_of_le_of_lt hlo hn)
  have h2 := Nat.mul_self_lt_mul_self_iff.1 (lt_of_le_of_lt hn' hhi)
  refine ⟨hmax, ?_, ?_⟩
  · unfold twiceRoot
    omega
  · unfold twiceRoot
    split <;> omega

theorem units_lt {a : Word} (h : fisfinite a = true) : units a < 2 ^ 24 * 2 ^ 253 := by
  rw [← unitsOf_infBits]
  exact unitsOf_strictMono (finite_cases h).2.2

/-- Settles O58: the root by midpoints, the whole number by the one rounding. -/
theorem rootsAndIntegersRoundOnce : Obligations.RootsAndIntegersRoundOnce := by
  refine ⟨fun d a ha h0 hs => ?_, fun i => ?_⟩
  · have hpos : 0 < units a := by simp [Nat.pos_iff_ne_zero, units_eq_zero, h0]
    obtain ⟨hn, hbig, hsmall⟩ := twiceRoot_bounds hpos (units_lt ha)
    have hfin : roundMag (twiceRoot (units a * 2 ^ 149)) 2 < infBits :=
      roundMag_lt_infBits Nat.two_pos (lt_trans (Nat.mul_lt_mul_of_pos_left hsmall Nat.two_pos) (by norm_num))
    rw [fsqrt_positive d ha h0 hs, magBits_pack_roundMag]
    exact ⟨nearestRoot_of_nearest hn hbig (roundMag_nearest _ Nat.two_pos) hfin, sign_pack_roundMag ..⟩
  · rw [ofInt, magBits_pack_roundMag]
    exact ⟨roundMag_nearest _ Nat.one_pos, sign_pack_roundMag ..⟩

/-- Settles O51: the units of the square are the square of the root's units, and those are a float's. -/
theorem rootsOfSquares : Obligations.RootsOfSquares := by
  intro d k hk
  obtain ⟨m, hm, hum⟩ := exists_unitsOf_eq (i := k) (by omega)
  obtain ⟨q, hq, huq⟩ := exists_unitsOf_eq (i := k * k) (lt_of_lt_of_le (Nat.mul_self_lt_mul_self hk) (by norm_num))
  have hq31 : q < 2 ^ 31 := by simp only [infBits] at hq; omega
  rw [ofInt_of_unitsOf hm hum, ofInt_of_unitsOf hq huq]
  have hfin : fisfinite (pack false q) = true := by rw [fisfinite, magBits_pack hq31, decide_eq_true hq]
  have hunits : units (pack false q) = k * k * 2 ^ 149 := by rw [units, magBits_pack hq31, huq]
  cases h0 : feq0 (pack false q)
  · have hroot : units (pack false q) * 2 ^ 149 = k * 2 ^ 149 * (k * 2 ^ 149) := by rw [hunits]; ring
    have hmax : k * 2 ^ 149 * (k * 2 ^ 149) < 2 ^ 256 * 2 ^ 256 :=
      Nat.mul_self_lt_mul_self (lt_trans (Nat.mul_lt_mul_of_pos_right hk (Nat.two_pow_pos _)) (by norm_num))
    rw [fsqrt_positive d hfin h0 (sign_pack hq31), hroot, twiceRoot_mul_self hmax, ← hum, Nat.mul_comm,
      roundMag_exact hm Nat.two_pos]
  · have hk0 : k = 0 := by
      have := units_eq_zero.2 h0
      rw [hunits] at this
      simpa using this
    have hq0 : q = 0 := unitsOf_eq_zero.1 (by rw [huq, hk0]; rfl)
    have hm0 : m = 0 := unitsOf_eq_zero.1 (by rw [hum, hk0, Nat.zero_mul])
    rw [fsqrt_zero d h0, hq0, hm0]

/-! ### Named values -/

/-- Where both ends of the error interval round to one float, that is the result. -/
theorem ofFixChecked_settled {v : Int} {w : Word} (d : Draw) (hlo : ofFix (v - fixSlack) = w)
    (hhi : ofFix (v + fixSlack) = w) : ofFixChecked d v = w := by
  rw [ofFixChecked, if_pos (hlo.trans hhi.symm), hlo]

theorem fcos_finite {a : Word} (d : Draw) (ha : fisfinite a = true) : fcos d a = ofFixChecked d (cosFix (units a)) :=
  if_pos ha

theorem flog10_positive {a : Word} (d : Draw) (ha : fisfinite a = true) (h0 : feq0 a = false) (hs : sign a = false)
    (h1 : a ≠ one) : flog10 d a = ofFixChecked d (log10Fix (units a)) := by
  simp [flog10, finite_cases ha, h0, hs, h1]

/-- `P_cos0`. -/
theorem fcos_zero (d : Draw) : fcos d 0x00000000#32 = 0x3F800000#32 := by
  rw [fcos_finite d (by decide)]
  exact ofFixChecked_settled d (by decide +kernel) (by decide +kernel)

/-- `P_log10` at 10. -/
theorem flog10_ofInt_ten (d : Draw) : flog10 d (ofInt 10) = 0x3F800000#32 := by
  rw [show ofInt 10 = 0x41200000#32 by decide +kernel,
    flog10_positive d (by decide) (by decide) (by decide) (by decide)]
  exact ofFixChecked_settled d (by decide +kernel) (by decide +kernel)

/-- `P_log10` at 100. -/
theorem flog10_ofInt_hundred (d : Draw) : flog10 d (ofInt 100) = ofInt 2 := by
  rw [show ofInt 100 = 0x42C80000#32 by decide +kernel,
    flog10_positive d (by decide) (by decide) (by decide) (by decide)]
  exact ofFixChecked_settled d (by decide +kernel) (by decide +kernel)

/-- Settles O50: the fixed-point values, whose error intervals round to one float. -/
theorem namedValues : Obligations.NamedValues := fun d =>
  ⟨fcos_zero d, rfl, flog10_ofInt_ten d, flog10_ofInt_hundred d⟩

end Sys2Proof.Machine.Num
end

section
/-! PROOF. A decoded command encodes to the word it was read from (30_encoding R79), in the terms of the four formats. -/

namespace Sys2Proof

/-- The format-Z case: a command whose word has no operand. -/
theorem decodeZ_encode {i j : Instr} {arg : BitVec 8} {opcode : Nat}
    (hj : j.wellFormed = true ∧ encode j = commandWord opcode 0) (h : decodeZ j arg = .ok i) :
    i.wellFormed = true ∧ encode i = commandWord opcode arg.toNat := by
  obtain ⟨rfl, rfl⟩ := decodeZ_ok h
  exact hj

/-- A decoded command is well formed, and its word is the one that was decoded. -/
theorem encode_of_decode {w : Word} {i : Instr} (h : decode w = .ok i) : i.wellFormed = true ∧ encode i = w := by
  have hr := rsvOf_of_decode h
  rw [← commandWord_of_fields hr]
  unfold decode at h
  rw [if_neg (by simp [hr])] at h
  split at h
  case h_4 hop => rw [hop]; exact decodeS_ok h
  case h_11 hop => rw [hop]; exact decodeK_ok h
  case h_15 hop => rw [hop]; exact decodeM_ok h
  case h_16 => cases h
  all_goals next hop => rw [hop]; exact decodeZ_encode ⟨rfl, rfl⟩ h

/-- The word that a legal command word is stored as in `CUR` decodes as that command again. -/
theorem decode_encode_of_decode {w : Word} {i : Instr} (h : decode w = .ok i) : decode (encode i) = .ok i := by
  rw [(encode_of_decode h).2, h]

end Sys2Proof
end

section
/-! PROOF. The frames of the host's writes and of the engine's `Complete`, and what a step can do in four cases: the rules that
the statements about single steps (10_state R25, R30, R33, R43) are assembled from. -/

namespace Sys2Proof.Machine

/-! ### Completes -/

/-- The frame of an effect, carried over its `Complete`: of the flags only `BUSY`, `DONE` and `DEGEN` are written. -/
theorem complete_frame (i : Instr) (d : Draw) (s : State) :
    finish (effectOf i d s) = { finish s with
      mem := (effectOf i d s).mem, nfft := (effectOf i d s).nfft, log2n := (effectOf i d s).log2n,
      wlen := (effectOf i d s).wlen, gmax := (effectOf i d s).gmax, dbmax := (effectOf i d s).dbmax,
      status := { s.status with busy := false, done := true, degen := (effectOf i d s).status.degen } } := by
  rw [effect_frame i d s]
  rfl

/-- At a `Complete` `DEGEN` stays or rises, the latter only with LOGC or DBN, and `BUSYERR` stays (60_exceptions R171, R172). -/
theorem complete_flags (i : Instr) (d : Draw) (s : State) :
    ((finish (effectOf i d s)).status.degen = true → s.status.degen = true ∨ i = .logc ∨ i = .dbn) ∧
      (s.status.degen = true → (finish (effectOf i d s)).status.degen = true) ∧
      (finish (effectOf i d s)).status.busyErr = s.status.busyErr := by
  refine ⟨fun ht => ?_, effect_degen_rises, by rw [complete_frame]⟩
  by_cases hl : i = .logc
  · exact .inr (.inl hl)
  · by_cases hn : i = .dbn
    · exact .inr (.inr hn)
    · rw [finish_status, effect_keeps_degen hn hl] at ht
      exact .inl ht

/-- `Complete` takes no NaN into `GMAX` (10_state R43 (e)). -/
theorem effect_gmax_not_nan {i : Instr} {d : Draw} {s : State} (h : Num.isNaN s.gmax = false) :
    Num.isNaN (effectOf i d s).gmax = false := by
  cases i
  case maxu => exact foldMax_not_nan h
  case aclr m =>
    simp only [effectOf, aclrEffect]
    split
    · decide
    · exact h
  case dbn => simp only [effectOf, dbnEffect]; split <;> exact h
  case logc => simp only [effectOf, logcEffect]; split <;> exact h
  all_goals exact h

/-- `Complete` takes no NaN into `DBMAX` (10_state R43 (e)). -/
theorem effect_dbmax_not_nan {i : Instr} {d : Draw} {s : State} (h : Num.isNaN s.dbmax = false) :
    Num.isNaN (effectOf i d s).dbmax = false := by
  cases i
  case db keep =>
    refine forUpTo_keeps (fun acc : Mem × Word => Num.isNaN acc.2 = false) ?_ fun k acc _ hacc => ?_
    · cases keep
      · exact show Num.isNaN Num.negInf = false by decide
      · exact h
    · simp only [dbStep]
      split
      · next hgt => exact (fgt_not_nan hgt).1
      · exact hacc
  case aclr m =>
    simp only [effectOf, aclrEffect]
    split
    · decide
    · exact h
  case dbn => simp only [effectOf, dbnEffect]; split <;> exact h
  case logc => simp only [effectOf, logcEffect]; split <;> exact h
  all_goals exact h

/-! ### Host writes -/

/-- A register is reached at its own offset only (10_state R26). -/
theorem target_reg_access {width : Width} {off : Offset} {r : Reg} (h : target width off = some (.reg r)) :
    width = .word ∧ off = regOffset r := by
  refine ⟨(target_word_aligned h).1, BitVec.eq_of_toNat_eq ?_⟩
  rw [← target_reg h]
  cases r <;> rfl

/-- The issue of a word writes only `ERR`, `ERRCODE`, `ERRCMD`, `CUR`, `BUSY`, `DONE` and `BUSYERR` (60_exceptions R163). -/
theorem hostCommand_frame {w : Word} {s t : State} (h : hostCommand w s = .next t) :
    t = { s with errCode := t.errCode, errCmd := t.errCmd, cur := t.cur, status := { t.status with degen := s.status.degen } } ∧
      (s.status.busy = true → t.status.busy = true) ∧ (s.status.busyErr = true → t.status.busyErr = true) ∧
      (t.status.busyErr = true → s.status.busyErr = true ∨ s.status.busy = true) := by
  rcases hostCommand_cases h with ⟨hb, rfl⟩ | ⟨-, -, rfl⟩ | ⟨-, -, -, rfl⟩ | ⟨-, -, i, -, ⟨c, -, rfl⟩ | ⟨-, rfl⟩⟩
  · exact ⟨rfl, id, fun _ => rfl, fun _ => .inr hb⟩
  · exact ⟨rfl, id, id, .inl⟩
  · exact ⟨rfl, id, id, .inl⟩
  · exact ⟨rfl, id, id, .inl⟩
  · exact ⟨rfl, fun _ => rfl, id, .inl⟩

/-- What a write leaves in `STATUS`, whether or not it is the return from a rejection (10_state R30). -/
theorem writeStatus_status (v : Word) (s : State) : (writeStatus v s).status = clearFlags s.status v := by
  unfold writeStatus
  split <;> rfl

/-- A write to `STATUS` touches nothing but the flags, `ERRCODE` and `ERRCMD` (60_exceptions R166). -/
theorem writeStatus_frame (v : Word) (s : State) :
    writeStatus v s = { s with
      status := clearFlags s.status v, errCode := (writeStatus v s).errCode, errCmd := (writeStatus v s).errCmd } := by
  unfold writeStatus
  split <;> rfl

/-- A register write outside `CTRL`, `STATUS` and `CMD` reaches the five RW registers at most (20_memory R54). -/
theorem writeReg_frame (r : Reg) (v : Word) (s : State) :
    writeReg r v s = { s with
      len := (writeReg r v s).len, wlen := (writeReg r v s).wlen, srate := (writeReg r v s).srate
      gmax := (writeReg r v s).gmax, dbmax := (writeReg r v s).dbmax } := by
  cases r <;> rfl

/-- `GMAX` and `DBMAX` are each written at their own offset. -/
theorem writeReg_accumulators (r : Reg) (v : Word) (s : State) :
    (r = .gmax ∨ (writeReg r v s).gmax = s.gmax) ∧ (r = .dbmax ∨ (writeReg r v s).dbmax = s.dbmax) := by
  cases r <;> simp [writeReg]

/-- A write is answered `BusError` and does nothing more, or it is 32 bits wide (20_memory R55). -/
theorem hostWrite_width {width : Width} {off : Offset} {v : Word} {s t : State} (h : hostWrite width off v s = .next t) :
    t = respond .busError s ∨ width = .word := by
  cases ht : target width off with
  | none =>
    simp only [hostWrite, ht] at h
    exact .inl (Host.Outcome.next.inj h).symm
  | some x => exact .inr (target_word_aligned ht).1

/-- No write reaches `NFFT`, `LOG2N`, `CMDCNT` or the pin, and none ends `BUSY` (20_memory R54, R59). -/
theorem hostWrite_frame {width : Width} {off : Offset} {v : Word} {s t : State} (h : hostWrite width off v s = .next t) :
    t = { t with nfft := s.nfft, log2n := s.log2n, cmdCnt := s.cmdCnt, rstN := s.rstN, agenda := s.agenda } ∧
      (s.status.busy = true → t.status.busy = true) := by
  rcases hostWrite_cases h with ⟨-, rfl⟩ | ⟨-, rfl⟩ | ⟨-, rfl⟩ | ⟨-, hc⟩ | ⟨-, rfl⟩ | ⟨-, r, -, rfl⟩ | ⟨-, b, i, -, rfl⟩
  · exact ⟨rfl, id⟩
  · exact ⟨rfl, id⟩
  · rw [writeStatus_frame]
    exact ⟨rfl, id⟩
  · obtain ⟨hf, hb, -⟩ := hostCommand_frame hc
    rw [hf]
    exact ⟨rfl, hb⟩
  · exact ⟨rfl, id⟩
  · rw [writeReg_frame]
    exact ⟨rfl, id⟩
  · exact ⟨rfl, id⟩

/-- No write raises `DEGEN`, one raises `BUSYERR` only while `BUSY = 1`, and only one to `STATUS` clears either (60_exceptions
R171, R172). -/
theorem hostWrite_flags {width : Width} {off : Offset} {v : Word} {s t : State} (h : hostWrite width off v s = .next t) :
    (t.status.degen = true → s.status.degen = true) ∧
      (t.status.busyErr = true → s.status.busyErr = true ∨ s.status.busy = true) ∧
      (target width off = some (.reg .status) ∨
        (s.status.degen = true → t.status.degen = true) ∧ (s.status.busyErr = true → t.status.busyErr = true)) := by
  rcases hostWrite_cases h with ⟨-, rfl⟩ | ⟨-, rfl⟩ | ⟨hs, rfl⟩ | ⟨-, hc⟩ | ⟨hb, rfl⟩ | ⟨-, r, -, rfl⟩ | ⟨-, b, i, -, rfl⟩
  · exact ⟨id, .inl, .inr ⟨id, id⟩⟩
  · exact ⟨id, .inl, .inr ⟨id, id⟩⟩
  · rw [writeStatus_status]
    simp only [clearFlags, Bool.and_eq_true]
    exact ⟨And.left, fun ht => .inl ht.1, .inl hs⟩
  · obtain ⟨hf, -, hkeep, hrise⟩ := hostCommand_frame hc
    have hd : t.status.degen = s.status.degen := by rw [hf]; rfl
    rw [hd]
    exact ⟨id, hrise, .inr ⟨id, hkeep⟩⟩
  · exact ⟨id, fun _ => .inr hb, .inr ⟨id, fun _ => rfl⟩⟩
  · rw [writeReg_frame]
    exact ⟨id, .inl, .inr ⟨id, id⟩⟩
  · exact ⟨id, .inl, .inr ⟨id, id⟩⟩

/-- A write changes `GMAX` and `DBMAX` only at their own offsets (10_state R37, R38). -/
theorem hostWrite_accumulators {width : Width} {off : Offset} {v : Word} {s t : State}
    (h : hostWrite width off v s = .next t) :
    (target width off = some (.reg .gmax) ∨ t.gmax = s.gmax) ∧
      (target width off = some (.reg .dbmax) ∨ t.dbmax = s.dbmax) := by
  rcases hostWrite_cases h with ⟨-, rfl⟩ | ⟨-, rfl⟩ | ⟨-, rfl⟩ | ⟨-, hc⟩ | ⟨-, rfl⟩ | ⟨-, r, hr, rfl⟩ | ⟨-, b, i, -, rfl⟩
  · exact ⟨.inr rfl, .inr rfl⟩
  · exact ⟨.inr rfl, .inr rfl⟩
  · rw [writeStatus_frame]
    exact ⟨.inr rfl, .inr rfl⟩
  · rw [(hostCommand_frame hc).1]
    exact ⟨.inr rfl, .inr rfl⟩
  · exact ⟨.inr rfl, .inr rfl⟩
  · obtain ⟨hg, hd⟩ := writeReg_accumulators r v (respond .ok s)
    exact ⟨hg.imp_left fun e : r = .gmax => e ▸ hr, hd.imp_left fun e : r = .dbmax => e ▸ hr⟩
  · exact ⟨.inr rfl, .inr rfl⟩

/-! ### Steps -/

/-- The step leaves every register, flag and buffer as it was: only the pin, the response, the agenda and the count of draws may
differ. -/
def Quiet (s t : State) : Prop := t = { s with agenda := t.agenda, rstN := t.rstN, resp := t.resp, draws := t.draws }

/-- `step_cases` with the quiet steps (the fall of `rst_n`, reads, idle turns) in one: what is left is the `Complete`, the reset
and the write. -/
theorem step_effects {s t : State} (h : step s = .next t) :
    Quiet s t ∨
    (s.rstN = true ∧ s.status.busy = true ∧ ∃ i, decode s.cur = .ok i ∧
      t = finish (effectOf i (drawOf s) (popped s))) ∨
    (s.rstN = false ∧ ∃ rest, t = resetBlock { s with agenda := rest }) ∨
    (s.rstN = true ∧ ∃ width off v rest, s.agenda = .write width off v :: rest ∧
      hostWrite width off v (popped s) = .next t) := by
  rcases step_cases h with ⟨_, rfl⟩ | hc | ⟨_, rfl⟩ | hr | ⟨-, width, off, -, rfl⟩ | ⟨hr, width, off, v, ha, hw⟩
  · exact .inl rfl
  · exact .inr (.inl hc)
  · exact .inl rfl
  · exact .inr (.inr (.inl hr))
  · exact .inl (by rw [Quiet, hostRead_frame]; rfl)
  · exact .inr (.inr (.inr ⟨hr, width, off, v, _, ha, hw⟩))

end Sys2Proof.Machine
end

section
/-! PROOF. The invariants of 10_state R43: they hold after reset, and each operation a step is made of keeps them. -/

namespace Sys2Proof.Machine

/-! ### Reset, and what the invariants do not look at -/

/-- Settles O38. -/
theorem resetMeetsInvariants : Obligations.ResetMeetsInvariants :=
  ⟨by decide, by decide, by decide, ⟨.nop, rfl⟩, inFlightOk_idle rfl, memOk_nil⟩

/-- The invariants do not depend on `CTRL`, `CMDCNT`, the accumulators, `DEGEN`, `BUSYERR`, the pin and the model's own
fields. -/
theorem Invariants.congr {s t : State} (h : Invariants s)
    (ht : t = { s with
      ctrl := t.ctrl, cmdCnt := t.cmdCnt, gmax := t.gmax, dbmax := t.dbmax, rstN := t.rstN, agenda := t.agenda
      resp := t.resp, draws := t.draws
      status := { s.status with degen := t.status.degen, busyErr := t.status.busyErr } }) : Invariants t := by
  obtain ⟨hflags, herr, hlen, hcur, hfly, hmem⟩ := h
  rw [ht]
  exact ⟨hflags, herr, hlen, hcur, inFlightOk_congr hfly rfl rfl rfl rfl rfl rfl rfl, hmem⟩

theorem invariants_resetBlock (s : State) : Invariants (resetBlock s) := resetMeetsInvariants.congr rfl

/-! ### Issue -/

/-- A rejection records an error and its code together (60_exceptions R165). -/
theorem invariants_reject {c : ErrCode} {w : Word} {s : State} (h : Invariants s) (hb : s.status.busy = false)
    (hc : c ≠ .none) : Invariants (reject c w s) := by
  obtain ⟨-, -, hlen, hcur, -, hmem⟩ := h
  exact ⟨by simp [hb], by simp [ErrorOk, hc], hlen, hcur, inFlightOk_idle hb, hmem⟩

/-- The accepted command is legal and its checks have just passed (60_exceptions R169). -/
theorem invariants_accept {i : Instr} {s : State} (h : Invariants s) (he : s.status.err = false)
    (hd : decode (encode i) = .ok i) (hc : issueCheck i s = none) : Invariants (accept (encode i) s) := by
  obtain ⟨-, herr, hlen, -, -, hmem⟩ := h
  refine ⟨fun _ => ⟨he, rfl⟩, herr, hlen, ⟨i, hd⟩, fun _ j hj => ?_, hmem⟩
  obtain rfl : i = j := Except.ok.inj (hd.symm.trans hj)
  exact (issueCheck_congr (s := s) (t := accept (encode i) s) rfl rfl rfl rfl rfl i).trans hc

/-- The issue of a word: ignored, discarded, rejected or accepted (60_exceptions R163). -/
theorem invariants_hostCommand {w : Word} {s t : State} (h : Invariants s) (ht : hostCommand w s = .next t) :
    Invariants t := by
  rcases hostCommand_cases ht with ⟨-, rfl⟩ | ⟨-, -, rfl⟩ | ⟨hb, -, -, rfl⟩ | ⟨hb, he, i, hi, ⟨c, hc, rfl⟩ | ⟨hc, rfl⟩⟩
  · exact h.congr rfl
  · exact h
  · exact invariants_reject h hb nofun
  · exact invariants_reject h hb fun e => issueCheck_ne_none (e ▸ hc)
  · exact invariants_accept h he (decode_encode_of_decode hi) hc

/-! ### The other host writes -/

/-- A write to `STATUS`, also while a command is in flight: where it clears `ERR` it clears `ERRCODE` and `ERRCMD` too
(60_exceptions R166). -/
theorem invariants_writeStatus {v : Word} {s : State} (h : Invariants s) : Invariants (writeStatus v s) := by
  obtain ⟨hflags, ⟨hcode, hcmd⟩, hlen, hcur, hfly, hmem⟩ := h
  have hflags' : FlagsOk (writeStatus v s) := by
    rw [FlagsOk, writeStatus_status]
    intro hb
    obtain ⟨he, hd⟩ := hflags hb
    simp [clearFlags, he, hd]
  have herr' : ErrorOk (writeStatus v s) := by
    unfold writeStatus
    split
    · next hv => simp [ErrorOk, clearFlags, hv]
    · next hv =>
      have he : (clearFlags s.status v).err = s.status.err := by
        cases he : s.status.err <;> simp_all [clearFlags]
      simp only [ErrorOk, he]
      exact ⟨hcode, hcmd⟩
  refine ⟨hflags', herr', ?_⟩
  rw [writeStatus_frame]
  exact ⟨hlen, hcur, inFlightOk_congr hfly rfl rfl rfl rfl rfl rfl rfl, hmem⟩

/-- While idle the host may write every operand: no check is pending. -/
theorem invariants_writeReg {r : Reg} {v : Word} {s : State} (h : Invariants s) (hb : s.status.busy = false) :
    Invariants (writeReg r v s) := by
  obtain ⟨hflags, herr, hlen, hcur, -, hmem⟩ := h
  rw [writeReg_frame]
  exact ⟨hflags, herr, hlen, hcur, inFlightOk_idle hb, hmem⟩

theorem invariants_storeWord {b : Buf} {i : Nat} {v : Word} {s : State} (h : Invariants s) (hb : s.status.busy = false) :
    Invariants { s with mem := b.store s.mem i v } := by
  obtain ⟨hflags, herr, hlen, hcur, -, hmem⟩ := h
  exact ⟨hflags, herr, hlen, hcur, inFlightOk_idle hb, memOk_store hmem⟩

theorem invariants_hostWrite {width : Width} {off : Offset} {v : Word} {s t : State} (h : Invariants s)
    (ht : hostWrite width off v s = .next t) : Invariants t := by
  have hr : Invariants (respond .ok s) := h.congr rfl
  rcases hostWrite_cases ht with
    ⟨-, rfl⟩ | ⟨-, rfl⟩ | ⟨-, rfl⟩ | ⟨-, hc⟩ | ⟨-, rfl⟩ | ⟨hb, r, -, rfl⟩ | ⟨hb, b, i, -, rfl⟩
  · exact h.congr rfl
  · exact h.congr rfl
  · exact invariants_writeStatus hr
  · exact invariants_hostCommand hr hc
  · exact h.congr rfl
  · exact invariants_writeReg hr hb
  · exact invariants_storeWord hr hb

/-! ### Complete -/

/-- The length PAD and FFT establish is a power of two within the buffers, since their check bounds `LEN` (41_fft R111). -/
theorem lengthOk_padEffect {s : State} (h : lengthCheck s = none) : LengthOk (padEffect s) := by
  obtain ⟨-, hle⟩ := lengthCheck_none.1 h
  obtain ⟨hlog, hnfft, -⟩ := padEffect_length hle
  exact .inr ⟨by rw [hnfft, hlog], hlog ▸ clog2_le hle⟩

/-- An effect whose checks hold keeps the rule on `NFFT` and `LOG2N` (10_state R43 (c)). -/
theorem lengthOk_effect {i : Instr} {d : Draw} {s : State} (h : LengthOk s) (hc : issueCheck i s = none) :
    LengthOk (effectOf i d s) := by
  by_cases hp : i = .pad
  · subst hp
    exact lengthOk_padEffect hc
  · by_cases hf : i = .fft
    · subst hf
      exact lengthOk_padEffect hc
    · obtain ⟨hn, hl⟩ := effect_keeps_length (d := d) (s := s) hp hf
      rw [LengthOk, hn, hl]
      exact h

theorem invariants_complete {i : Instr} {d : Draw} {s : State} (h : Invariants s) (hb : s.status.busy = true)
    (hi : decode s.cur = .ok i) : Invariants (finish (effectOf i d s)) := by
  obtain ⟨-, herr, hlen, hcur, hfly, hmem⟩ := h
  have hlen' : LengthOk (effectOf i d s) := lengthOk_effect hlen (hfly hb i hi)
  have hmem' : MemOk (effectOf i d s).mem := memOk_effect hmem
  rw [complete_frame]
  exact ⟨nofun, herr, hlen', hcur, inFlightOk_idle rfl, hmem'⟩

/-! ### The step -/

/-- Settles O39, case by case of what a step can do. -/
theorem stepKeepsInvariants : Obligations.StepKeepsInvariants := by
  intro s t h hstep
  have hp : Invariants (popped s) := h.congr rfl
  rcases step_effects hstep with hq | ⟨-, hb, i, hi, rfl⟩ | ⟨-, rest, rfl⟩ | ⟨-, width, off, v, rest, -, hw⟩
  · rw [hq]
    exact h.congr rfl
  · exact invariants_complete hp hb hi
  · exact invariants_resetBlock _
  · exact invariants_hostWrite hp hw

end Sys2Proof.Machine
end

section
/-! PROOF. What single steps may change: the transform length (10_state R33, R34), the count of commands (R25), the sticky flags
(R30), the accumulators (R43 (e)). -/

namespace Sys2Proof.Machine

/-- Settles O43: no host write reaches the two registers, and of the effects only PAD and FFT write them. -/
theorem onlyPadAndFftSetTheLength : Obligations.OnlyPadAndFftSetTheLength := by
  intro s t h hne
  rcases step_effects h with hq | ⟨hr, hb, i, hi, rfl⟩ | ⟨hr, rest, rfl⟩ | ⟨-, width, off, v, rest, -, hw⟩
  · rw [hq] at hne
    simp at hne
  · have hpf : i = .pad ∨ i = .fft := by
      by_contra hi'
      obtain ⟨hp, hf⟩ := not_or.1 hi'
      obtain ⟨hn, hl⟩ := effect_keeps_length (d := drawOf s) (s := popped s) hp hf
      rcases hne with hne | hne
      · exact hne hn
      · exact hne hl
    have hcur : decode s.cur = .ok .pad ∨ decode s.cur = .ok .fft := 
      hpf.imp (fun e : i = .pad => e ▸ hi) (fun e : i = .fft => e ▸ hi)
    exact .inl ⟨hr, hb, hcur, rfl, rfl, by rw [complete_frame]; rfl⟩
  · exact .inr ⟨hr, rfl⟩
  · rw [(hostWrite_frame hw).1] at hne
    simp [popped] at hne

/-- Settles O44: only `Complete` counts, only `Complete` ends `BUSY` while `rst_n` is high, and the reset clears the count. -/
theorem countsCompletionsOnly : Obligations.CountsCompletionsOnly := by
  intro s t h
  rcases step_effects h with hq | ⟨hr, hb, i, hi, rfl⟩ | ⟨hr, rest, rfl⟩ | ⟨hr, width, off, v, rest, -, hw⟩
  · rw [hq]
    exact ⟨fun _ hb ht => absurd (hb.symm.trans ht) nofun, .inl rfl⟩
  · exact ⟨fun _ _ _ => ⟨rfl, by rw [complete_frame]; rfl⟩, .inr (.inl ⟨hr, hb, rfl⟩)⟩
  · exact ⟨fun hr' => absurd (hr.symm.trans hr') nofun, .inr (.inr ⟨hr, rfl, rfl⟩)⟩
  · obtain ⟨hf, hbusy⟩ := hostWrite_frame hw
    exact ⟨fun _ hb ht => absurd ((hbusy hb).symm.trans ht) nofun, .inl (by rw [hf]; rfl)⟩

/-- What a step does to the sticky flags: what raises each, and what may clear them (10_state R30). -/
theorem step_flags {s t : State} (h : step s = .next t) :
    (t.status.degen = true → s.status.degen = true ∨
      s.status.busy = true ∧ (decode s.cur = .ok .logc ∨ decode s.cur = .ok .dbn)) ∧
    (t.status.busyErr = true → s.status.busyErr = true ∨
      s.status.busy = true ∧ ∃ off v rest, s.agenda = .write .word off v :: rest) ∧
    ((s.status.degen = true → t.status.degen = true) ∧ (s.status.busyErr = true → t.status.busyErr = true) ∨
      (∃ v rest, s.agenda = .write .word 0x0C#23 v :: rest) ∨ (s.rstN = false ∧ t.rstN = true)) := by
  rcases step_effects h with hq | ⟨-, hb, i, hi, rfl⟩ | ⟨hr, rest, rfl⟩ | ⟨-, width, off, v, rest, ha, hw⟩
  · have hs : t.status = s.status := by rw [hq]
    rw [hs]
    exact ⟨.inl, .inl, .inl ⟨id, id⟩⟩
  · obtain ⟨hrise, hstay, hbe⟩ := complete_flags i (drawOf s) (popped s)
    have hcur : i = .logc ∨ i = .dbn → decode s.cur = .ok .logc ∨ decode s.cur = .ok .dbn :=
      Or.imp (fun e : i = .logc => e ▸ hi) (fun e : i = .dbn => e ▸ hi)
    rw [hbe]
    exact ⟨fun ht => (hrise ht).imp_right fun hi => ⟨hb, hcur hi⟩, .inl, .inl ⟨hstay, id⟩⟩
  · exact ⟨nofun, nofun, .inr (.inr ⟨hr, rfl⟩)⟩
  · obtain ⟨hd, hbe, hclear⟩ := hostWrite_flags hw
    refine ⟨fun ht => .inl (hd ht), fun ht => ?_, ?_⟩
    · rcases hostWrite_width hw with rfl | rfl
      · exact .inl ht
      · exact (hbe ht).imp_right fun hb => ⟨hb, off, v, rest, ha⟩
    · rcases hclear with hs | hkeep
      · obtain ⟨rfl, rfl⟩ := target_reg_access hs
        exact .inr (.inl ⟨v, rest, ha⟩)
      · exact .inl hkeep

/-- Settles O45: `step_flags`, read as what a rise and a fall of each flag says. -/
theorem stickyFlags : Obligations.StickyFlags := by
  intro s t h
  obtain ⟨hdegen, hbusyErr, hfall⟩ := step_flags h
  refine ⟨fun hs ht => (hdegen ht).resolve_left (by simp [hs]), fun hs ht => (hbusyErr ht).resolve_left (by simp [hs]), ?_⟩
  intro hf
  refine hfall.resolve_left fun ⟨hd, hb⟩ => ?_
  rcases hf with ⟨hs, ht⟩ | ⟨hs, ht⟩
  · simp [hd hs] at ht
  · simp [hb hs] at ht

/-- Off its own write an accumulator that is no NaN stays none: the effects take no NaN, and the reset values are none. -/
theorem step_accumulators {s t : State} (h : step s = .next t) :
    ((∃ v rest, s.agenda = .write .word 0x34#23 v :: rest) ∨ (Num.isNaN s.gmax = false → Num.isNaN t.gmax = false)) ∧
      ((∃ v rest, s.agenda = .write .word 0x38#23 v :: rest) ∨
        (Num.isNaN s.dbmax = false → Num.isNaN t.dbmax = false)) := by
  rcases step_effects h with hq | ⟨-, -, i, -, rfl⟩ | ⟨-, rest, rfl⟩ | ⟨-, width, off, v, rest, ha, hw⟩
  · rw [hq]
    exact ⟨.inr id, .inr id⟩
  · exact ⟨.inr (effect_gmax_not_nan (s := popped s)), .inr (effect_dbmax_not_nan (s := popped s))⟩
  · have hreset : Num.isNaN State.reset.gmax = false ∧ Num.isNaN State.reset.dbmax = false := by decide
    exact ⟨.inr fun _ => hreset.1, .inr fun _ => hreset.2⟩
  · obtain ⟨hg, hd⟩ := hostWrite_accumulators hw
    refine ⟨hg.imp (fun htgt => ?_) fun e => by rw [e]; exact id, hd.imp (fun htgt => ?_) fun e => by rw [e]; exact id⟩
    all_goals
      obtain ⟨rfl, rfl⟩ := target_reg_access htgt
      exact ⟨v, rest, ha⟩

/-- Settles O46: `step_accumulators`, where the accumulator became a NaN. -/
theorem accumulatorsStayNumbers : Obligations.AccumulatorsStayNumbers := by
  intro s t h
  obtain ⟨hg, hd⟩ := step_accumulators h
  exact ⟨fun hs ht => hg.resolve_right fun hk => by simp [hk hs] at ht,
    fun hs ht => hd.resolve_right fun hk => by simp [hk hs] at ht⟩

end Sys2Proof.Machine
end

section
/-! PROOF. The registers over the bus: what reset leaves in them (10_state R44), what they read (R27 to R40), what a write to
them does (R41, 20_memory R54). -/

namespace Sys2Proof.Machine

/-- Settles O35. -/
theorem resetValues : Obligations.ResetValues := by
  refine ⟨rfl, rfl, rfl, rfl, rfl, rfl, rfl, rfl, rfl, rfl, rfl, rfl, rfl, rfl, rfl, fun b i => ?_⟩
  unfold Buf.peek
  split <;> rfl

/-- A register's offset is its target. -/
theorem target_regOffset (r : Reg) : target .word (regOffset r) = some (.reg r) := target_of_reg r

/-- A word read of a register answers what it reads and changes nothing else (20_memory R53). -/
theorem takes_read_reg {s : State} {x : Word} (h : s.rstN = true) (r : Reg) (hx : readReg r s = x) :
    Takes (.read .word (regOffset r)) s { s with resp := .data x } := by
  rw [takes_read h, hostRead, target_regOffset, ← hx]
  rfl

/-- `CTRL` reads as its two bits (10_state R29). -/
theorem ctrlWord_bits (c : Ctrl) :
    let b (x : Bool) (k : Nat) : Word := if x then BitVec.ofNat 32 (2 ^ k) else 0#32
    ctrlWord c = b c.ieDone 0 ||| b c.ieErr 1 := by
  obtain ⟨ieDone, ieErr⟩ := c
  cases ieDone <;> cases ieErr <;> decide

/-- `STATUS` reads as its five bits (10_state R30). -/
theorem statusWord_bits (f : Status) :
    let b (x : Bool) (k : Nat) : Word := if x then BitVec.ofNat 32 (2 ^ k) else 0#32
    statusWord f = b f.busy 0 ||| b f.done 1 ||| b f.err 2 ||| b f.degen 3 ||| b f.busyErr 4 := by
  have key : ∀ busy done err degen busyErr : Bool,
      let b (x : Bool) (k : Nat) : Word := if x then BitVec.ofNat 32 (2 ^ k) else 0#32
      statusWord ⟨busy, done, err, degen, busyErr⟩ = b busy 0 ||| b done 1 ||| b err 2 ||| b degen 3 ||| b busyErr 4 := by
    decide
  exact key _ _ _ _ _

/-- Settles O31: `takes_read_reg` at the fifteen registers, with the bits of `CTRL`, `STATUS`, `ERRCODE` and `LOG2N`. -/
theorem registersReadBack : Obligations.RegistersReadBack := by
  intro s hr
  have hread {x : Word} (r : Reg) (hx : readReg r s = x) := takes_read_reg hr r hx
  refine ⟨hread .id rfl, hread .cap rfl, hread .ctrl (ctrlWord_bits s.ctrl), hread .status (statusWord_bits s.status),
    hread .cmd rfl, hread .errCode ?_, hread .errCmd rfl, hread .cmdCnt rfl, hread .len rfl, hread .nfft rfl,
    hread .log2n (BitVec.ofNat_toNat 32 s.log2n).symm, hread .wlen rfl, hread .srate rfl, hread .gmax rfl,
    hread .dbmax rfl⟩
  change errCodeWord s.errCode = _
  cases s.errCode <;> rfl

/-- A write to `CTRL` stores its two bits, busy or idle (10_state R29). -/
theorem takes_write_ctrl {s : State} (h : s.rstN = true) (v : Word) :
    Takes (.write .word (regOffset .ctrl) v) s { s with resp := .ok, ctrl := ctrlOfWord v } := by
  rw [takes_write h, hostWrite, target_regOffset]
  rfl

/-- While idle, a write to any register but `CTRL`, `STATUS` and `CMD` is `writeReg` (20_memory R54). -/
theorem takes_write_reg {s : State} {r : Reg} (h : s.rstN = true) (hb : s.status.busy = false) (v : Word)
    (hr : r ≠ .ctrl ∧ r ≠ .status ∧ r ≠ .cmd) :
    Takes (.write .word (regOffset r) v) s (writeReg r v (respond .ok s)) := by
  rw [takes_write h, hostWrite, target_regOffset]
  cases r <;> simp_all

/-- Settles O32. -/
theorem registerWrites : Obligations.RegisterWrites := by
  intro s v hr
  refine ⟨takes_write_ctrl hr v, fun hb => ?_⟩
  have hw (r : Reg) := takes_write_reg (r := r) hr hb v
  refine ⟨hw .len (by decide), hw .wlen (by decide), hw .srate (by decide), hw .gmax (by decide), hw .dbmax (by decide), ?_⟩
  intro off hoff
  simp only [List.mem_cons, List.not_mem_nil, or_false] at hoff
  rcases hoff with rfl | rfl | rfl | rfl | rfl | rfl | rfl
  · exact hw .id (by decide)
  · exact hw .cap (by decide)
  · exact hw .errCode (by decide)
  · exact hw .errCmd (by decide)
  · exact hw .cmdCnt (by decide)
  · exact hw .nfft (by decide)
  · exact hw .log2n (by decide)

end Sys2Proof.Machine
end

section
/-! PROOF. The bus port as the address map has it (20_memory R52 to R59): which accesses have a target, what each access answers,
what a buffer access does while idle, and that none disturbs the command in flight. -/

namespace Sys2Proof.Machine

/-! ### The address map (20_memory R52) -/

theorem Reg.offset_lt (r : Reg) : r.offset < 0x3C := by cases r <;> decide

/-- The registers fill the map below `3C`: every aligned offset there is one's. -/
theorem Reg.exists_offset_eq {n : Nat} (h4 : n % 4 = 0) (h : n < 0x3C) : ∃ r : Reg, r.offset = n := by
  have key : ∀ k < 15, ∃ r ∈ Reg.all, r.offset = 4 * k := by decide
  obtain ⟨r, -, hr⟩ := key (n / 4) (by omega)
  exact ⟨r, by omega⟩

theorem Buf.addr_range {b : Buf} {i : Nat} (hi : i < b.words) : 0x100000 ≤ b.addr i ∧ b.addr i < 0x580000 := by
  cases b <;> simp only [Buf.addr, Buf.base, Buf.words, Config.nMax, Config.hMax, Config.fullBufferBytes, Config.log2NMax] at * <;>
    omega

/-- The buffers fill the map from `100000` to `580000`: every aligned offset there is a word's. -/
theorem Buf.exists_addr_eq {n : Nat} (h4 : n % 4 = 0) (hlo : 0x100000 ≤ n) (hhi : n < 0x580000) :
    ∃ (b : Buf) (i : Nat), i < b.words ∧ b.addr i = n := by
  have hword (b : Buf) (h1 : b.base ≤ n) (h2 : n < b.base + 4 * b.words) (hb : b.base % 4 = 0) :
      ∃ (c : Buf) (i : Nat), i < c.words ∧ c.addr i = n :=
    ⟨b, (n - b.base) / 4, by omega, by simp only [Buf.addr]; omega⟩
  have hrange : n < 0x200000 ∨ (0x200000 ≤ n ∧ n < 0x300000) ∨ (0x300000 ≤ n ∧ n < 0x400000) ∨
      (0x400000 ≤ n ∧ n < 0x480000) ∨ (0x480000 ≤ n ∧ n < 0x500000) ∨ 0x500000 ≤ n := by omega
  rcases hrange with h | ⟨h, h'⟩ | ⟨h, h'⟩ | ⟨h, h'⟩ | ⟨h, h'⟩ | h
  · exact hword .re hlo h rfl
  · exact hword .im h h' rfl
  · exact hword .win h h' rfl
  · exact hword .mag h h' rfl
  · exact hword .out h h' rfl
  · exact hword .frq h hhi rfl

/-- An aligned word access below `3C` reaches the register at that offset. -/
theorem target_register {off : Offset} (h4 : off.toNat % 4 = 0) (h : off.toNat < 0x3C) :
    ∃ r : Reg, off = regOffset r ∧ target .word off = some (.reg r) := by
  obtain ⟨r, hr⟩ := Reg.exists_offset_eq h4 h
  have hoff : off = regOffset r := by rw [regOffset, hr, BitVec.ofNat_toNat, BitVec.setWidth_eq]
  exact ⟨r, hoff, hoff ▸ target_regOffset r⟩

/-- An aligned word access from `100000` to `580000` reaches a buffer word. -/
theorem target_buffer {off : Offset} (h4 : off.toNat % 4 = 0) (hlo : 0x100000 ≤ off.toNat) (hhi : off.toNat < 0x580000) :
    ∃ (b : Buf) (i : Nat), target .word off = some (.word b i) := by
  obtain ⟨b, i, hi, ha⟩ := Buf.exists_addr_eq h4 hlo hhi
  exact ⟨b, i, target_of_word hi ha.symm⟩

/-- The accesses with no target (20_memory R55, R57). -/
theorem target_eq_none_iff {width : Width} {off : Offset} :
    target width off = none ↔
      width ≠ .word ∨ off.toNat % 4 ≠ 0 ∨ (0x3C ≤ off.toNat ∧ off.toNat < 0x100000) ∨ 0x580000 ≤ off.toNat := by
  constructor
  · intro hnone
    by_contra hgood
    obtain ⟨hw, h4, hgap, hend⟩ : width = .word ∧ off.toNat % 4 = 0 ∧ ¬(0x3C ≤ off.toNat ∧ off.toNat < 0x100000) ∧
        off.toNat < 0x580000 := by simpa only [not_or, not_not, not_le] using hgood
    subst hw
    by_cases hreg : off.toNat < 0x3C
    · obtain ⟨r, -, hr⟩ := target_register h4 hreg
      simp [hr] at hnone
    · obtain ⟨b, i, hbi⟩ := target_buffer h4 (by omega) hend
      simp [hbi] at hnone
  · intro hbad
    cases ht : target width off with
    | none => rfl
    | some x =>
      obtain ⟨hw, h4⟩ := target_word_aligned ht
      have hout := (hbad.resolve_left (absurd hw)).resolve_left (absurd h4)
      cases x with
      | reg r =>
        have hlt := r.offset_lt
        have hoff := target_reg ht
        omega
      | word b i =>
        obtain ⟨hi, hoff⟩ := target_word ht
        have hrange := Buf.addr_range hi
        omega

/-! ### Answers (20_memory R53 to R55) -/

/-- A read of a word with no value to give is answered with a draw, which is counted. -/
theorem readWord_draws {b : Buf} {i : Nat} {s : State} (h : s.status.busy = true ∨ b.peek s.mem i = none) :
    readWord b i s = { s with resp := .data (drawOf s).word, draws := s.draws + 1 } := by
  have hnone : (if s.status.busy then none else b.peek s.mem i) = none := by
    split
    · rfl
    · next hb => exact h.resolve_left hb
  rw [readWord, hnone]
  rfl

/-- While idle a read of a written word is answered with it. -/
theorem readWord_written {b : Buf} {i : Nat} {s : State} {w : Word} (hb : s.status.busy = false)
    (h : b.peek s.mem i = some w) : readWord b i s = { s with resp := .data w } := by
  rw [readWord, hb, if_neg Bool.false_ne_true, h]
  rfl

/-- A read with a target is answered with data. -/
theorem hostRead_answers_data {width : Width} {off : Offset} {s : State} (h : target width off ≠ none) :
    ∃ x, (hostRead width off s).resp = .data x := by
  unfold hostRead
  split
  · next hnone => exact absurd hnone h
  · exact ⟨_, rfl⟩
  · unfold readWord
    split <;> exact ⟨_, rfl⟩

/-- A write with a target is answered `ok`, ignored or not (log 22). -/
theorem hostWrite_answers_ok {width : Width} {off : Offset} {v : Word} {s t : State} (h : target width off ≠ none)
    (ht : hostWrite width off v s = .next t) : t.resp = .ok := by
  rcases hostWrite_cases ht with
    ⟨hnone, -⟩ | ⟨-, rfl⟩ | ⟨-, rfl⟩ | ⟨-, hc⟩ | ⟨-, rfl⟩ | ⟨-, r, -, rfl⟩ | ⟨-, b, i, -, rfl⟩
  · exact absurd hnone h
  · rfl
  · rw [writeStatus_frame]
    rfl
  · rw [(hostCommand_frame hc).1]
    rfl
  · rfl
  · rw [writeReg_frame]
    rfl
  · rfl

/-- Settles O30: the bad accesses are those with no target. -/
theorem busErrorsChangeNothing : Obligations.BusErrorsChangeNothing := by
  intro s width off v hr
  refine ⟨fun hbad => ?_, fun hgood => ?_⟩
  · have hnone := target_eq_none_iff.2 hbad
    rw [takes_read hr, takes_write hr, hostRead, hostWrite, hnone]
    exact ⟨rfl, rfl⟩
  · have hsome : target width off ≠ none := mt target_eq_none_iff.1 hgood
    obtain ⟨x, hx⟩ := hostRead_answers_data (s := s) hsome
    obtain ⟨t, ht⟩ := hostWrite_next width off v s
    exact ⟨⟨_, x, (takes_read hr).2 rfl, hx⟩, t, (takes_write hr).2 ht, hostWrite_answers_ok hsome ht⟩

/-! ### Buffer words while idle (20_memory R52 to R56) -/

/-- A word store into a buffer leaves the word's four bytes, the lowest first (20_memory R56). -/
theorem Buf.get_store_byte {b : Buf} {m : Mem} {i k : Nat} {v : Word} (hi : i < b.words) (hk : k < 4) :
    Mem.get (b.store m i v) (b.addr i + k) = some (byteOf v k) := by
  rw [Buf.store, if_pos hi, Mem.get_setWord_byte hk]

/-- Settles O33: the offset's target is the word, so the accesses are `readWord` and `Buf.store`. -/
theorem bufferAccessWhenIdle : Obligations.BufferAccessWhenIdle := by
  intro s b i off v hr hb hi hmap
  have hoff : off.toNat = b.addr i := by cases b <;> exact hmap
  have htgt : target .word off = some (.word b i) := target_of_word hi hoff
  have hread : hostRead .word off s = readWord b i s := by rw [hostRead, htgt]
  have hwrite : hostWrite .word off v s = .next { s with resp := .ok, mem := b.store s.mem i v } := by
    rw [hostWrite, htgt, hb]
    rfl
  simp only [takes_read hr, takes_write hr, hread, hoff]
  exact ⟨fun w hw => readWord_written hb hw, fun hnone => ⟨_, readWord_draws (.inr hnone)⟩, b.store s.mem i v, hwrite,
    Buf.peek_store_self hi, fun k hk => Buf.get_store_byte hi hk, fun a ha => Buf.get_store_outside ha⟩

/-! ### While a command is in flight (20_memory R59) -/

/-- While a command is in flight a word written to `CMD` is ignored (60_exceptions R168). -/
theorem hostCommand_ignored {w : Word} {s : State} (hb : s.status.busy = true) :
    hostCommand w s = .next (markBusyError s) := if_pos hb

/-- While a command is in flight a write to any target but `CTRL` and `STATUS` is ignored with `BUSYERR`. -/
theorem hostWrite_ignored {width : Width} {off : Offset} {v : Word} {s : State} {x : Target} (hb : s.status.busy = true)
    (htgt : target width off = some x) (hctrl : x ≠ .reg .ctrl) (hstatus : x ≠ .reg .status) :
    hostWrite width off v s = .next (markBusyError (respond .ok s)) := by
  rw [hostWrite, htgt]
  cases x with
  | word b i => exact congrArg _ (if_pos hb)
  | reg r =>
    cases r
    case ctrl => exact absurd rfl hctrl
    case status => exact absurd rfl hstatus
    case cmd => exact hostCommand_ignored hb
    all_goals exact congrArg _ (if_pos hb)

/-- Settles O34. -/
theorem busyAccess : Obligations.BusyAccess := by
  intro s off v hr hb h4
  refine ⟨fun hlt hctrl hstatus => ?_, fun hlo hhi => ?_⟩
  · obtain ⟨r, hoff, htgt⟩ := target_register h4 hlt
    refine (takes_write hr).2 (hostWrite_ignored hb htgt ?_ ?_)
    · rintro ⟨⟩
      exact hctrl hoff
    · rintro ⟨⟩
      exact hstatus hoff
  · obtain ⟨b, i, htgt⟩ := target_buffer h4 hlo hhi
    have hread : hostRead .word off s = readWord b i s := by rw [hostRead, htgt]
    exact ⟨(takes_write hr).2 (hostWrite_ignored hb htgt nofun nofun),
      _, (takes_read hr).2 (hread.trans (readWord_draws (.inl hb)))⟩

/-- While a command is in flight no write leaves anything but `CTRL`, the flags, `ERRCODE`, `ERRCMD` and the response changed. -/
theorem hostWrite_busy_frame {width : Width} {off : Offset} {v : Word} {s t : State} (hb : s.status.busy = true)
    (h : hostWrite width off v s = .next t) :
    t = { s with ctrl := t.ctrl, status := t.status, errCode := t.errCode, errCmd := t.errCmd, resp := t.resp } := by
  rcases hostWrite_cases h with ⟨-, rfl⟩ | ⟨-, rfl⟩ | ⟨-, rfl⟩ | ⟨-, hc⟩ | ⟨-, rfl⟩ | ⟨hidle, -⟩ | ⟨hidle, -⟩
  · rfl
  · rfl
  · rw [writeStatus_frame]
    rfl
  · rw [hostCommand_ignored (by exact hb)] at hc
    cases hc
    rfl
  · rfl
  · simp [hb] at hidle
  · simp [hb] at hidle

/-- Settles O42: the frames of a read and of a busy write, and `BUSY` stays. -/
theorem hostCannotDisturbCommand : Obligations.HostCannotDisturbCommand := by
  intro s t width off v hr hb hmove
  have hframe : t = { s with
      ctrl := t.ctrl, status := t.status, errCode := t.errCode, errCmd := t.errCmd, resp := t.resp, draws := t.draws } ∧
      t.status.busy = true := by
    rcases hmove with hread | hwrite
    · rw [takes_read hr, hostRead_frame] at hread
      subst hread
      exact ⟨rfl, hb⟩
    · rw [takes_write hr] at hwrite
      refine ⟨?_, (hostWrite_frame hwrite).2 hb⟩
      rw [hostWrite_busy_frame hb hwrite]
  obtain ⟨hframe, hbusy⟩ := hframe
  have hstatus : { t.status with busy := true } = t.status := by rw [← hbusy]
  rw [hstatus]
  exact hframe

end Sys2Proof.Machine
end

section
/-! PROOF. Decoding and encoding are inverse to each other, and both agree with the opcode table and with the list of illegal
words (30_encoding R73, R74, R77, R79). A word in a command's row is shown to BE the word of a command of that row, so that the
inverse settles what it decodes to. -/

namespace Sys2Proof

/-! ### The three formats with an operand read back what the encoder writes -/

theorem decode_eq_decodeS {w : Word} (hr : rsvOf w = 0#16) (ho : opcodeOf w = 0x03#8) : decode w = decodeS (argOf w) := by
  simp [decode, hr, ho]

theorem decode_eq_decodeK {w : Word} (hr : rsvOf w = 0#16) (ho : opcodeOf w = 0x12#8) : decode w = decodeK (argOf w) := by
  simp [decode, hr, ho]

theorem decode_eq_decodeM {w : Word} (hr : rsvOf w = 0#16) (ho : opcodeOf w = 0x18#8) : decode w = decodeM (argOf w) := by
  simp [decode, hr, ho]

theorem decodeS_ofNat {s : Nat} (hs : s < 32) : decodeS (BitVec.ofNat 8 s) = .ok (.stage s) := by
  have hzero : (BitVec.ofNat 8 s).extractLsb' 5 3 = 0#3 := by
    apply BitVec.eq_of_toNat_eq
    simp [BitVec.extractLsb'_toNat, Nat.shiftRight_eq_div_pow]
    omega
  have hfield : ((BitVec.ofNat 8 s).extractLsb' 0 5).toNat = s := by
    simp [BitVec.extractLsb'_toNat]
    omega
  rw [decodeS, if_pos hzero, hfield]

theorem decodeK_ofNat (keep : Bool) : decodeK (BitVec.ofNat 8 (if keep then 1 else 0)) = .ok (.db keep) := by
  cases keep <;> decide

theorem decodeM_ofNat (m : BitVec 2) : decodeM (BitVec.ofNat 8 m.toNat) = .ok (.aclr m) := by
  revert m
  decide

/-- Settles O1: the word's fields are the opcode and the operand, and each format reads its operand back. -/
theorem decodeOfEncode : Obligations.DecodeOfEncode := by
  intro i hi
  cases i with
  | stage s =>
    have hs : s < 32 := of_decide_eq_true hi
    obtain ⟨ho, ha, hr⟩ := commandWord_fields (opcode := 0x03) (arg := s % 32) (by decide) (by omega)
    rw [encode, decode_eq_decodeS hr ho, ha, Nat.mod_eq_of_lt hs, decodeS_ofNat hs]
  | db keep =>
    obtain ⟨ho, ha, hr⟩ := commandWord_fields (opcode := 0x12) (arg := if keep then 1 else 0) (by decide) (by split <;> decide)
    rw [encode, decode_eq_decodeK hr ho, ha, decodeK_ofNat]
  | aclr m =>
    obtain ⟨ho, ha, hr⟩ := commandWord_fields (opcode := 0x18) (arg := m.toNat) (by decide) (by omega)
    rw [encode, decode_eq_decodeM hr ho, ha, decodeM_ofNat]
  | _ => rfl

/-- Settles O2. -/
theorem encodeOfDecode : Obligations.EncodeOfDecode := fun _ _ h => encode_of_decode h

/-! ### The rows of the opcode table -/

/-- The command that stands for a row of the opcode table (30_encoding R73): the row's command with operand 0. -/
def Instr.row : Instr → Instr
  | .stage _ => .stage 0
  | .db _ => .db false
  | .aclr _ => .aclr 0#2
  | i => i

/-- The fifteen rows of the opcode table (30_encoding R73). -/
def tableRows : List Instr :=
  [.nop, .pad, .bitrev, .stage 0, .bfly, .fft, .wgen, .wapply, .mag, .maxu, .db false, .dbn, .logc, .faxis, .aclr 0#2]

theorem Instr.row_mem (i : Instr) : i.row ∈ tableRows := by cases i <;> simp [Instr.row, tableRows]

/-- The mnemonic, the mask and the match are the row's. -/
theorem Instr.row_columns (i : Instr) :
    i.row.mnemonic = i.mnemonic ∧ encodingMask i.row = encodingMask i ∧ encodingMatch i.row = encodingMatch i := by
  cases i <;> exact ⟨rfl, rfl, rfl⟩

/-- The mnemonics of the table are fifteen different ones. -/
theorem mnemonic_injOn_tableRows : ∀ i ∈ tableRows, ∀ j ∈ tableRows, i.mnemonic = j.mnemonic → i = j := by decide +kernel

theorem Instr.mnemonic_eq_iff {i j : Instr} : i.mnemonic = j.mnemonic ↔ i.row = j.row := by
  rw [← i.row_columns.1, ← j.row_columns.1]
  exact ⟨mnemonic_injOn_tableRows _ i.row_mem _ j.row_mem, congrArg _⟩

/-- The word of every command lies in the command's row. -/
theorem encode_in_row (i : Instr) : encode i &&& encodingMask i = encodingMatch i := by
  cases i with
  | stage s => exact Laws.EncodeInRow.stage s
  | db keep => exact Laws.EncodeInRow.db keep
  | aclr m => exact Laws.EncodeInRow.aclr m
  | _ => rfl

/-- Every mask covers the opcode and `rsv`, where the match has the opcode of the row and 0; the match has no operand bit. -/
theorem encodingMask_fields (i : Instr) :
    opcodeOf (encodingMask i) = 0xFF#8 ∧ rsvOf (encodingMask i) = 0xFFFF#16 ∧
      argOf (encodingMatch i) = 0#8 ∧ rsvOf (encodingMatch i) = 0#16 := by
  have hrows : ∀ r ∈ tableRows, opcodeOf (encodingMask r) = 0xFF#8 ∧ rsvOf (encodingMask r) = 0xFFFF#16 ∧
      argOf (encodingMatch r) = 0#8 ∧ rsvOf (encodingMatch r) = 0#16 := by decide
  obtain ⟨-, hmask, hmatch⟩ := i.row_columns
  rw [← hmask, ← hmatch]
  exact hrows _ i.row_mem

/-- A word in a row is composed of the row's opcode and of an operand field that is zero under the mask. -/
theorem fields_of_in_row {w : Word} {i : Instr} (h : w &&& encodingMask i = encodingMatch i) :
    argOf w &&& argOf (encodingMask i) = 0#8 ∧ commandWord (opcodeOf (encodingMatch i)).toNat (argOf w).toNat = w := by
  obtain ⟨hop, hrsv, harg0, hrsv0⟩ := encodingMask_fields i
  have ho : opcodeOf w &&& opcodeOf (encodingMask i) = opcodeOf (encodingMatch i) := by
    rw [← h]; exact BitVec.extractLsb'_and.symm
  have ha : argOf w &&& argOf (encodingMask i) = argOf (encodingMatch i) := by
    rw [← h]; exact BitVec.extractLsb'_and.symm
  have hr : rsvOf w &&& rsvOf (encodingMask i) = rsvOf (encodingMatch i) := by
    rw [← h]; exact BitVec.extractLsb'_and.symm
  rw [hop, show (0xFF#8) = BitVec.allOnes 8 from rfl, BitVec.and_allOnes] at ho
  rw [hrsv, hrsv0, show (0xFFFF#16) = BitVec.allOnes 16 from rfl, BitVec.and_allOnes] at hr
  exact ⟨ha.trans harg0, by rw [← ho, commandWord_of_fields hr]⟩

/-- An operand field with zeros in a format's upper bits is a number below the format's bound. -/
theorem arg_lt_of_masked : ∀ arg : BitVec 8,
    (arg &&& argOf (encodingMask (.stage 0)) = 0#8 → arg.toNat < 32) ∧
      (arg &&& argOf (encodingMask (.db false)) = 0#8 → arg.toNat < 2) ∧
      (arg &&& argOf (encodingMask (.aclr 0#2)) = 0#8 → arg.toNat < 4) := by decide +kernel

/-- A word in a row is the word of a well-formed command of that row. -/
theorem exists_encode_eq_of_in_row {w : Word} {i : Instr} (h : w &&& encodingMask i = encodingMatch i) :
    ∃ j : Instr, j.wellFormed = true ∧ j.row = i.row ∧ encode j = w := by
  obtain ⟨hmask, hw⟩ := fields_of_in_row h
  obtain ⟨hS, hK, hM⟩ := arg_lt_of_masked (argOf w)
  cases i with
  | stage _ =>
    have hlt := hS hmask
    refine ⟨.stage (argOf w).toNat, decide_eq_true hlt, rfl, ?_⟩
    rw [encode, Nat.mod_eq_of_lt hlt]
    exact hw
  | db _ =>
    have hbit : ∀ n < 2, (if decide (n = 1) then 1 else 0) = n := by decide
    refine ⟨.db (decide ((argOf w).toNat = 1)), rfl, rfl, ?_⟩
    rw [encode, hbit _ (hK hmask)]
    exact hw
  | aclr _ =>
    refine ⟨.aclr (BitVec.ofNat 2 (argOf w).toNat), rfl, rfl, ?_⟩
    rw [encode, BitVec.toNat_ofNat, Nat.mod_eq_of_lt (hM hmask)]
    exact hw
  | _ => exact ⟨_, rfl, rfl, (h.symm.trans BitVec.and_allOnes)⟩

/-- Settles O3: the words of a row are the words of the row's commands, and decoding is the inverse of encoding. -/
theorem decodeAgreesWithOpcodeMap : Obligations.DecodeAgreesWithOpcodeMap := by
  intro w i
  constructor
  · intro h
    obtain ⟨j, hj, hrow, rfl⟩ := exists_encode_eq_of_in_row h
    exact ⟨j, decodeOfEncode j hj, Instr.mnemonic_eq_iff.2 hrow⟩
  · rintro ⟨j, hj, hname⟩
    have hrow := Instr.mnemonic_eq_iff.1 hname
    obtain ⟨-, hmask, hmatch⟩ := i.row_columns
    obtain ⟨-, hmask', hmatch'⟩ := j.row_columns
    rw [← (encode_of_decode hj).2, ← hmask, ← hmatch, ← hrow, hmask', hmatch']
    exact encode_in_row j

/-! ### Illegal words -/

/-- A format that checks `arg` with a condition refuses exactly the fields that fail it. -/
theorem exists_ite_error_iff {c : Prop} [Decidable c] {i : Instr} {x : DecodeError} :
    (∃ e, (if c then .ok i else .error x : Except DecodeError Instr) = .error e) ↔ ¬ c := by
  by_cases h : c <;> simp [h]

theorem decodeZ_error_iff {i : Instr} {w : Word} : (∃ e, decodeZ i (argOf w) = .error e) ↔ w.extractLsb' 8 8 ≠ 0#8 :=
  exists_ite_error_iff

theorem decodeS_error_iff {w : Word} : (∃ e, decodeS (argOf w) = .error e) ↔ w.extractLsb' 13 3 ≠ 0#3 := by
  rw [extract_argOf w 5 3 (by decide)]
  exact exists_ite_error_iff

theorem decodeK_error_iff {w : Word} : (∃ e, decodeK (argOf w) = .error e) ↔ w.extractLsb' 9 7 ≠ 0#7 := by
  rw [extract_argOf w 1 7 (by decide)]
  exact exists_ite_error_iff

theorem decodeM_error_iff {w : Word} : (∃ e, decodeM (argOf w) = .error e) ↔ w.extractLsb' 10 6 ≠ 0#6 := by
  rw [extract_argOf w 2 6 (by decide)]
  exact exists_ite_error_iff

/-- Settles O4, opcode by opcode of `decode`. -/
theorem illegalWordsAreTheReservedOnes : Obligations.IllegalWordsAreTheReservedOnes := by
  intro w
  rw [← opcodeOf, ← rsvOf]
  by_cases hr : rsvOf w = 0#16
  case neg => exact iff_of_true ⟨.reservedBits, if_pos hr⟩ (.inl hr)
  rw [decode, if_neg (not_not_intro hr), or_iff_right (not_not_intro hr)]
  generalize (opcodeOf w).toNat = op
  split
  case h_4 => simpa using decodeS_error_iff
  case h_11 => simpa using decodeK_error_iff
  case h_15 => simpa using decodeM_error_iff
  case h_16 =>
    simp only [imp_false] at *
    exact iff_of_true ⟨_, rfl⟩ (by omega)
  all_goals simpa using decodeZ_error_iff

/-! ### Sample words -/

/-- Settles O5: the legal words are the encodings of their commands. -/
theorem sampleWordsDecode : Obligations.SampleWordsDecode :=
  ⟨decodeOfEncode .nop rfl, decodeOfEncode .fft rfl, decodeOfEncode (.stage 3) rfl, decodeOfEncode (.stage 31) rfl,
    decodeOfEncode .wgen rfl, decodeOfEncode .mag rfl, decodeOfEncode (.db true) rfl, decodeOfEncode (.aclr 3#2) rfl,
    rfl, rfl, rfl⟩

end Sys2Proof
end

section
/-! PROOF. The window commands (40_window R101, R102): the checks by `lengthCheck`, the buffers by the two loops, and the first
coefficient, +0.0 by the neutral operands of 00_scope R9. -/

namespace Sys2Proof.Machine.Num

/-- A whole number from 1 of at most 24 bits is a positive finite float. -/
theorem ofInt_positive {i : Nat} (h0 : 0 < i) (hi : i < 2 ^ 24) :
    fisfinite (ofInt i) = true ∧ feq0 (ofInt i) = false ∧ sign (ofInt i) = false := by
  obtain ⟨m, hm, hu⟩ := exists_unitsOf_eq hi
  have hm31 : m < 2 ^ 31 := lt_trans hm (by decide)
  have hm0 : m ≠ 0 := by
    rintro rfl
    exact (Nat.mul_pos h0 (Nat.two_pow_pos 149)).ne hu
  rw [ofInt_of_unitsOf hm hu, fisfinite, feq0, magBits_pack hm31, sign_pack hm31]
  exact ⟨decide_eq_true hm, decide_eq_false hm0, rfl⟩

/-- `+0.0` over a positive finite float is `+0.0`. -/
theorem zero_fdiv {b : Word} (d : Draw) (hb : fisfinite b = true) (h0 : feq0 b = false) (hs : sign b = false) :
    fdiv d 0x00000000#32 b = 0x00000000#32 := by
  rw [fdiv_finite d (by decide) hb h0, hs, show units 0x00000000#32 = 0 by decide, Nat.zero_mul, roundMag_zero]
  rfl

end Sys2Proof.Machine.Num

namespace Sys2Proof.Machine

/-! ### WGEN -/

/-- The argument of the cosine is +0.0, the cosine 1.0, the difference +0.0 (40_window R101). -/
theorem hannCoefficient_zero {n : Nat} (d : Draw) (h2 : 2 ≤ n) (hn : n ≤ Config.nMax) :
    hannCoefficient d n 0 = 0x00000000#32 := by
  have harg (e : Draw) : Num.fmul e Num.twoPi (Num.ofInt 0) = 0x00000000#32 := by
    rw [show Num.ofInt 0 = 0x00000000#32 by decide, Num.fmul_finite e (by decide) (by decide)]
    decide
  have hmax : Config.nMax < 2 ^ 24 := by decide
  obtain ⟨hfin, h0, hs⟩ := Num.ofInt_positive (i := n - 1) (by omega) (by omega)
  have hdiff (e : Draw) : Num.fsub e Num.one 0x3F800000#32 = 0x00000000#32 := Num.fsub_self e (by decide)
  rw [hannCoefficient, harg, Num.zero_fdiv _ hfin h0 hs, Num.fcos_zero, hdiff, Num.fmul_finite _ (by decide) (by decide)]
  decide

/-- WGEN writes the words below the length and nothing else, whatever the length (40_window R101). -/
theorem wgenMem_onlyWords {d : Draw} {n : Nat} {m : Mem} (hn : n ≤ Config.nMax) : OnlyWords .win n m (wgenMem d n m) := by
  by_cases h1 : n = 1
  · rw [h1]
    exact wgenMem_one.2
  · exact (wgenMem_spec h1 hn).2

/-- Settles O19: the run ends in the effect of WGEN, whose loop is `wgenMem_spec`, or `wgenMem_one` for one sample. -/
theorem wgenRule : Obligations.WgenRule := by
  refine ⟨rfl, fun s hr => ⟨fun h => rejects_of_check hr (lengthCheck_zero h),
    fun h => rejects_of_check hr (lengthCheck_long h), fun h1 hn => ?_⟩⟩
  have hc : issueCheck .wgen s = none := lengthCheck_ok h1 hn
  refine ⟨_, (runs_iff hr hc).2 rfl, rfl, fun hone => ?single, fun i h2 hi => ?coefficient, wgenMem_onlyWords hn⟩
  case single =>
    change Buf.win.peek (wgenMem (drawOf s) s.len.toNat s.mem) 0 = _
    rw [hone]
    exact wgenMem_one.1
  case coefficient => exact ⟨((drawOf s).site i).site, (wgenMem_spec (by omega) hn).1 i hi⟩

/-- Settles O20: the word is the coefficient of index 0. -/
theorem windowStartsAtZero : Obligations.WindowStartsAtZero := by
  intro s t hr h2 hn hrun
  have hc : issueCheck .wgen s = none := lengthCheck_ok (by omega) hn
  obtain rfl := (runs_iff hr hc).1 hrun
  have hfirst := (wgenMem_spec (d := drawOf s) (m := s.mem) (by omega) hn).1 0 (by omega)
  rwa [hannCoefficient_zero _ h2 hn] at hfirst

/-! ### WAPPLY -/

/-- A failed length check is WAPPLY's first failed check (40_window R102). -/
theorem issueCheck_wapply_of_length {s : State} {c : ErrCode} (h : lengthCheck s = some c) :
    issueCheck .wapply s = some c := by simp [issueCheck, h]

/-- With a legal length the check on `WLEN` decides (40_window R102). -/
theorem issueCheck_wapply {s : State} (h1 : 1 ≤ s.len.toNat) (hn : s.len.toNat ≤ Config.nMax) :
    issueCheck .wapply s = if s.wlen ≠ s.len then some .invalidParameter else none := by
  simp [issueCheck, lengthCheck_ok h1 hn]

/-- Settles O21: the run ends in the effect of WAPPLY, whose loop is `wapplyMem_spec`. -/
theorem wapplyRule : Obligations.WapplyRule := by
  refine ⟨rfl, fun s hr => ⟨fun h => rejects_of_check hr (issueCheck_wapply_of_length (lengthCheck_zero h)),
    fun h => rejects_of_check hr (issueCheck_wapply_of_length (lengthCheck_long h)),
    fun h1 hn hw => rejects_of_check hr (by rw [issueCheck_wapply h1 hn, if_pos hw]), fun h1 hn hw => ?_⟩⟩
  have hc : issueCheck .wapply s = none := by rw [issueCheck_wapply h1 hn, if_neg (not_not_intro hw)]
  obtain ⟨hproduct, hframe⟩ := wapplyMem_spec (d := drawOf s) (m := s.mem) hn
  exact ⟨_, (runs_iff hr hc).2 rfl, rfl,
    fun i hi => ⟨_, _, _, Buf.sees_load _ _ _ _, Buf.sees_load _ _ _ _, hproduct i hi⟩, hframe⟩

end Sys2Proof.Machine
end

section
/-! PROOF. The twiddle sequence (41_fft R113). A finite result comes of finite operands, and on those no operation draws; so a
pair of finite words of the sequence is the same whatever the draws, and its value at one place of the draws is its value. -/

namespace Sys2Proof.Machine.Num

/-! ### Finite results -/

theorem fisfinite_nan (d : Draw) : fisfinite (nan d) = false := fisfinite_of_isNaN (isNaN_nan d)

/-- A finite sum has finite terms. -/
theorem finite_of_fadd {a b : Word} {d : Draw} (h : fisfinite (fadd d a b) = true) :
    fisfinite a = true ∧ fisfinite b = true := by
  by_cases hn : isNaN a = true ∨ isNaN b = true
  · simp [fadd_nan d hn, fisfinite_nan] at h
  obtain ⟨ha, hb⟩ := not_or.1 hn
  rcases isInf_or_fisfinite (Bool.eq_false_iff.2 ha), isInf_or_fisfinite (Bool.eq_false_iff.2 hb) with ⟨ha | ha, hb | hb⟩
  · rw [fadd_inf_inf d ha hb] at h
    split at h
    · simp [fisfinite_nan] at h
    · simp [inf_cases ha] at h
  · simp [fadd_inf_finite d ha hb, inf_cases ha] at h
  · simp [fadd_finite_inf d ha hb, inf_cases hb] at h
  · exact ⟨ha, hb⟩

/-- A finite difference has finite terms. -/
theorem finite_of_fsub {a b : Word} {d : Draw} (h : fisfinite (fsub d a b) = true) :
    fisfinite a = true ∧ fisfinite b = true := by
  simpa [fisfinite] using finite_of_fadd h

/-- A finite product has finite factors. -/
theorem finite_of_fmul {a b : Word} {d : Draw} (h : fisfinite (fmul d a b) = true) :
    fisfinite a = true ∧ fisfinite b = true := by
  by_cases hn : isNaN a = true ∨ isNaN b = true
  · simp [fmul_nan d hn, fisfinite_nan] at h
  obtain ⟨ha, hb⟩ := not_or.1 hn
  rw [Bool.not_eq_true] at ha hb
  by_cases hi : isInf a = true ∨ isInf b = true
  · rw [fmul_inf d ha hb hi] at h
    split at h
    · simp [fisfinite_nan] at h
    · rw [fisfinite, magBits_pack (by decide)] at h
      simp at h
  · obtain ⟨hia, hib⟩ := not_or.1 hi
    exact ⟨(isInf_or_fisfinite ha).resolve_left hia, (isInf_or_fisfinite hb).resolve_left hib⟩

/-- The root of stage `s + 1` is the table's entry `s` (00_scope R10). -/
theorem root_of_entry {s : Nat} {r : Word × Word} (hr : rootTable[s]? = some r) (d : Draw) : root d (s + 1) = r := by
  simp [root, hr]

end Sys2Proof.Machine.Num

namespace Sys2Proof.Machine

/-! ### One step of the sequence -/

/-- The pair `w` turned by the root `r`: the two right-hand sides of the recurrence, drawing at the places `e` (41_fft R113). -/
def turned (e : Nat → Draw) (w r : Word × Word) : Word × Word :=
  (Num.fsub (e 0) (Num.fmul (e 1) w.1 r.1) (Num.fmul (e 2) w.2 r.2),
    Num.fadd (e 3) (Num.fmul (e 4) w.1 r.2) (Num.fmul (e 5) w.2 r.1))

/-- Both components are finite. -/
abbrev FinitePair (w : Word × Word) : Prop := Num.fisfinite w.1 = true ∧ Num.fisfinite w.2 = true

/-- A finite turned pair comes of a finite pair, and is the same at any places of the draws. -/
theorem turned_of_finite {e : Nat → Draw} {w r : Word × Word} (h : FinitePair (turned e w r)) :
    FinitePair w ∧ ∀ e', turned e' w r = turned e w r := by
  obtain ⟨hre, him⟩ := h
  obtain ⟨h11, h22⟩ := Num.finite_of_fsub hre
  obtain ⟨h12, h21⟩ := Num.finite_of_fadd him
  obtain ⟨hw1, hr1⟩ := Num.finite_of_fmul h11
  obtain ⟨hw2, hr2⟩ := Num.finite_of_fmul h22
  have hmul {a b : Word} (ha : Num.fisfinite a = true) (hb : Num.fisfinite b = true) (d d' : Draw) :
      Num.fmul d a b = Num.fmul d' a b := by rw [Num.fmul_finite d ha hb, Num.fmul_finite d' ha hb]
  refine ⟨⟨hw1, hw2⟩, fun e' => ?_⟩
  rw [turned, turned, hmul hw1 hr1 (e' 1) (e 1), hmul hw2 hr2 (e' 2) (e 2), hmul hw1 hr2 (e' 4) (e 4),
    hmul hw2 hr1 (e' 5) (e 5), Num.fsub_finite _ h11 h22, Num.fsub_finite _ h11 h22, Num.fadd_finite _ h12 h21,
    Num.fadd_finite _ h12 h21]

/-- The recurrence, with the root from the table (41_fft R113). -/
theorem twiddle_succ {s : Nat} {r : Word × Word} (hr : Num.rootTable[s]? = some r) (d : Draw) (j : Nat) :
    twiddle d (s + 1) (j + 1) = turned ((d.site 1).site j).site (twiddle d (s + 1) j) r := by
  rw [twiddle, Num.root_of_entry hr, turned]

/-- A finite pair of the sequence is the same at any place of the draws. -/
theorem twiddle_of_finite {s j : Nat} {r : Word × Word} {d : Draw} (hr : Num.rootTable[s]? = some r)
    (h : FinitePair (twiddle d (s + 1) j)) (d' : Draw) : twiddle d' (s + 1) j = twiddle d (s + 1) j := by
  induction j with
  | zero => rfl
  | succ j ih =>
    rw [twiddle_succ hr] at h
    obtain ⟨hw, hany⟩ := turned_of_finite h
    rw [twiddle_succ hr, twiddle_succ hr, ih hw, hany]

/-- The value of a finite pair, computed at one place of the draws. -/
theorem twiddle_eq_of_value {s j : Nat} {r w : Word × Word} (hr : Num.rootTable[s]? = some r)
    (h : twiddle { stamp := 0, path := [] } (s + 1) j = w) (hw : FinitePair w) (d : Draw) : twiddle d (s + 1) j = w := by
  subst h
  exact twiddle_of_finite hr hw d

/-- Settles O15: the recurrence is `twiddle_succ`, and each listed pair is finite, so that evaluating it once gives it. -/
theorem twiddleSequence : Obligations.TwiddleSequence := by
  refine ⟨fun _ _ => rfl, fun d s r hr j => ⟨_, twiddle_succ hr d j⟩, fun d => ⟨?_, ?_, ?_, ?_⟩⟩
  · exact twiddle_eq_of_value (s := 1) rfl (by decide +kernel) (by decide) d
  · exact twiddle_eq_of_value (s := 2) rfl (by decide +kernel) (by decide) d
  · exact twiddle_eq_of_value (s := 2) rfl (by decide +kernel) (by decide) d
  · exact twiddle_eq_of_value (s := 2) rfl (by decide +kernel) (by decide) d

end Sys2Proof.Machine
end

section
/-! PROOF. The transform commands (41_fft R111 to R116): the checks by `lengthCheck` and `transformCheck`, the buffers by the
loops of PAD, BITREV and the stages, each at the lengths of the state. -/

namespace Sys2Proof.Machine

/-! ### PAD -/

/-- The effect of PAD on the buffers, at the length it computes (41_fft R111). -/
theorem padEffect_rel {s : State} (hn : s.len.toNat ≤ Config.nMax) :
    PadRel s.len.toNat (2 ^ clog2 s.len.toNat) s.mem (padEffect s).mem := padMem_spec (padEffect_length hn).2.2

/-- Settles O12: the registers are `padEffect_length`, the buffers `padEffect_rel`. -/
theorem padRule : Obligations.PadRule := by
  refine ⟨rfl, fun s hr => ⟨fun h => rejects_of_check hr (lengthCheck_zero h),
    fun h => rejects_of_check hr (lengthCheck_long h), fun h1 hn => ?_⟩⟩
  have hc : issueCheck .pad s = none := lengthCheck_ok h1 hn
  obtain ⟨hlog, hnfft, -⟩ := padEffect_length hn
  exact ⟨_, (runs_iff hr hc).2 rfl, rfl, hlog, hnfft, padEffect_rel hn⟩

/-! ### BITREV -/

/-- The effect of BITREV on the buffers, at an established length (41_fft R112). -/
theorem bitrevEffect_rel {s : State} (d : Draw) (hn : s.nfft ≠ 0#32) (hl : LengthOk s) :
    BitrevRel .re s.log2n.toNat s.mem (bitrevEffect d s).mem ∧ BitrevRel .im s.log2n.toNat s.mem (bitrevEffect d s).mem ∧
      OnlyComplex s.nfft.toNat s.mem (bitrevEffect d s).mem := by
  obtain ⟨hpow, hmax⟩ := length_of_ne_zero hn hl
  simp only [bitrevEffect, hpow]
  exact bitrevMem_spec hmax

/-- A run of BITREV: its frame, and its effect on the buffers (41_fft R112). -/
theorem bitrev_of_runs {s t : State} (hr : Ready s) (hn : s.nfft ≠ 0#32) (hl : LengthOk s) (h : Runs .bitrev s t) :
    t = { completed .bitrev s with mem := t.mem } ∧ BitrevRel .re s.log2n.toNat s.mem t.mem ∧
      BitrevRel .im s.log2n.toNat s.mem t.mem ∧ OnlyComplex s.nfft.toNat s.mem t.mem := by
  have hc : issueCheck .bitrev s = none := transformCheck_ok hn
  obtain rfl := (runs_iff hr hc).1 h
  exact ⟨rfl, bitrevEffect_rel (drawOf s) hn hl⟩

/-- Settles O13: the issue accepts the command, and its run is `bitrev_of_runs`. -/
theorem bitrevRule : Obligations.BitrevRule := by
  refine ⟨rfl, fun s hr => ⟨fun h => rejects_of_check hr (transformCheck_zero h), fun hn hl => ?_⟩⟩
  have hc : issueCheck .bitrev s = none := transformCheck_ok hn
  have hrun := (runs_iff hr hc).2 rfl
  exact ⟨_, hrun, bitrev_of_runs hr hn hl hrun⟩

/-- Two bit reversals in a row bring every written word back, since `rev(L, rev(L,i)) = i` (41_fft R112). -/
theorem BitrevRel.restores {b : Buf} {bits i : Nat} {m m' m'' : Mem} {w : Word} (h : BitrevRel b bits m m')
    (h' : BitrevRel b bits m' m'') (hi : i < 2 ^ bits) (hw : b.peek m i = some w) : b.peek m'' i = some w := by
  refine h' i hi w (h (rev bits i) (rev_lt bits i) w ?_)
  rwa [rev_rev bits i hi]

/-- Settles O14: the first run leaves the checks and the length as they were, and the two permutations undo each other. -/
theorem bitrevTwiceRestores : Obligations.BitrevTwiceRestores := by
  intro s t u hr hn hl hst htu i w hi
  obtain ⟨hframe, hre, him, -⟩ := bitrev_of_runs hr hn hl hst
  have hr' : Ready t := by
    rw [hframe]
    exact ⟨rfl, hr.2⟩
  have hnfft : t.nfft = s.nfft := by rw [hframe]; rfl
  have hlog : t.log2n = s.log2n := by rw [hframe]; rfl
  have hl' : LengthOk t := by rwa [LengthOk, hnfft, hlog]
  obtain ⟨-, hre', him', -⟩ := bitrev_of_runs hr' (hnfft ▸ hn) hl' htu
  rw [hlog] at hre' him'
  rw [(length_of_ne_zero hn hl).1] at hi
  exact ⟨hre.restores hre' hi, him.restores him' hi⟩

/-! ### STAGE -/

/-- The word of `STAGE n` (30_encoding R73). -/
theorem encode_stage {n : Nat} (hn : n < 32) : encode (.stage n) = 0x00000003#32 + (BitVec.ofNat 32 n <<< 8) := by
  revert n
  decide

/-- Without an established length STAGE fails its first check (41_fft R114). -/
theorem issueCheck_stage_zero {n : Nat} {s : State} (h : s.nfft = 0#32) : issueCheck (.stage n) s = some .inputTooShort := by
  simp [issueCheck, transformCheck_zero h]

/-- With an established length the stage number decides (41_fft R114). -/
theorem issueCheck_stage {n : Nat} {s : State} (h : s.nfft ≠ 0#32) :
    issueCheck (.stage n) s = if n = 0 ∨ s.log2n.toNat < n then some .invalidParameter else none := by
  simp [issueCheck, transformCheck_ok h]

/-- The effect of STAGE on the buffers: a stage number up to `LOG2N` divides the length into whole blocks (41_fft R114). -/
theorem stageEffect_rel {n : Nat} {s : State} (d : Draw) (hn : s.nfft ≠ 0#32) (hl : LengthOk s) (h1 : 1 ≤ n)
    (h2 : n ≤ s.log2n.toNat) : StageRel n s.nfft.toNat s.mem (stageEffect n d s).mem := by
  obtain ⟨hpow, hmax⟩ := length_of_ne_zero hn hl
  have hblocks : s.nfft.toNat = 2 ^ (s.log2n.toNat - n) * 2 ^ n := by rw [hpow, ← Nat.pow_add, Nat.sub_add_cancel h2]
  simp only [stageEffect, hblocks]
  exact stageMem_spec h1 (by omega)

/-- Settles O16: the buffers are `stageEffect_rel`. -/
theorem stageRule : Obligations.StageRule := by
  refine fun n => ⟨encode_stage, fun s hr => ⟨fun h => rejects_of_check hr (issueCheck_stage_zero h),
    fun hn h => rejects_of_check hr (by rw [issueCheck_stage hn, if_pos h]), fun hn hl h1 h2 => ?_⟩⟩
  have hc : issueCheck (.stage n) s = none := by rw [issueCheck_stage hn, if_neg (by omega)]
  exact ⟨_, (runs_iff hr hc).2 rfl, rfl, stageEffect_rel (drawOf s) hn hl h1 h2⟩

/-! ### BFLY and FFT -/

/-- The effect of BFLY on the buffers, at an established length (41_fft R115). -/
theorem bflyEffect_rel {s : State} (d : Draw) (hn : s.nfft ≠ 0#32) (hl : LengthOk s) :
    StagesRel s.log2n.toNat s.nfft.toNat s.mem (bflyEffect d s).mem := by
  obtain ⟨hpow, hmax⟩ := length_of_ne_zero hn hl
  simp only [bflyEffect, hpow]
  exact bflyMem_spec hmax

/-- Settles O17: the buffers are `bflyEffect_rel`. -/
theorem bflyRule : Obligations.BflyRule := by
  refine ⟨rfl, fun s hr => ⟨fun h => rejects_of_check hr (transformCheck_zero h), fun hn hl => ?_⟩⟩
  have hc : issueCheck .bfly s = none := transformCheck_ok hn
  exact ⟨_, (runs_iff hr hc).2 rfl, rfl, bflyEffect_rel (drawOf s) hn hl⟩

/-- The length PAD establishes is not 0: it is a power of two (41_fft R111). -/
theorem padEffect_nfft_ne_zero {s : State} (hn : s.len.toNat ≤ Config.nMax) : (padEffect s).nfft ≠ 0#32 := by
  intro h
  have hpow := (padEffect_length hn).2.1
  rw [h] at hpow
  exact (Nat.two_pow_pos _).ne hpow

/-- Settles O18: PAD establishes the length, and BITREV and BFLY act at it, one after the other. -/
theorem fftRule : Obligations.FftRule := by
  refine ⟨rfl, fun s hr => ⟨fun h => rejects_of_check hr (lengthCheck_zero h),
    fun h => rejects_of_check hr (lengthCheck_long h), fun h1 hn => ?_⟩⟩
  have hc : issueCheck .fft s = none := lengthCheck_ok h1 hn
  have hlen : LengthOk (padEffect s) := lengthOk_padEffect (lengthCheck_ok h1 hn)
  have hne := padEffect_nfft_ne_zero hn
  obtain ⟨hlog, hnfft, -⟩ := padEffect_length hn
  have hpad := padEffect_rel hn
  rw [← hnfft] at hpad
  obtain ⟨hre, him, hframe⟩ := bitrevEffect_rel ((drawOf s).site 0) hne hlen
  have hbfly := bflyEffect_rel (s := bitrevEffect ((drawOf s).site 0) (padEffect s)) ((drawOf s).site 1) hne hlen
  exact ⟨_, _, _, (runs_iff hr hc).2 rfl, rfl, hlog, hnfft, hpad, hre, him, hframe, hbfly⟩

end Sys2Proof.Machine
end

section
/-! PROOF. The conversion commands (42_magnitude_log R131 to R136): the checks by `transformCheck`, the buffers by the loop of
each command at the bins of an established length, GMAX and DBMAX by the running maximum, FRQ[0] by the zero numerator. -/

namespace Sys2Proof.Machine.Num

/-- A whole number that a register holds is a finite float, with no sign. -/
theorem ofInt_finite {i : Nat} (hi : i < 2 ^ 32) : fisfinite (ofInt i) = true ∧ sign (ofInt i) = false := by
  have hlt : roundMag (i * 2 ^ 149) 1 < infBits := by
    refine roundMag_lt_infBits Nat.one_pos ?_
    have := Nat.mul_lt_mul_of_pos_right hi (Nat.two_pow_pos 149)
    omega
  rw [ofInt, fisfinite, magBits_pack_roundMag, sign_pack_roundMag]
  exact ⟨decide_eq_true hlt, rfl⟩

/-- `+0.0` times a finite float with no sign is `+0.0`. -/
theorem zero_fmul {b : Word} (d : Draw) (hb : fisfinite b = true) (hs : sign b = false) :
    fmul d 0x00000000#32 b = 0x00000000#32 := by
  rw [fmul_finite d (by decide) hb, hs, show units 0x00000000#32 = 0 by decide, Nat.zero_mul, roundMag_zero]
  rfl

end Sys2Proof.Machine.Num

namespace Sys2Proof.Machine

/-! ### MAG -/

/-- The places of the draws of one magnitude, from the outermost operation of R131's formula inward. -/
def magnitudeDraws (d : Draw) : Nat → Draw
  | 0 => d.site 7
  | 1 => d.site 0
  | 2 => d.site 1
  | _ => d.site 4

/-- One magnitude is R131's formula on what its four reads see. -/
theorem magnitudeOf_formula (d : Draw) (m : Mem) (k : Nat) :
    ∃ (e : Nat → Draw) (x x' y y' : Word),
      Sees .re m k x ∧ Sees .re m k x' ∧ Sees .im m k y ∧ Sees .im m k y' ∧
      magnitudeOf d m k = Num.fsqrt (e 0) (Num.fadd (e 1) (Num.fmul (e 2) x x') (Num.fmul (e 3) y y')) :=
  ⟨magnitudeDraws d, _, _, _, _, Buf.sees_load _ _ _ _, Buf.sees_load _ _ _ _, Buf.sees_load _ _ _ _,
    Buf.sees_load _ _ _ _, rfl⟩

/-- Settles O22: the buffers are `magLoop_spec`, each word by `magnitudeOf_formula`. -/
theorem magRule : Obligations.MagRule := by
  refine ⟨rfl, fun s hr => ⟨fun h => rejects_of_check hr (transformCheck_zero h), fun hn hl => ?_⟩⟩
  have hc : issueCheck .mag s = none := transformCheck_ok hn
  obtain ⟨hword, hframe⟩ := magLoop_spec (d := drawOf s) (m := s.mem) (halfBins_le hn hl)
  refine ⟨_, (runs_iff hr hc).2 rfl, rfl, fun k hk => ?_, hframe⟩
  obtain ⟨e, x, x', y, y', hx, hx', hy, hy', hval⟩ := magnitudeOf_formula ((drawOf s).site k) s.mem k
  exact ⟨e, x, x', y, y', hx, hx', hy, hy', hval ▸ hword k hk⟩

/-! ### MAXU -/

/-- The running maximum from `g` of `x 0 .. x (n-1)`, by the ordered comparison (42_magnitude_log R132, R133). -/
def runningMax (x : Nat → Word) (g : Word) (n : Nat) : Word :=
  forUpTo n (fun k g => if Num.fgt (x k) g then x k else g) g

theorem runningMax_succ (x : Nat → Word) (g : Word) (n : Nat) :
    runningMax x g (n + 1) = if Num.fgt (x n) (runningMax x g n) then x n else runningMax x g n := forUpTo_succ ..

/-- Only the values taken in matter. -/
theorem runningMax_congr {x y : Nat → Word} {g : Word} {n : Nat} (h : ∀ k, k < n → x k = y k) :
    runningMax x g n = runningMax y g n :=
  forUpTo_congr fun k _ hk => by rw [h k hk]

/-- The word MAXU reads from `MAG[k]`, drawing for the round `k` (log 23). -/
def magRead (d : Draw) (m : Mem) (k : Nat) : Word := Buf.load .mag (d.site k) m k

theorem magRead_written {d : Draw} {m : Mem} {k : Nat} {w : Word} (h : Buf.mag.peek m k = some w) : magRead d m k = w :=
  Buf.sees_load .mag _ m k w h

/-- A run of MAXU leaves the running maximum of the words read in `GMAX`, and changes no other register (42_magnitude_log R132). -/
theorem maxu_of_runs {s t : State} (hr : Ready s) (hn : s.nfft ≠ 0#32) (h : Runs .maxu s t) :
    t = { completed .maxu s with gmax := t.gmax } ∧
      t.gmax = runningMax (magRead (drawOf s) s.mem) s.gmax (halfBins s.nfft.toNat) := by
  have hc : issueCheck .maxu s = none := transformCheck_ok hn
  obtain rfl := (runs_iff hr hc).1 h
  exact ⟨rfl, rfl⟩

/-- Settles O23: the sequence is the running maximum at each bin. -/
theorem maxuRule : Obligations.MaxuRule := by
  refine ⟨rfl, fun s hr => ⟨fun h => rejects_of_check hr (transformCheck_zero h), fun hn => ?_⟩⟩
  have hc : issueCheck .maxu s = none := transformCheck_ok hn
  have hrun := (runs_iff hr hc).2 rfl
  obtain ⟨hframe, hgmax⟩ := maxu_of_runs hr hn hrun
  exact ⟨_, hrun, hframe, runningMax (magRead (drawOf s) s.mem) s.gmax, rfl, hgmax,
    fun k _ => ⟨_, Buf.sees_load _ _ _ _, runningMax_succ ..⟩⟩

/-- Settles O24: every read is of the written word, and the fold over these is `foldMax_spec`. -/
theorem maxuTakesTheMaximum : Obligations.MaxuTakesTheMaximum := by
  intro s t x hr hn hx hg hrun
  have hread : t.gmax = runningMax x s.gmax (halfBins s.nfft.toNat) := by
    rw [(maxu_of_runs hr hn hrun).2]
    exact runningMax_congr fun k hk => magRead_written (hx k hk).1
  rw [hread]
  exact foldMax_spec (fun k hk => (hx k hk).2) hg

/-! ### DB -/

/-- The decibels of bin `k` as DB computes them from `m`. -/
def decibelAt (d : Draw) (m : Mem) (k : Nat) : Word := decibelOf (d.site k) m k

/-- Settles O25: the buffers and the maximum are `dbLoop_spec`, the sequence is the running maximum of the decibels. -/
theorem dbRule : Obligations.DbRule := by
  intro keep
  refine ⟨by cases keep <;> rfl, fun s hr => ⟨fun h => rejects_of_check hr (transformCheck_zero h), fun hn hl => ?_⟩⟩
  have hc : issueCheck (.db keep) s = none := transformCheck_ok hn
  obtain ⟨hword, hframe, hmax⟩ := dbLoop_spec (d := drawOf s) (m := s.mem) (g := if keep then s.dbmax else Num.negInf)
    (halfBins_le hn hl)
  exact ⟨_, (runs_iff hr hc).2 rfl, rfl, hframe, decibelAt (drawOf s) s.mem, runningMax (decibelAt (drawOf s) s.mem) _, rfl,
    hmax, fun k hk => ⟨hword k hk, runningMax_succ .., ((drawOf s).site k).site, _, Buf.sees_load _ _ _ _, rfl⟩⟩

/-! ### DBN -/

/-- Settles O26: with a finite maximum the run is `dbnEffect_finite`, else `dbnEffect_fallback`. -/
theorem dbnRule : Obligations.DbnRule := by
  refine ⟨rfl, fun s hr => ⟨fun h => rejects_of_check hr (transformCheck_zero h), fun hn hl => ?_⟩⟩
  have hc : issueCheck .dbn s = none := transformCheck_ok hn
  have hbins := halfBins_le hn hl
  cases hfin : Num.fisfinite s.dbmax
  case true =>
    have heffect := dbnEffect_finite (d := drawOf s) (s := accept (encode .dbn) s) hfin
    obtain ⟨hword, hframe⟩ := dbnLoop_spec (d := drawOf s) (g := s.dbmax) (m := s.mem) hbins
    exact ⟨_, (runs_iff hr hc).2 (congrArg finish heffect).symm, hframe, rfl,
      fun k hk => ⟨_, _, Buf.sees_load _ _ _ _, hword k hk⟩⟩
  case false =>
    have heffect := dbnEffect_fallback (d := drawOf s) (s := accept (encode .dbn) s) hfin
    obtain ⟨hword, hframe⟩ := fillOut_spec (v := Num.minus120) (m := s.mem) hbins
    exact ⟨_, (runs_iff hr hc).2 (congrArg finish heffect).symm, hframe, rfl, hword⟩

/-! ### LOGC -/

/-- The divisor of the run of LOGC from `s` (42_magnitude_log R135). -/
abbrev runDivisor (s : State) : Word := logcDivisor ((drawOf s).site 0) s.gmax

/-- Settles O27: with a usable divisor the run is `logcEffect_usable`, else `logcEffect_fallback`. -/
theorem logcRule : Obligations.LogcRule := by
  refine ⟨rfl, fun s hr => ⟨fun h => rejects_of_check hr (transformCheck_zero h), fun hn hl => ?_⟩⟩
  have hc : issueCheck .logc s = none := transformCheck_ok hn
  have hbins := halfBins_le hn hl
  cases husable : Num.fisfinite (runDivisor s) && !Num.feq0 (runDivisor s)
  case true =>
    have heffect := logcEffect_usable (d := drawOf s) (s := accept (encode .logc) s) rfl husable
    obtain ⟨hword, hframe⟩ := logcLoop_spec (d := (drawOf s).site 1) (m := s.mem) hbins
    refine ⟨_, ((drawOf s).site 0).site 0, ((drawOf s).site 0).site 1, (runs_iff hr hc).2 (congrArg finish heffect).symm,
      hframe, (if_pos husable).mpr ⟨rfl, fun k hk => ?_⟩⟩
    exact ⟨(((drawOf s).site 1).site k).site, _, Buf.sees_load _ _ _ _, hword k hk⟩
  case false =>
    have heffect := logcEffect_fallback (d := drawOf s) (s := accept (encode .logc) s) rfl husable
    obtain ⟨hword, hframe⟩ := fillOut_spec (v := Num.zero) (m := s.mem) hbins
    exact ⟨_, ((drawOf s).site 0).site 0, ((drawOf s).site 0).site 1, (runs_iff hr hc).2 (congrArg finish heffect).symm,
      hframe, (if_neg (Bool.eq_false_iff.1 husable)).mpr ⟨rfl, hword⟩⟩

/-! ### FAXIS -/

/-- Without an established length FAXIS fails its first check (42_magnitude_log R136). -/
theorem issueCheck_faxis_zero {s : State} (h : s.nfft = 0#32) : issueCheck .faxis s = some .inputTooShort := by
  simp [issueCheck, transformCheck_zero h]

/-- With an established length the sample rate decides (42_magnitude_log R136). -/
theorem issueCheck_faxis {s : State} (h : s.nfft ≠ 0#32) :
    issueCheck .faxis s = if s.srate = 0#32 then some .invalidParameter else none := by
  simp [issueCheck, transformCheck_ok h]

/-- A run of FAXIS: its frame, every frequency, and the words written (42_magnitude_log R136). -/
theorem faxis_of_runs {s t : State} (hr : Ready s) (hn : s.nfft ≠ 0#32) (hs : s.srate ≠ 0#32) (hl : LengthOk s)
    (h : Runs .faxis s t) :
    t = { completed .faxis s with mem := t.mem } ∧
      (∀ k, k < halfBins s.nfft.toNat →
        Buf.frq.peek t.mem k = some (frequencyOf ((drawOf s).site k) s.srate.toNat s.nfft.toNat k)) ∧
      OnlyWords .frq (halfBins s.nfft.toNat) s.mem t.mem := by
  have hc : issueCheck .faxis s = none := by rw [issueCheck_faxis hn, if_neg hs]
  obtain rfl := (runs_iff hr hc).1 h
  exact ⟨rfl, faxisLoop_spec (halfBins_le hn hl)⟩

/-- Settles O28: the issue accepts the command where both checks pass, and its run is `faxis_of_runs`. -/
theorem faxisRule : Obligations.FaxisRule := by
  refine ⟨rfl, fun s hr => ⟨fun h => rejects_of_check hr (issueCheck_faxis_zero h),
    fun hn hs => rejects_of_check hr (by rw [issueCheck_faxis hn, if_pos hs]), fun hn hs hl => ?_⟩⟩
  have hc : issueCheck .faxis s = none := by rw [issueCheck_faxis hn, if_neg hs]
  have hrun := (runs_iff hr hc).2 rfl
  obtain ⟨hframe, hword, honly⟩ := faxis_of_runs hr hn hs hl hrun
  exact ⟨_, hrun, hframe, fun k hk => ⟨_, _, hword k hk⟩, honly⟩

/-- The numerator of the first frequency is +0.0, and its denominator a positive finite float (42_magnitude_log R136). -/
theorem frequencyOf_zero {srate n : Nat} (d : Draw) (hs : srate < 2 ^ 32) (h0 : 0 < n) (hn : n ≤ Config.nMax) :
    frequencyOf d srate n 0 = 0x00000000#32 := by
  have hmax : Config.nMax < 2 ^ 24 := by decide
  obtain ⟨hrate, hrateSign⟩ := Num.ofInt_finite hs
  obtain ⟨hfin, hne, hsign⟩ := Num.ofInt_positive h0 (lt_of_le_of_lt hn hmax)
  rw [frequencyOf, show Num.ofInt 0 = 0x00000000#32 by decide, Num.zero_fmul _ hrate hrateSign, Num.zero_fdiv _ hfin hne hsign]

/-- Settles O29: bin 0 is always there, and its frequency is `frequencyOf_zero`. -/
theorem frequencyAxisStartsAtZero : Obligations.FrequencyAxisStartsAtZero := by
  intro s t hr hn hs hl hrun
  obtain ⟨hpow, hmax⟩ := length_of_ne_zero hn hl
  obtain ⟨-, hword, -⟩ := faxis_of_runs hr hn hs hl hrun
  rw [hword 0 (halfBins_pos _), frequencyOf_zero _ s.srate.isLt (hpow ▸ Nat.two_pow_pos _) (hpow ▸ hmax)]

end Sys2Proof.Machine
end

section
/-! PROOF. The system commands (43_system R150, R151): neither has a check, so every idle state with `ERR = 0` runs them. -/

namespace Sys2Proof.Machine

/-- Issue and `Complete` without an effect leave what `completed` says. -/
theorem finish_accept (i : Instr) (s : State) : finish (accept (encode i) s) = completed i s := rfl

/-- Settles O10: no check can fail, and the effect of NOP is the identity. -/
theorem nopRule : Obligations.NopRule := by
  refine ⟨rfl, fun s hr => ?_⟩
  have hc : issueCheck .nop s = none := rfl
  exact (runs_iff hr hc).2 (finish_accept .nop s).symm

/-- The word of `ACLR m` (30_encoding R73). -/
theorem encode_aclr (m : BitVec 2) : encode (.aclr m) = 0x00000018#32 + (m.setWidth 32 <<< 8) := by
  revert m
  decide

/-- The effect of ACLR between issue and `Complete`: on the accumulators only (43_system R151). -/
theorem finish_aclrEffect_accept (m : BitVec 2) (i : Instr) (s : State) :
    finish (aclrEffect m (accept (encode i) s)) = { completed i s with
      gmax := if m.getLsbD 0 then 0x00000000#32 else s.gmax
      dbmax := if m.getLsbD 1 then 0xFF800000#32 else s.dbmax } := rfl

/-- Settles O11: no check can fail, and the effect is `finish_aclrEffect_accept`. -/
theorem aclrRule : Obligations.AclrRule := by
  refine fun m s => ⟨encode_aclr m, fun hr => ?_⟩
  have hc : issueCheck (.aclr m) s = none := rfl
  exact (runs_iff hr hc).2 (finish_aclrEffect_accept m (.aclr m) s).symm

end Sys2Proof.Machine
end

section
/-! PROOF. What becomes of a command word (60_exceptions R163 to R173): the five outcomes of its write to `CMD`, the return by
a write to `STATUS`, the step as `exec` of the decoded command, its completion, and the interrupt line. -/

namespace Sys2Proof.Machine

/-! ### The issue of a word, outcome by outcome (60_exceptions R163) -/

/-- A write to `CMD` is answered `ok` and issues the word. -/
theorem perform_write_cmd (w : Word) (s : State) :
    perform (.write .word (regOffset .cmd) w) s = hostCommand w (respond .ok s) := by
  rw [perform, hostWrite, target_regOffset]

/-- While idle, the issue of a legal word is `exec` of its command. -/
theorem hostCommand_legal {w : Word} {i : Instr} {s : State} (hb : s.status.busy = false) (hd : decode w = .ok i) :
    hostCommand w s = exec i s := by
  rw [hostCommand, if_neg (by simp [hb]), hd]

/-- While idle, an illegal word takes the way of `issueIllegal`. -/
theorem hostCommand_illegal {w : Word} {e : DecodeError} {s : State} (hb : s.status.busy = false)
    (hd : decode w = .error e) : hostCommand w s = .next (issueIllegal w s) := by
  rw [hostCommand, if_neg (by simp [hb]), hd]

/-- While idle with an error pending, every word is discarded (60_exceptions R167). -/
theorem hostCommand_discarded {w : Word} {s : State} (hb : s.status.busy = false) (he : s.status.err = true) :
    hostCommand w s = .next s := by
  cases hd : decode w with
  | ok i => rw [hostCommand_legal hb hd, exec_idle hb, issue_discards he]
  | error e => rw [hostCommand_illegal hb hd, issueIllegal, if_pos he]

/-- An illegal word is rejected with code 3 (60_exceptions R164). -/
theorem hostCommand_illegal_rejected {w : Word} {e : DecodeError} {s : State} (hs : Ready s) (hd : decode w = .error e) :
    hostCommand w s = .next (reject .illegalCommand w s) := by
  rw [hostCommand_illegal hs.1 hd, issueIllegal, if_neg (by simp [hs.2])]

/-- A legal word whose first failing check has the code `c` is rejected with it (60_exceptions R165). -/
theorem hostCommand_rejected {w : Word} {i : Instr} {c : ErrCode} {s : State} (hs : Ready s) (hd : decode w = .ok i)
    (hc : issueCheck i s = some c) : hostCommand w s = .next (reject c w s) := by
  obtain ⟨hb, he⟩ := hs
  rw [hostCommand_legal hb hd, exec_idle hb, issue_rejects he hc, (encode_of_decode hd).2]

/-- A legal word with no failing check is accepted (60_exceptions R169). -/
theorem hostCommand_accepted {w : Word} {i : Instr} {s : State} (hs : Ready s) (hd : decode w = .ok i)
    (hc : issueCheck i s = none) : hostCommand w s = .next (accept w s) := by
  obtain ⟨hb, he⟩ := hs
  rw [hostCommand_legal hb hd, exec_idle hb, issue_accepts he hc, (encode_of_decode hd).2]

/-- Settles O7: one lemma on `hostCommand` per outcome, after the bus has answered `ok`. -/
theorem issueOutcomes : Obligations.IssueOutcomes := by
  intro s w hr
  have takes {t : State} (h : hostCommand w (respond .ok s) = .next t) : Takes (.write .word (regOffset .cmd) w) s t :=
    (takes_iff hr).2 ((perform_write_cmd w s).trans h)
  have hcheck (i : Instr) : issueCheck i (respond .ok s) = issueCheck i s :=
    issueCheck_congr (s := s) (t := respond .ok s) rfl rfl rfl rfl rfl i
  refine ⟨fun hb => takes (hostCommand_ignored hb), fun hb he => takes (hostCommand_discarded hb he),
    fun hs ⟨_, hd⟩ => takes (hostCommand_illegal_rejected hs hd), fun i hs hd => ⟨fun c hc => ?_, fun hc => ?_⟩⟩
  · exact takes (hostCommand_rejected hs hd ((hcheck i).trans hc))
  · exact takes (hostCommand_accepted hs hd ((hcheck i).trans hc))

/-! ### The return (60_exceptions R166) -/

/-- A write to `STATUS` returns from a rejection where it clears `ERR`, and else leaves `ERRCODE` and `ERRCMD`. -/
theorem writeStatus_returns (v : Word) (s : State) :
    (writeStatus v s).errCode = (if s.status.err && v.getLsbD 2 then .none else s.errCode) ∧
      (writeStatus v s).errCmd = if s.status.err && v.getLsbD 2 then 0#32 else s.errCmd := by
  simp only [writeStatus, Bool.and_eq_true]
  split <;> exact ⟨rfl, rfl⟩

/-- Settles O8: the frame of `writeStatus`, with `ERRCODE` and `ERRCMD` by `writeStatus_returns`. -/
theorem statusWriteClearsAndReturns : Obligations.StatusWriteClearsAndReturns := by
  intro s v hr
  have hwrite : hostWrite .word (regOffset .status) v s = .next (writeStatus v (respond .ok s)) := by
    rw [hostWrite, target_regOffset]
  obtain ⟨hcode, hcmd⟩ := writeStatus_returns v (respond .ok s)
  rw [writeStatus_frame, hcode, hcmd] at hwrite
  exact (takes_write hr).2 hwrite

/-! ### The step of the decoded command (60_exceptions R163, R170) -/

/-- The engine's turn with a command in flight is `exec` of the command in `CUR`. -/
theorem engineTurn_exec {s : State} {i : Instr} (hb : s.status.busy = true) (hi : decode s.cur = .ok i) :
    engineTurn s = exec i s := (engineTurn_busy hb hi).trans (exec_busy hb).symm

/-- With `rst_n` high, a state whose next move is `m` makes it. -/
theorem step_cons {s : State} (h : s.rstN = true) (m : Move) : step { s with agenda := m :: s.agenda } = perform m s :=
  step_move (s := { s with agenda := m :: s.agenda }) h rfl

/-- Settles O6: a write to `CMD` is `hostCommand_legal`, the move `complete` and the end of the agenda the engine's turn. -/
theorem stepRunsDecodedCommand : Obligations.StepRunsDecodedCommand := by
  refine ⟨fun s w i hr hb hd => ?_, fun s i hr hb hi => ⟨?_, fun ha => ?_⟩⟩
  · exact (step_cons hr _).trans ((perform_write_cmd w s).trans (hostCommand_legal hb hd))
  · exact (step_cons hr .complete).trans (engineTurn_exec hb hi)
  · exact (step_turn hr ha).trans (engineTurn_exec hb hi)

/-! ### No step stops (60_exceptions R160) -/

/-- A move leads on wherever `CUR` is a command. -/
theorem perform_next {s : State} (h : CurOk s) (m : Move) : ∃ t, perform m s = .next t := by
  cases m with
  | write width off v => exact hostWrite_next width off v s
  | complete => exact engineTurn_next h
  | read _ _ | resetLow | resetHigh => exact ⟨_, rfl⟩

/-- A step leads on wherever `CUR` is a command: the move it makes does, and the agenda is no part of `CUR`. -/
theorem step_next {s : State} (h : CurOk s) : ∃ t, step s = .next t := by
  have hmove (m : Move) (rest : List Move) : ∃ t, perform m { s with agenda := rest } = .next t :=
    perform_next (s := { s with agenda := rest }) h m
  cases hr : s.rstN with
  | true =>
    cases ha : s.agenda with
    | nil => rw [step_turn hr ha]; exact engineTurn_next h
    | cons m rest => rw [step_move hr ha]; exact hmove m rest
  | false =>
    rw [step, nextMove, if_neg (by simp [hr]), heldMove]
    split
    · exact hmove _ _
    · exact ⟨_, rfl⟩

/-- Settles O40: of the invariants, the one on `CUR` excludes the model's only fault. -/
theorem invariantsExcludeStops : Obligations.InvariantsExcludeStops := by
  rintro s ⟨-, -, -, hcur, -, -⟩
  exact step_next hcur

/-! ### Completion (60_exceptions R170) -/

/-- From `s` to `t` the command in flight has completed. -/
def Completes (s t : State) : Prop :=
  t.status.busy = false ∧ t.status.done = true ∧ t.cmdCnt = s.cmdCnt + 1#32

/-- From `s` to `t` the command in flight is still the same and not completed, and `rst_n` and the moves to come are as they
were. -/
def StillInFlight (s t : State) : Prop :=
  t.status.busy = true ∧ t.cur = s.cur ∧ t.cmdCnt = s.cmdCnt ∧ t.rstN = s.rstN ∧ t.agenda = s.agenda

/-- The engine's turn completes the command in flight. -/
theorem engineTurn_completes {s : State} (hcur : CurOk s) (hb : s.status.busy = true) :
    ∃ t, engineTurn s = .next t ∧ Completes s t := by
  obtain ⟨i, hi⟩ := hcur
  refine ⟨_, engineTurn_busy hb hi, ?_⟩
  rw [complete_frame]
  exact ⟨rfl, rfl, rfl⟩

/-- With `rst_n` high, a move that neither completes nor drives `rst_n` low leaves the command in flight. -/
theorem perform_stillInFlight {s : State} {m : Move} (hb : s.status.busy = true) (hr : s.rstN = true)
    (hcomplete : m ≠ .complete) (hlow : m ≠ .resetLow) : ∃ t, perform m s = .next t ∧ StillInFlight s t := by
  cases m with
  | read width off =>
    refine ⟨_, rfl, ?_⟩
    rw [hostRead_frame]
    exact ⟨hb, rfl, rfl, rfl, rfl⟩
  | write width off v =>
    obtain ⟨t, ht⟩ := hostWrite_next width off v s
    have hbusy : t.status.busy = true := (hostWrite_frame ht).2 hb
    refine ⟨t, ht, hbusy, ?_⟩
    rw [hostWrite_busy_frame hb ht]
    exact ⟨rfl, rfl, rfl, rfl⟩
  | complete => exact absurd rfl hcomplete
  | resetLow => exact absurd rfl hlow
  | resetHigh => exact ⟨s, congrArg _ (if_pos hr), hb, rfl, rfl, rfl, rfl⟩

/-- A run whose first step leads to `t` goes on from there. -/
theorem run_succ {M : Host.Core} {s t : M.State} (h : M.step s = .next t) (k : Nat) : M.run (k + 1) s = M.run k t := by
  rw [Host.Core.run, h]

/-- Settles O41, by induction on the agenda: the move `complete` and the end of the agenda complete the command, every other
move leaves it in flight with one move fewer to come. -/
theorem acceptedCommandCompletes : Obligations.AcceptedCommandCompletes := by
  intro s hcur hb hr hlow
  induction ha : s.agenda generalizing s with
  | nil =>
    obtain ⟨u, hu, hdone⟩ := engineTurn_completes hcur hb
    exact ⟨0, s, u, le_rfl, rfl, hb, rfl, (step_turn hr ha).trans hu, hdone⟩
  | cons m rest ih =>
    rw [ha, List.mem_cons, not_or] at hlow
    obtain ⟨hm, hrest⟩ := hlow
    by_cases hc : m = .complete
    · subst hc
      obtain ⟨u, hu, hdone⟩ := engineTurn_completes (s := { s with agenda := rest }) hcur hb
      exact ⟨0, s, u, Nat.zero_le _, rfl, hb, rfl, (step_move hr ha).trans hu, hdone⟩
    · obtain ⟨s', hs', hb', hcur', hcnt', hr', ha'⟩ :=
        perform_stillInFlight (s := { s with agenda := rest }) hb hr hc (Ne.symm hm)
      have hstep : step s = .next s' := (step_move hr ha).trans hs'
      obtain ⟨k, t, u, hk, hrun, ht, hcnt, hu, hidle, hdone, hcount⟩ :=
        ih s' (by rwa [CurOk, hcur']) hb' (hr'.trans hr) (by rwa [ha']) ha'
      rw [hcnt'] at hcnt hcount
      have hrun' : Sys2Proof.core.run (k + 1) s = .next t := (run_succ (M := Sys2Proof.core) hstep k).trans hrun
      exact ⟨k + 1, t, u, Nat.succ_le_succ hk, hrun', ht, hcnt, hu, hidle, hdone, hcount⟩

/-! ### The interrupt line (60_exceptions R173) -/

/-- Settles O9. -/
theorem irqLine : Obligations.IrqLine := by
  intro s
  simp only [irq, Bool.and_eq_true, Bool.or_eq_true]

end Sys2Proof.Machine
end

section
/-! PROOF. The reset pin (70_reset R190 to R192): what a step does with the first move of the pin, whatever
waits before it. -/

namespace Sys2Proof.Machine

/-- The moves of the pin are its fall and its rise. -/
theorem Move.isPin_eq_false_iff {m : Move} : m.isPin = false ↔ m ≠ .resetLow ∧ m ≠ .resetHigh := by
  cases m <;> simp [Move.isPin]

/-- With `rst_n` low and no move of the pin to come, a step changes nothing. -/
theorem step_held_stuck {s : State} (h : s.rstN = false) (ha : takePin s.agenda = none) : step s = .next s := by
  rw [step, nextMove, if_neg (by simp [h]), heldMove, ha]

/-- With `rst_n` low a step makes the first move of the pin. -/
theorem step_held_pin {s : State} {m : Move} {rest : List Move} (h : s.rstN = false)
    (ha : takePin s.agenda = some (m, rest)) : step s = perform m { s with agenda := rest } := by
  rw [step, nextMove, if_neg (by simp [h]), heldMove, ha]

/-- A move of the pin that is the next one is made at either level of the pin. -/
theorem takes_pin_iff {m : Move} {s t : State} (hm : m.isPin = true) : Takes m s t ↔ perform m s = .next t := by
  cases hr : s.rstN with
  | true => exact takes_iff hr
  | false =>
    have hpin : takePin (m :: s.agenda) = some (m, s.agenda) := takePin_append (l := []) (by simp) hm
    rw [Takes, step_held_pin (s := { s with agenda := m :: s.agenda }) hr hpin]

/-- The rise of a low `rst_n` is the reset. -/
theorem perform_resetHigh {s : State} (h : s.rstN = false) : perform .resetHigh s = .next (resetBlock s) := by
  rw [perform, raiseReset, if_neg (by simp [h])]

/-- Settles O36: both moves are of the pin, so they are made in any state, and the rise is `resetBlock`. -/
theorem resetFromAnyState : Obligations.ResetFromAnyState := by
  intro s
  have hlow : Takes .resetLow s { s with rstN := false } := (takes_pin_iff rfl).2 rfl
  have hhigh : Takes .resetHigh { s with rstN := false } (resetBlock { s with rstN := false }) :=
    (takes_pin_iff rfl).2 (perform_resetHigh rfl)
  exact ⟨hlow, _, hhigh, rfl, rfl, rfl⟩

/-- Settles O37: without a move of the pin the step finds none to take, and a rise is taken past the moves that wait. -/
theorem heldInReset : Obligations.HeldInReset := by
  refine fun s hr => ⟨by simp [irq, hr], fun hs => ?_, fun waiting rest hw ha => ?_⟩
  · exact step_held_stuck hr (takePin_none fun m hm => Move.isPin_eq_false_iff.2 (hs m hm))
  · have hpin : takePin s.agenda = some (.resetHigh, waiting ++ rest) := by
      rw [ha]
      exact takePin_append (fun m hm => Move.isPin_eq_false_iff.2 (hw m hm)) rfl
    exact (step_held_pin hr hpin).trans (perform_resetHigh (s := { s with agenda := waiting ++ rest }) hr)

end Sys2Proof.Machine
end

section
/-! PROOF. The run of one command as a script (70_reset R195, 30_encoding R78): the states it passes owe a move or have the
command in flight, and its end differs from the command's own run in the model's fields only. -/

namespace Sys2Proof.Machine

/-! ### The first end of a run -/

/-- The run from `s` comes to `t`, the first state of it that is an end. -/
def FirstEnd (s t : State) : Prop :=
  ∃ k, Sys2Proof.core.run k s = .next t ∧ RunEnded t ∧
    ∀ j u, j < k → Sys2Proof.core.run j s = .next u → ¬RunEnded u

/-- The run of a script ends where the run of the moves it gives first does. -/
theorem runOf_iff {script : List HostStep} {s t : State} : RunOf script s t ↔ FirstEnd (giveScript script s) t := Iff.rfl

/-- A run that starts at an end is over. -/
theorem firstEnd_refl {s : State} (h : RunEnded s) : FirstEnd s s :=
  ⟨0, rfl, h, fun _ _ hj => absurd hj (Nat.not_lt_zero _)⟩

/-- A run that does not start at an end goes on after its first step. -/
theorem firstEnd_step {s s' t : State} (hs : ¬RunEnded s) (h : step s = .next s') (ht : FirstEnd s' t) : FirstEnd s t := by
  obtain ⟨k, hk, hend, hfirst⟩ := ht
  have hrun (j : Nat) : Sys2Proof.core.run (j + 1) s = Sys2Proof.core.run j s' := run_succ (M := Sys2Proof.core) h j
  refine ⟨k + 1, (hrun k).trans hk, hend, fun j u hj hu => ?_⟩
  cases j with
  | zero => exact Host.Outcome.next.inj hu ▸ hs
  | succ j => exact hfirst j u (Nat.lt_of_succ_lt_succ hj) ((hrun j).symm.trans hu)

/-- A run that owes a move has not ended. -/
theorem not_runEnded_of_agenda {s : State} (h : s.agenda ≠ []) : ¬RunEnded s := fun hs => h hs.1

/-- A run with a command in flight has not ended. -/
theorem not_runEnded_of_busy {s : State} (h : s.status.busy = true) : ¬RunEnded s := fun hs => by simp [hs.2.2] at h

/-! ### Complete and the end -/

/-- What a command's run leaves: idle, with the pin as it was. -/
theorem idle_of_runs {i : Instr} {s t : State} (h : Runs i s t) : Idle t ∧ t.rstN = s.rstN := by
  obtain ⟨-, hexec⟩ := h
  rw [exec_busy rfl] at hexec
  rw [← Host.Outcome.next.inj hexec, complete_frame]
  exact ⟨rfl, rfl⟩

/-- The end of `Complete` does not depend on what the host has still to do and was last answered. -/
theorem finish_host (s : State) (l : List Move) (r : Response) :
    finish { s with agenda := l, resp := r } = { finish s with agenda := l, resp := r } := rfl

/-- The engine's turn after the acceptance ends as the command's own run does, whatever the host has still to do and
was last answered. -/
theorem engineTurn_of_runs {i : Instr} {s t : State} (h : Runs i s t) (hd : decode (encode i) = .ok i) (l : List Move)
    (r : Response) :
    engineTurn { accept (encode i) s with agenda := l, resp := r } = .next { t with agenda := l, resp := r } := by
  obtain ⟨-, hexec⟩ := h
  rw [exec_busy rfl] at hexec
  have hdraw : drawOf { accept (encode i) s with agenda := l, resp := r } = drawOf (accept (encode i) s) := rfl
  rw [engineTurn_busy (s := { accept (encode i) s with agenda := l, resp := r }) rfl hd, hdraw, effect_host,
    finish_host, Host.Outcome.next.inj hexec]

/-- The observation leaves out the moves to come and the response (log 24). -/
theorem observe_host (s : State) (l : List Move) (r : Response) :
    observe { s with agenda := l, resp := r } = observe s := rfl

/-! ### The two scripts -/

/-- What the state must be for the write of the command to be accepted from an empty agenda. -/
structure Launches (i : Instr) (s : State) : Prop where
  high : s.rstN = true
  nothingToDo : s.agenda = []
  ready : Ready s
  legal : decode (encode i) = .ok i
  checked : issueCheck i s = none

/-- The read of `STATUS` that a `WAIT` repeats (30_encoding R78). -/
def poll : Move := .read .word (regOffset .status)

/-- The `WAIT` of `RUN` places `Complete`, and a poll after it. -/
theorem scriptMoves_wait : scriptMoves [.wait 0] = [.complete, poll] := rfl

section

variable {i : Instr} {s t : State}

/-- A launched script starts with the acceptance of its first line, the command, and goes on with the moves of the
others. -/
theorem Launches.runOf {lines : List HostStep} (h : Launches i s)
    (ht : FirstEnd { accept (encode i) s with agenda := scriptMoves lines, resp := .ok } t) :
    RunOf (.command i :: lines) s t := by
  have ha : (giveScript (.command i :: lines) s).agenda = .write .word cmdOffset (encode i) :: scriptMoves lines := by
    rw [giveScript, h.nothingToDo]
    rfl
  have hc : issueCheck i (giveScript (.command i :: lines) s) = none :=
    (issueCheck_congr (s := s) (t := giveScript _ s) rfl rfl rfl rfl rfl i).trans h.checked
  have howes : ¬RunEnded (giveScript (.command i :: lines) s) := not_runEnded_of_agenda (by rw [ha]; exact nofun)
  exact runOf_iff.2 (firstEnd_step howes (step_accepts h.high h.ready h.legal hc ha) ht)

/-- The bare command ends with the turn that the engine has once the script is over. -/
theorem Launches.runOf_command (h : Launches i s) (ht : Runs i s t) :
    RunOf [.command i] s { t with agenda := [], resp := .ok } := by
  obtain ⟨hidle, -⟩ := idle_of_runs ht
  have hcomplete : step { accept (encode i) s with agenda := [], resp := .ok } =
      .next { t with agenda := [], resp := .ok } :=
    (step_turn (s := { accept (encode i) s with agenda := [], resp := .ok }) h.high rfl).trans
      (engineTurn_of_runs ht h.legal [] .ok)
  exact h.runOf (firstEnd_step (not_runEnded_of_busy rfl) hcomplete (firstEnd_refl ⟨rfl, nofun, hidle⟩))

/-- `RUN` ends with the poll after `Complete`, which finds `BUSY = 0`. -/
theorem Launches.runOf_runScript (h : Launches i s) (ht : Runs i s t) :
    RunOf (runScript i) s { t with agenda := [], resp := .data (statusWord t.status) } := by
  obtain ⟨hidle, hpin⟩ := idle_of_runs ht
  have hcomplete : step { accept (encode i) s with agenda := [.complete, poll], resp := .ok } =
      .next { t with agenda := [poll], resp := .ok } :=
    (step_cons (s := { accept (encode i) s with agenda := [poll], resp := .ok }) h.high .complete).trans
      (engineTurn_of_runs ht h.legal [poll] .ok)
  have hpoll : step { t with agenda := [poll], resp := .ok } =
      .next { t with agenda := [], resp := .data (statusWord t.status) } :=
    takes_read_reg (s := { t with agenda := [], resp := .ok }) (hpin.trans h.high) .status rfl
  refine h.runOf ?_
  rw [scriptMoves_wait]
  exact firstEnd_step (not_runEnded_of_agenda (List.cons_ne_nil _ _)) hcomplete
    (firstEnd_step (not_runEnded_of_agenda (List.cons_ne_nil _ _)) hpoll (firstEnd_refl ⟨rfl, nofun, hidle⟩))

end

/-- Settles O59: either script is launched, and comes to the command's own run but for what `observe` leaves out. -/
theorem runsOfOneCommandEnd : Obligations.RunsOfOneCommandEnd := by
  intro i s hr ha hs hw hc
  have hl : Launches i s := ⟨hr, ha, hs, decodeOfEncode i hw, hc⟩
  obtain ⟨t, ht⟩ : ∃ t, Runs i s t := ⟨_, (runs_iff hs hc).2 rfl⟩
  exact ⟨t, ht, ⟨_, hl.runOf_runScript ht, observe_host t _ _⟩, ⟨_, hl.runOf_command ht, observe_host t _ _⟩⟩

end Sys2Proof.Machine
end
